-- ==== Sys2Proof/Word.lean ====
section
/-! DEFINITION. The word type, register names and source text (00_scope.md R9, R10; 10_state.md R20). -/

namespace Sys2Proof

/-- A 16-bit unit of memory and of instruction encoding (R10, R16). `toNat` is the unsigned reading
and `toInt` the two's-complement reading `s(v)`. -/
abbrev Word := BitVec 16

/-- A register index 0..15 (R20, R21). -/
abbrev Reg := Fin 16

/-- Source text and label names: a sequence of characters (30_encoding.md R86). -/
abbrev Text := List Char

/-- Every register, R0 first (R20). -/
def allRegs : List Reg := [0, 1, 2, 3, 4, 5, 6, 7, 8, 9, 10, 11, 12, 13, 14, 15]

/-- `trunc16(n)`: n mod 2^16 for any integer n (R10). -/
def trunc16 (n : Int) : Word := BitVec.ofInt 16 n

end Sys2Proof
end

