-- ==== Sys2Proof/Config.lean ====
section
/-! DEFINITION. The named parameters of 00_scope.md R8 with the spec's defaults, and the free values
of what the spec calls any value. -/

namespace Sys2Proof.Config

/-- How an effective-address sum above 65535 wraps (R8, R150). -/
inductive EaWrap where
  | sub65535
  | mod65535
  | mod65536
deriving DecidableEq, Repr

/-- How a jump-target sum above 65535 wraps (R8, R160). -/
inductive JumpWrap where
  | sub65535
  | mod65536
deriving DecidableEq, Repr

/-- The 32-bit operand of muln and divn (R8, R128). -/
inductive NWideOperand where
  | quirk
  | intended
deriving DecidableEq, Repr

/-- Which flag pairs cmp sets: the spec gives one choice (R8, R29). -/
inductive CmpPairs where
  | both
deriving DecidableEq, Repr

/-- Which field of a trap names the register that holds its code (R8, R180). -/
inductive TrapCodeField where
  | d
  | a
deriving DecidableEq, Repr

/-- What trap codes 5..254 do (R8, R186). -/
inductive TrapMidCodes where
  | error
  | noOp
deriving DecidableEq, Repr

/-- How div reads its operands (R8, R125). -/
inductive DivSigned where
  | signed
  | unsigned
deriving DecidableEq, Repr

/-- What a zero divisor does: the spec gives one choice (R8, R272). -/
inductive DivZero where
  | error
deriving DecidableEq, Repr

/-- Which overflow bit mul sets: `binary` is bit 6 (V), `twos` is bit 5 (v) (R8, R124). -/
inductive MulOverflowBit where
  | binary
  | twos
  | both
deriving DecidableEq, Repr

/-- What sub leaves in C (R8, R123). -/
inductive SubCarry where
  | zero
  | notBorrow
  | borrow
deriving DecidableEq, Repr

/-- The parameters a model takes as arguments (R8). -/
structure Params where
  eaWrap : EaWrap
  jumpWrap : JumpWrap
  nWideOperand : NWideOperand
  cmpPairs : CmpPairs
  trapCodeField : TrapCodeField
  trapMidCodes : TrapMidCodes
  divSigned : DivSigned
  divZero : DivZero
  mulOverflowBit : MulOverflowBit
  subCarry : SubCarry
deriving DecidableEq, Repr

/-- The spec's default of every parameter; a model that fixes them is the spec (R8). Log 7. -/
def params : Params where
  eaWrap := .sub65535
  jumpWrap := .sub65535
  nWideOperand := .quirk
  cmpPairs := .both
  trapCodeField := .d
  trapMidCodes := .error
  divSigned := .signed
  divZero := .error
  mulOverflowBit := .binary
  subCarry := .zero

/-- FREE VALUE: the `altered` marks after the n-th undo (46_history.md R265: any value). Log 6. -/
opaque freeAltered : Nat → Vector Bool 16

/-- FREE VALUE: the register `accessed` marks after the n-th undo (R265: any value). Log 6. -/
opaque freeRegAccessed : Nat → Vector Bool 16

/-- FREE VALUE: the members of the `used` set after the n-th undo (R265: any value). Log 6. -/
opaque freeUsed : Nat → List Word

/-- FREE VALUE: the members of the memory `accessed` set after the n-th undo (R265: any value). Log 6. -/
opaque freeAccessed : Nat → List Word

/-- FREE VALUE: the 16-bit word patched for a label whose address does not fit 16 bits. Log 9. -/
opaque freeLabelWord : Nat → Word

end Sys2Proof.Config
end

