-- ==== Sys2Proof/Machine/Flags.lean ====
section
/-! DEFINITION. The flag words of R15 (10_state.md R28 to R30). -/

namespace Sys2Proof.Machine

/-- `flags(g=.., G=.., ...)`: bit 0 g, 1 G, 2 eq, 3 L, 4 lt, 5 v, 6 V, 7 C, bits 15..8 zero (R12, R28).
The arguments stand from bit 0 up: g (greater, two's complement), gU (G), eq, l (L), lt,
ovS (v), ovU (V), cy (C). -/
def flagWord (g gU eq l lt ovS ovU cy : Bool) : Word :=
  0#8 ++ BitVec.ofBool cy ++ BitVec.ofBool ovU ++ BitVec.ofBool ovS ++ BitVec.ofBool lt
    ++ BitVec.ofBool l ++ BitVec.ofBool eq ++ BitVec.ofBool gU ++ BitVec.ofBool g

/-- `cmpFlags(x, y)`: the unsigned pair G, lt and the signed pair g, L, both always set (R29). -/
def cmpFlags (p : Config.Params) (x y : Word) : Word :=
  match p.cmpPairs with
  | .both =>
    flagWord (decide (y.toInt < x.toInt)) (decide (y.toNat < x.toNat)) (decide (x = y))
      (decide (x.toInt < y.toInt)) (decide (x.toNat < y.toNat)) false false false

/-- `arithFlags(r, ov_s, ov_u, cy)`: the result compared with zero, and the overflow and carry bits (R30). -/
def arithFlags (p : Config.Params) (r : Word) (ovS ovU cy : Bool) : Word :=
  cmpFlags p r 0 ||| flagWord false false false false false ovS ovU cy

/-- An integer does not fit the two's-complement range of a word (R122). -/
def overflowsSigned (n : Int) : Bool := !(decide (-32768 ≤ n) && decide (n ≤ 32767))

/-- The carry flag `C` of a flag word: bit 7 (R28, R31). -/
def carryOf (f : Word) : Bool := f.getLsbD 7

/-- Some bit of the mask is set in the flag word (43_jumps.md R162). -/
def anySet (mask f : Word) : Bool := (f &&& mask) != 0

end Sys2Proof.Machine
end

