-- ==== Sys2Proof/Syntax.lean ====
section
/-! DEFINITION. The instructions of spec/opcode_table.json (30_encoding.md R77 to R79). -/

namespace Sys2Proof

/-- One constructor per row of the opcode table, with the operands the decoder delivers (R79).
A field an instruction ignores is no operand: d of cmp and of the jumps (R80). Trap keeps its three
fields, which the assembler writes from its operands (R80). -/
inductive Instr where
  /-- `add Rd,Ra,Rb` (R122) -/
  | add (d a b : Reg)
  /-- `sub Rd,Ra,Rb` (R123) -/
  | sub (d a b : Reg)
  /-- `mul Rd,Ra,Rb` (R124) -/
  | mul (d a b : Reg)
  /-- `div Rd,Ra,Rb` (R125) -/
  | div (d a b : Reg)
  /-- `cmp Ra,Rb` (R126) -/
  | cmp (a b : Reg)
  /-- `addc Rd,Ra,Rb` (R127) -/
  | addc (d a b : Reg)
  /-- `muln Rd,Ra,Rb` (R128) -/
  | muln (d a b : Reg)
  /-- `divn Rd,Ra,Rb` (R129) -/
  | divn (d a b : Reg)
  /-- `trap Rd,Ra,Rb` (R181) -/
  | trap (d a b : Reg)
  /-- `lea Rd,disp[Ra]` (R151) -/
  | lea (d a : Reg) (w2 : Word)
  /-- `load Rd,disp[Ra]` (R152) -/
  | load (d a : Reg) (w2 : Word)
  /-- `store Rd,disp[Ra]` (R153) -/
  | store (d a : Reg) (w2 : Word)
  /-- `jump target[Ra]` (R161) -/
  | jump (a : Reg) (w2 : Word)
  /-- `jumplt target[Ra]` (R163) -/
  | jumplt (a : Reg) (w2 : Word)
  /-- `jumple target[Ra]` (R164) -/
  | jumple (a : Reg) (w2 : Word)
  /-- `jumpeq target[Ra]` (R165) -/
  | jumpeq (a : Reg) (w2 : Word)
  /-- `jumpne target[Ra]` (R166) -/
  | jumpne (a : Reg) (w2 : Word)
  /-- `jumpge target[Ra]` (R167) -/
  | jumpge (a : Reg) (w2 : Word)
  /-- `jumpgt target[Ra]` (R168) -/
  | jumpgt (a : Reg) (w2 : Word)
deriving DecidableEq, Repr

end Sys2Proof
end

