-- ==== Sys2Proof/WellFormed.lean ====
section
/-! DEFINITION. The well-formedness checks. An `Instr` is well formed by its types: its register
operands are 0..15 and its second word is 16 bits. What can be ill formed is what stands before it:
a register index or a literal of the source text (30_encoding.md R21, R90) and a first word (R80, R81). -/

namespace Sys2Proof.WellFormed

/-- A register index must be 0..15 (10_state.md R21, 45_assembler.md R230). -/
def regIndex (n : Nat) : Bool := decide (n < 16)

/-- A decimal literal must be 0..65535 (30_encoding.md R90, 45_assembler.md R230). -/
def literal (n : Nat) : Bool := decide (n ≤ 65535)

/-- The first word's primary opcode names an instruction or the IRX family (30_encoding.md R77, R81). -/
def opcode (ir : Word) : Bool :=
  let op := ir.toNat / 4096
  decide (op < 8) || op == 12 || op == 15

/-- The variant selector of an IRX first word names an instruction (30_encoding.md R78, R81). -/
def selector (ir : Word) : Bool :=
  ir.toNat / 4096 != 15 || decide (ir.toNat % 16 < 10)

/-- The d field is 0 where the assembler writes it as 0: cmp and the jumps (30_encoding.md R80).
A word that fails only this check still decodes and executes. -/
def unusedField (ir : Word) : Bool :=
  let op := ir.toNat / 4096
  let ignoresD := op == 4 || (op == 15 && decide (3 ≤ ir.toNat % 16))
  !ignoresD || ir.toNat / 256 % 16 == 0

/-- The first word is one the assembler writes for some instruction (30_encoding.md R72 to R80). -/
def firstWord (ir : Word) : Bool := opcode ir && selector ir && unusedField ir

end Sys2Proof.WellFormed
end

