-- ==== Sys2Proof/Decode.lean ====
section
/-! DEFINITION. The decoder (30_encoding.md R70 to R81) and, after it, the encoder (R72 to R75, R92). -/

namespace Sys2Proof

/-- A first word that names no instruction (R79, R81). -/
inductive Reserved where
  /-- Primary opcode 0x8, 0x9, 0xA, 0xB, 0xD or 0xE. -/
  | opcode (ir : Word)
  /-- Op 0xF with selector 0xA..0xF. -/
  | irx (ir : Word)
deriving DecidableEq, Repr

/-- Why a list of words does not begin with an instruction. -/
inductive DecodeError where
  /-- A reserved encoding (R81). -/
  | reserved (r : Reserved)
  /-- Too few words for the instruction's length (R70). -/
  | truncated
deriving DecidableEq, Repr

/-- `op = ir[15:12]` (R71). -/
def opField (ir : Word) : BitVec 4 := ir.extractLsb' 12 4

/-- `d = ir[11:8]` (R71). -/
def dField (ir : Word) : Reg := (ir.extractLsb' 8 4).toFin

/-- `a = ir[7:4]` (R71). -/
def aField (ir : Word) : Reg := (ir.extractLsb' 4 4).toFin

/-- `b = ir[3:0]` (R71). -/
def bField (ir : Word) : Reg := (ir.extractLsb' 0 4).toFin

/-- The length is told from the first word alone: op 0xF means two words (R76). -/
def isTwoWords (ir : Word) : Bool := opField ir == 0xF#4

/-- The IRX selector map (R78). -/
def decodeIRX (ir w2 : Word) : Except Reserved Instr :=
  match (bField ir).val with
  | 0x0 => .ok (.lea (dField ir) (aField ir) w2)
  | 0x1 => .ok (.load (dField ir) (aField ir) w2)
  | 0x2 => .ok (.store (dField ir) (aField ir) w2)
  | 0x3 => .ok (.jump (aField ir) w2)
  | 0x4 => .ok (.jumplt (aField ir) w2)
  | 0x5 => .ok (.jumple (aField ir) w2)
  | 0x6 => .ok (.jumpeq (aField ir) w2)
  | 0x7 => .ok (.jumpne (aField ir) w2)
  | 0x8 => .ok (.jumpge (aField ir) w2)
  | 0x9 => .ok (.jumpgt (aField ir) w2)
  | _ => .error (.irx ir)

/-- The decoder: a total function of the first word and, for op 0xF, the second (R77, R79).
`w2` is not looked at for a one-word instruction. -/
def decode (ir w2 : Word) : Except Reserved Instr :=
  match (opField ir).toNat with
  | 0x0 => .ok (.add (dField ir) (aField ir) (bField ir))
  | 0x1 => .ok (.sub (dField ir) (aField ir) (bField ir))
  | 0x2 => .ok (.mul (dField ir) (aField ir) (bField ir))
  | 0x3 => .ok (.div (dField ir) (aField ir) (bField ir))
  | 0x4 => .ok (.cmp (aField ir) (bField ir))
  | 0x5 => .ok (.addc (dField ir) (aField ir) (bField ir))
  | 0x6 => .ok (.muln (dField ir) (aField ir) (bField ir))
  | 0x7 => .ok (.divn (dField ir) (aField ir) (bField ir))
  | 0xC => .ok (.trap (dField ir) (aField ir) (bField ir))
  | 0xF => decodeIRX ir w2
  | _ => .error (.opcode ir)

/-- Decodes the instruction at the head of a list of words and returns the words after it (R70, R76). -/
def decodeWords : List Word → Except DecodeError (Instr × List Word)
  | [] => .error .truncated
  | ir :: rest =>
    match isTwoWords ir, rest with
    | true, [] => .error .truncated
    | true, w2 :: rest =>
      match decode ir w2 with
      | .ok i => .ok (i, rest)
      | .error r => .error (.reserved r)
    | false, rest =>
      match decode ir 0 with
      | .ok i => .ok (i, rest)
      | .error r => .error (.reserved r)

/-- The first word of an instruction laid out as the opcode table numbers its bits: bits 15..0,
bits from `nbits` up being 0. -/
def tableFirstWord (nbits w : Nat) : Word := BitVec.ofNat 16 (w % 2 ^ nbits)

/-- Its second word: bits 31..16. -/
def tableSecondWord (nbits w : Nat) : Word := BitVec.ofNat 16 (w % 2 ^ nbits / 65536)

/-- The instruction the decoder reads from an instruction whose bits are `w`. -/
def decodeTableWord (nbits w : Nat) : Option Instr :=
  match decode (tableFirstWord nbits w) (tableSecondWord nbits w) with
  | .ok i => some i
  | .error _ => none

/-- A first word from its four nibbles, `[op:4][rd:4][ra:4][rb:4]` (R71, R72). -/
def packNibbles (op : BitVec 4) (d a b : Reg) : Word :=
  op ++ BitVec.ofFin (w := 4) d ++ BitVec.ofFin (w := 4) a ++ BitVec.ofFin (w := 4) b

/-- The primary opcode of each instruction (R77). -/
def Instr.op : Instr → BitVec 4
  | .add .. => 0x0
  | .sub .. => 0x1
  | .mul .. => 0x2
  | .div .. => 0x3
  | .cmp .. => 0x4
  | .addc .. => 0x5
  | .muln .. => 0x6
  | .divn .. => 0x7
  | .trap .. => 0xC
  | .lea .. | .load .. | .store .. | .jump .. | .jumplt .. | .jumple .. | .jumpeq ..
  | .jumpne .. | .jumpge .. | .jumpgt .. => 0xF

/-- The first word the assembler writes for an instruction; unused fields are 0 (R72 to R75, R80). -/
def Instr.firstWord (i : Instr) : Word :=
  match i with
  | .add d a b | .sub d a b | .mul d a b | .div d a b | .addc d a b | .muln d a b | .divn d a b
  | .trap d a b => packNibbles i.op d a b
  | .cmp a b => packNibbles i.op 0 a b
  | .lea d a _ => packNibbles i.op d a 0x0
  | .load d a _ => packNibbles i.op d a 0x1
  | .store d a _ => packNibbles i.op d a 0x2
  | .jump a _ => packNibbles i.op 0 a 0x3
  | .jumplt a _ => packNibbles i.op 0 a 0x4
  | .jumple a _ => packNibbles i.op 0 a 0x5
  | .jumpeq a _ => packNibbles i.op 0 a 0x6
  | .jumpne a _ => packNibbles i.op 0 a 0x7
  | .jumpge a _ => packNibbles i.op 0 a 0x8
  | .jumpgt a _ => packNibbles i.op 0 a 0x9

/-- The second word of a two-word instruction (R74, R75). -/
def Instr.secondWord : Instr → Option Word
  | .add .. | .sub .. | .mul .. | .div .. | .cmp .. | .addc .. | .muln .. | .divn ..
  | .trap .. => none
  | .lea _ _ w2 | .load _ _ w2 | .store _ _ w2 => some w2
  | .jump _ w2 | .jumplt _ w2 | .jumple _ w2 | .jumpeq _ w2 | .jumpne _ w2 | .jumpge _ w2
  | .jumpgt _ w2 => some w2

/-- The words of an instruction, in address order (R70). -/
def encode (i : Instr) : List Word := i.firstWord :: i.secondWord.toList

/-- How many words an instruction has (R70). -/
def Instr.length (i : Instr) : Nat := (encode i).length

/-- A row of spec/opcode_table.json: a first word w names the mnemonic when `w &&& mask = value`. -/
structure OpcodeRow where
  mnemonic : String
  value : Word
  mask : Word
  lengthWords : Nat
deriving DecidableEq, Repr

/-- The row matches a first word. -/
def OpcodeRow.matchesWord (r : OpcodeRow) (ir : Word) : Bool := (ir &&& r.mask) == r.value

/-- The row of the opcode table an instruction belongs to (spec/opcode_table.json). -/
def Instr.row : Instr → OpcodeRow
  | .add .. => ⟨"add", 0x0000, 0xF000, 1⟩
  | .sub .. => ⟨"sub", 0x1000, 0xF000, 1⟩
  | .mul .. => ⟨"mul", 0x2000, 0xF000, 1⟩
  | .div .. => ⟨"div", 0x3000, 0xF000, 1⟩
  | .cmp .. => ⟨"cmp", 0x4000, 0xF000, 1⟩
  | .addc .. => ⟨"addc", 0x5000, 0xF000, 1⟩
  | .muln .. => ⟨"muln", 0x6000, 0xF000, 1⟩
  | .divn .. => ⟨"divn", 0x7000, 0xF000, 1⟩
  | .trap .. => ⟨"trap", 0xC000, 0xF000, 1⟩
  | .lea .. => ⟨"lea", 0xF000, 0xF00F, 2⟩
  | .load .. => ⟨"load", 0xF001, 0xF00F, 2⟩
  | .store .. => ⟨"store", 0xF002, 0xF00F, 2⟩
  | .jump .. => ⟨"jump", 0xF003, 0xF00F, 2⟩
  | .jumplt .. => ⟨"jumplt", 0xF004, 0xF00F, 2⟩
  | .jumple .. => ⟨"jumple", 0xF005, 0xF00F, 2⟩
  | .jumpeq .. => ⟨"jumpeq", 0xF006, 0xF00F, 2⟩
  | .jumpne .. => ⟨"jumpne", 0xF007, 0xF00F, 2⟩
  | .jumpge .. => ⟨"jumpge", 0xF008, 0xF00F, 2⟩
  | .jumpgt .. => ⟨"jumpgt", 0xF009, 0xF00F, 2⟩

end Sys2Proof
end

