-- ==== Sys2Proof/Machine/State.lean ====
section
/-! DEFINITION. The state of the block as plain data (10_state.md), its reset value, and the named
reasons of faults and refusals. -/

namespace Sys2Proof.Machine

/-- The run-state, the block's only control register: an enumeration, no bits (R33). -/
inductive RunState where
  | error
  | running
  | step
  | paused
  | breakpoint
  | halted
  | interrupted
deriving DecidableEq, Repr

/-- The reasons of `raise Error(reason)` (60_exceptions.md R270). The reason is a label for the reader
and not stored state (R11). A fault of this hardware is a NEXT state whose run-state is `error`
(`raiseError`, log 2), so no step answers `Host.Outcome.fault`; these names are what
`instrFault` and `stepFaultReason` report. -/
inductive Fault where
  /-- Raised by a step whose first word has op 0x8, 0x9, 0xA, 0xB, 0xD or 0xE (R271). Safe: the spec's own fault. -/
  | reservedOpcode
  /-- Raised by a step whose first word has op 0xF and selector 0xA..0xF (R271). Safe: the spec's own fault. -/
  | reservedIRX
  /-- Raised by div and divn when the divisor is 0 (R272). Safe: the spec's own fault. -/
  | divideByZero
  /-- Raised by div of -32768 by -1 (R272). Safe: the spec's own fault. -/
  | divideOverflow
  /-- Raised by trap with a code 5..254 (R273). Safe: the spec's own fault. -/
  | trapCode
deriving DecidableEq, Repr

/-- What the model gives no meaning. -/
inductive Refusal where
  /-- Raised by exec for an instruction without a meaning; no arm raises it now. Safe: the run stops. -/
  | notModelled (mnemonic : String)
  /-- Raised by the reset transaction: the image lists an error other than MissingHalt
  (70_reset_and_hazards.md R292 (a)). Safe: the spec refuses it. -/
  | imageHasErrors
  /-- Raised by the reset transaction: the image holds more than 65536 words (R292 (b)). Safe: the
  spec refuses it. -/
  | imageTooLong
deriving DecidableEq, Repr

/-- The words of memory that differ from what an unlisted address reads as, by strictly rising address
(R36, R50). A cell is a word, the smallest thing the machine addresses (R58, log 1). -/
abbrev Memory := List (Nat × Word)

/-- A set of memory addresses as a strictly rising list (R37). -/
abbrev AddrSet := List Nat

/-- One node of the history chain (46_history.md R260): the run-state and pc before a step, and sparse
maps of prior register and memory values. The link to the previous node is the rest of the list. -/
structure Snapshot where
  rs : RunState
  pc : Word
  regs : List (Reg × Word)
  mem : List (Nat × Word)
deriving DecidableEq, Repr

/-- Host-supplied presentation data; no rule reads it (R38). -/
structure Display where
  verbosity : Bool
  watchedRegisters : List Reg
  watchedSymbols : List Text
  watchedAddresses : List Nat
deriving DecidableEq, Repr

/-- Everything the spec gives the machine (10_state.md) and the history recorder (R39, log 5). -/
structure State where
  /-- R0..R15 (R20). Slot 0 is never read: `State.reg` (R22). -/
  regs : Vector Word 16
  /-- The marks `altered[i]` (R25). -/
  regAltered : Vector Bool 16
  /-- The marks `accessed[i]` (R25). -/
  regAccessed : Vector Bool 16
  /-- The word address of the next word to fetch (R32). -/
  pc : Word
  /-- The run-state (R33). -/
  rs : RunState
  /-- The 65536 words of memory (R36). -/
  mem : Memory
  /-- The `used` set (R37). -/
  used : AddrSet
  /-- The memory `accessed` set (R37). -/
  accessed : AddrSet
  /-- The copy of the image's symbol table (R38, R291). -/
  symbols : List (Text × Nat)
  /-- Verbosity flag and monitor lists (R38). -/
  display : Display
  /-- The history chain, newest node first (R260). -/
  history : List Snapshot
  /-- The model's own field: how many times free values have been drawn (log 6). -/
  freeCount : Nat
deriving DecidableEq, Repr

/-- The display data of `State.reset`; the host supplies it in a reset transaction. Log 4. -/
def Display.initial : Display where
  verbosity := false
  watchedRegisters := []
  watchedSymbols := []
  watchedAddresses := []

/-- The machine after `reset` of the empty image (R42, R290). Log 3. -/
def State.reset : State where
  regs := Vector.replicate 16 0
  regAltered := Vector.replicate 16 false
  regAccessed := Vector.replicate 16 false
  pc := 0x0000
  rs := .paused
  mem := []
  used := []
  accessed := []
  symbols := []
  display := Display.initial
  history := []
  freeCount := 0

end Sys2Proof.Machine
end

