-- ==== Sys2Proof/Machine/Ops.lean ====
section
/-! DEFINITION. The state access primitives (00_scope.md R11): registers, memory, tracking sets, fetch,
and `raise Error`. -/

namespace Sys2Proof.Machine

/-- What one instruction or one transaction answers. -/
abbrev Result := Host.Outcome State Fault Refusal

/-- The value of a word that memory does not list: 0x0000 (10_state.md R42). -/
def Memory.unlisted : Word := 0

/-- The canonical form from address `lo` up: addresses strictly rising and below 65536, no entry equal
to what an unlisted address reads as. -/
def Memory.wfFrom (lo : Nat) : Memory → Bool
  | [] => true
  | (a, v) :: rest =>
    decide (lo ≤ a) && decide (a < 65536) && (v != Memory.unlisted) && Memory.wfFrom (a + 1) rest

/-- The canonical form of a memory. -/
def Memory.wf (m : Memory) : Bool := Memory.wfFrom 0 m

/-- `M[n]` (20_memory.md R51). -/
def Memory.read : Memory → Nat → Word
  | [], _ => Memory.unlisted
  | (a, v) :: rest, n => if a = n then v else Memory.read rest n

/-- `(n, v)` in front of cells above n, or nothing where v is what an unlisted address reads as. -/
def Memory.put (n : Nat) (v : Word) (m : Memory) : Memory :=
  if v = Memory.unlisted then m else (n, v) :: m

/-- `M[n] <- v`, keeping the canonical form (20_memory.md R52). -/
def Memory.write : Memory → Nat → Word → Memory
  | [], n, v => Memory.put n v []
  | (a, w) :: rest, n, v =>
    if n < a then Memory.put n v ((a, w) :: rest)
    else if n = a then Memory.put n v rest
    else (a, w) :: Memory.write rest n v

/-- The words of an image laid out from address `base` up (70_reset_and_hazards.md R291). -/
def Memory.ofWords (base : Nat) : List Word → Memory
  | [] => []
  | w :: ws => Memory.put base w (Memory.ofWords (base + 1) ws)

/-- The form of an address set from `lo` up: strictly rising, within [0, 65535] (10_state.md R37). -/
def AddrSet.wfFrom (lo : Nat) : AddrSet → Bool
  | [] => true
  | a :: rest => decide (lo ≤ a) && decide (a < 65536) && AddrSet.wfFrom (a + 1) rest

/-- The form of an address set. -/
def AddrSet.wf (t : AddrSet) : Bool := AddrSet.wfFrom 0 t

/-- Adds an address; a present address changes nothing, and the set stays sorted (20_memory.md R53). -/
def AddrSet.insert (n : Nat) : AddrSet → AddrSet
  | [] => [n]
  | a :: rest =>
    if n < a then n :: a :: rest
    else if n = a then a :: rest
    else a :: AddrSet.insert n rest

/-- The set of the given words read as addresses. -/
def AddrSet.ofWords (ws : List Word) : AddrSet := ws.foldr (fun w t => AddrSet.insert w.toNat t) []

/-- `x[i]` as a value: 0 for R0, else the stored word (00_scope.md R11, 10_state.md R22). -/
def State.reg (s : State) (i : Reg) : Word := if i = 0 then 0 else s.regs[i]

/-- The mark that a read of x[i] sets (10_state.md R25, R26). -/
def State.touchReg (s : State) (i : Reg) : State := { s with regAccessed := s.regAccessed.set i true }

/-- `x[i] <- v`: discarded for R0, without a mark; else stored, and `altered[i]` set (R11, R22, R27). -/
def State.setReg (s : State) (i : Reg) (v : Word) : State :=
  if i = 0 then s
  else { s with regs := s.regs.set i v, regAltered := s.regAltered.set i true }

/-- `M[a]` as a value. -/
def State.word (s : State) (a : Word) : Word := s.mem.read a.toNat

/-- The access record of one memory access: a joins `accessed` and `used` (20_memory.md R53). -/
def State.touchMem (s : State) (a : Word) : State :=
  { s with accessed := AddrSet.insert a.toNat s.accessed, used := AddrSet.insert a.toNat s.used }

/-- A write of M[n] that is not an access: the program load and undo (20_memory.md R57). -/
def State.pokeMem (s : State) (n : Nat) (v : Word) : State := { s with mem := s.mem.write n v }

/-- `MemRead(a, 1)`: the word and the state with the access recorded (R11, R51). -/
def State.memRead (s : State) (a : Word) : Word × State := (s.word a, s.touchMem a)

/-- `MemWrite(a, 1, v)` (R11, R52). -/
def State.memWrite (s : State) (a v : Word) : State := (s.pokeMem a.toNat v).touchMem a

/-- `pc <- target` (R11). -/
def State.setPc (s : State) (t : Word) : State := { s with pc := t }

/-- `rs <- r` (R11). -/
def State.setRs (s : State) (r : RunState) : State := { s with rs := r }

/-- `reset_accessed`: empties the memory `accessed` set and nothing else (20_memory.md R54). -/
def State.resetAccessed (s : State) : State := { s with accessed := [] }

/-- `raise Error(reason)`, the one way a fault is taken (40_controller.md R108, 60_exceptions.md R274,
R277): the run-state becomes Error and nothing else is written; the pc is already past the instruction,
no register is saved, no handler exists, and the reason is not stored. There is no return instruction
(R278): Error is left by the transactions reset and undo only. Log 2. -/
def raiseError (_reason : Fault) (s : State) : Result := .next (s.setRs .error)

/-- One fetch: the word at pc, pc moved to the next word, wrapping from 0xFFFF to 0 (R32, R103). -/
def State.fetchWord (s : State) : Word × State :=
  let r := s.memRead s.pc
  (r.1, r.2.setPc (s.pc + 1))

/-- Both fetches of a step: ir, and w2 for op 0xF; w2 is 0 and unused for other words (R100, R103, R104). -/
def State.fetch (s : State) : Word × Word × State :=
  let f := s.fetchWord
  if isTwoWords f.1 then
    let g := f.2.fetchWord
    (f.1, g.1, g.2)
  else (f.1, 0, f.2)

/-- Only Running and Step permit executing an instruction (R34, R101). -/
def RunState.executes : RunState → Bool
  | .running | .step => true
  | .error | .paused | .breakpoint | .halted | .interrupted => false

end Sys2Proof.Machine
end

