-- ==== Sys2Proof/Machine/Operands.lean ====
section
/-! DEFINITION. The values instructions compute from their operands: results with flag words,
quotients, wide operands, addresses, trap codes, and the reasons for which operands fault. -/

namespace Sys2Proof.Machine

open Config (Params)

/-- The two words an RRR instruction leaves: one for Rd, one for R15. -/
structure RdR15 where
  rd : Word
  r15 : Word
deriving DecidableEq, Repr

/-- add and addc: the sum with carry in, with its flag word (41_arithmetic.md R122, R127). -/
def addValue (p : Params) (x y : Word) (cin : Bool) : RdR15 :=
  let sum := x.toNat + y.toNat + cin.toNat
  let r := trunc16 sum
  let ovU := decide (0xFFFF < sum)
  ⟨r, arithFlags p r (overflowsSigned (x.toInt + y.toInt + cin.toNat)) ovU ovU⟩

/-- What sub leaves in C (R123; 00_scope.md R8 `SubCarry`). -/
def subCarryOut (p : Params) (borrow : Bool) : Bool :=
  match p.subCarry with
  | .zero => false
  | .notBorrow => !borrow
  | .borrow => borrow

/-- sub: the difference with its flag word; V is the borrow (R123). -/
def subValue (p : Params) (x y : Word) : RdR15 :=
  let r := trunc16 ((x.toNat : Int) - y.toNat)
  let borrow := decide (x.toNat < y.toNat)
  ⟨r, arithFlags p r (overflowsSigned (x.toInt - y.toInt)) borrow (subCarryOut p borrow)⟩

/-- mul: the low half of the unsigned product; overflow when the high half is nonzero (R124). -/
def mulValue (p : Params) (x y : Word) : RdR15 :=
  let product := x.toNat * y.toNat
  let r := trunc16 product
  let high := decide (product / 65536 ≠ 0)
  match p.mulOverflowBit with
  | .binary => ⟨r, arithFlags p r false high false⟩
  | .twos => ⟨r, arithFlags p r high false false⟩
  | .both => ⟨r, arithFlags p r high high false⟩

/-- The reason for which a zero divisor faults, checked first (60_exceptions.md R272, R276). -/
def zeroDivisorFault (p : Params) (y : Word) : Option Fault :=
  match p.divZero with
  | .error => if y = 0 then some .divideByZero else none

/-- The reason for which div faults on its operands (R125, R272, R276). DESIGN CHOICE, log 17: under the
alternative `unsigned`, which no meaning uses, 0x8000 by 0xFFFF does not overflow and is no fault. -/
def divFault (p : Params) (x y : Word) : Option Fault :=
  match zeroDivisorFault p y, p.divSigned with
  | some r, _ => some r
  | none, .signed => if x = 0x8000 ∧ y = 0xFFFF then some .divideOverflow else none
  | none, .unsigned => none

/-- div: the quotient truncated toward zero for Rd, the remainder for R15 (R125). -/
def divValue (p : Params) (x y : Word) : RdR15 :=
  match p.divSigned with
  | .signed =>
    let q := x.toInt.tdiv y.toInt
    ⟨trunc16 q, trunc16 (x.toInt - q * y.toInt)⟩
  | .unsigned => ⟨trunc16 ((x.toNat / y.toNat : Nat)), trunc16 ((x.toNat % y.toNat : Nat))⟩

/-- The 32-bit operand X of muln and divn, from h = x[15] and x = x[a] (R128, R129). -/
def wideOperand (p : Params) (h x : Word) : BitVec 32 :=
  match p.nWideOperand with
  | .quirk => (h.setWidth 32 <<< 16) ||| (x.setWidth 32 ||| 0xFFFF0000#32)
  | .intended => (h.setWidth 32 <<< 16) ||| x.setWidth 32

/-- muln: the product modulo 2^32, low half for Rd, high half for R15 (R128). -/
def mulnValue (p : Params) (h x y : Word) : RdR15 :=
  let product := wideOperand p h x * y.setWidth 32
  ⟨product.extractLsb' 0 16, product.extractLsb' 16 16⟩

/-- divn: the low half of the unsigned quotient for Rd, the remainder for R15 (R129). -/
def divnValue (p : Params) (h x y : Word) : RdR15 :=
  let wide := (wideOperand p h x).toNat
  ⟨trunc16 ((wide / y.toNat : Nat)), trunc16 ((wide % y.toNat : Nat))⟩

/-- `ea(a, w2)` from the base value and the displacement (42_load_store.md R150). -/
def effectiveAddress (p : Params) (base w2 : Word) : Word :=
  let sum := base.toNat + w2.toNat
  if 65535 < sum then
    match p.eaWrap with
    | .sub65535 => BitVec.ofNat 16 (sum - 65535)
    | .mod65535 => BitVec.ofNat 16 (sum % 65535)
    | .mod65536 => BitVec.ofNat 16 sum
  else BitVec.ofNat 16 sum

/-- `target(a, w2)` from the base value and the target word (43_jumps.md R160). -/
def jumpTarget (p : Params) (base w2 : Word) : Word :=
  let sum := w2.toNat + base.toNat
  match p.jumpWrap with
  | .sub65535 => if 65535 < sum then BitVec.ofNat 16 (sum - 65535) else BitVec.ofNat 16 sum
  | .mod65536 => BitVec.ofNat 16 sum

/-- The register that holds the trap code (44_trap.md R180). -/
def trapCodeReg (p : Params) (d a : Reg) : Reg :=
  match p.trapCodeField with
  | .d => d
  | .a => a

/-- The reason for which a trap code faults: 5..254 (44_trap.md R186, 60_exceptions.md R273). -/
def trapFault (p : Params) (c : Word) : Option Fault :=
  match p.trapMidCodes with
  | .error => if 5 ≤ c.toNat ∧ c.toNat < 255 then some .trapCode else none
  | .noOp => none

/-- The fault of a first word that names no instruction (60_exceptions.md R271). -/
def reservedFault : Reserved → Fault
  | .opcode _ => .reservedOpcode
  | .irx _ => .reservedIRX

/-- The reason for which an instruction faults in a state, if it does: R270's last three rows; no
other instruction faults (60_exceptions.md R270). -/
def instrFault (i : Instr) (s : State) : Option Fault :=
  match i with
  | .div _ a b => divFault Config.params (s.reg a) (s.reg b)
  | .divn _ _ b => zeroDivisorFault Config.params (s.reg b)
  | .trap d a _ => trapFault Config.params (s.reg (trapCodeReg Config.params d a))
  | .add .. | .sub .. | .mul .. | .cmp .. | .addc .. | .muln .. | .lea .. | .load .. | .store ..
  | .jump .. | .jumplt .. | .jumple .. | .jumpeq .. | .jumpne .. | .jumpge .. | .jumpgt .. => none

/-- The reason for which the next step raises Error, if it does: the label of `raise Error(reason)`,
which the machine does not store (00_scope.md R11, 60_exceptions.md R270). -/
def stepFaultReason (s : State) : Option Fault :=
  if s.rs.executes then
    let f := s.resetAccessed.fetch
    match decode f.1 f.2.1 with
    | .ok i => instrFault i f.2.2
    | .error r => some (reservedFault r)
  else none

end Sys2Proof.Machine
end

