-- ==== Sys2Proof/Machine/Arith.lean ====
section
/-! DEFINITION. Arithmetic and compare: add, sub, mul, div, cmp, addc, muln, divn (41_arithmetic.md). -/

namespace Sys2Proof.Machine

/-- The reads of the two source operands: both marks are set whatever the values (10_state.md R26). -/
def State.touchSources (s : State) (a b : Reg) : State := (s.touchReg a).touchReg b

/-- add, sub, addc, mul: the result to Rd first, then the flag word to R15 (R121). -/
def State.writeRdThenR15 (s : State) (d : Reg) (o : RdR15) : Result :=
  .next ((s.setReg d o.rd).setReg 15 o.r15)

/-- div, divn, muln: the data value to R15 first, then Rd (R121). -/
def State.writeR15ThenRd (s : State) (d : Reg) (o : RdR15) : Result :=
  .next ((s.setReg 15 o.r15).setReg d o.rd)

/-- `add Rd,Ra,Rb` (R122). -/
def execAdd (d a b : Reg) (s : State) : Result :=
  (s.touchSources a b).writeRdThenR15 d (addValue Config.params (s.reg a) (s.reg b) false)

/-- `sub Rd,Ra,Rb` (R123). -/
def execSub (d a b : Reg) (s : State) : Result :=
  (s.touchSources a b).writeRdThenR15 d (subValue Config.params (s.reg a) (s.reg b))

/-- `mul Rd,Ra,Rb` (R124). -/
def execMul (d a b : Reg) (s : State) : Result :=
  (s.touchSources a b).writeRdThenR15 d (mulValue Config.params (s.reg a) (s.reg b))

/-- `div Rd,Ra,Rb` (R125); its faults write nothing but the run-state (60_exceptions.md R272). -/
def execDiv (d a b : Reg) (s : State) : Result :=
  match divFault Config.params (s.reg a) (s.reg b) with
  | some reason => raiseError reason (s.touchSources a b)
  | none =>
    (s.touchSources a b).writeR15ThenRd d (divValue Config.params (s.reg a) (s.reg b))

/-- `cmp Ra,Rb` (R126). -/
def execCmp (a b : Reg) (s : State) : Result :=
  .next ((s.touchSources a b).setReg 15 (cmpFlags Config.params (s.reg a) (s.reg b)))

/-- `addc Rd,Ra,Rb`: the carry in is bit 7 of x[15], an implicit read (R127, 10_state.md R26). -/
def execAddc (d a b : Reg) (s : State) : Result :=
  ((s.touchSources a b).touchReg 15).writeRdThenR15 d
    (addValue Config.params (s.reg a) (s.reg b) (carryOf (s.reg 15)))

/-- `muln Rd,Ra,Rb`: x[15] is read under both operand constructions (R128, 10_state.md R26). -/
def execMuln (d a b : Reg) (s : State) : Result :=
  ((s.touchSources a b).touchReg 15).writeR15ThenRd d
    (mulnValue Config.params (s.reg 15) (s.reg a) (s.reg b))

/-- `divn Rd,Ra,Rb` (R129); a zero divisor faults after the operands are read (60_exceptions.md R272). -/
def execDivn (d a b : Reg) (s : State) : Result :=
  match zeroDivisorFault Config.params (s.reg b) with
  | some reason => raiseError reason ((s.touchSources a b).touchReg 15)
  | none =>
    ((s.touchSources a b).touchReg 15).writeR15ThenRd d
      (divnValue Config.params (s.reg 15) (s.reg a) (s.reg b))

end Sys2Proof.Machine
end

