-- ==== Sys2Proof/Machine/Jumps.lean ====
section
/-! DEFINITION. The seven jumps (43_jumps.md). -/

namespace Sys2Proof.Machine

/-- The jump's target in a state (R160). -/
def State.target (s : State) (a : Reg) (w2 : Word) : Word := jumpTarget Config.params (s.reg a) w2

/-- Writes pc with the target when the jump is taken. The base register is an operand, read whether
or not the jump is taken (10_state.md R26, log 15). -/
def State.jumpWhen (s : State) (taken : Bool) (a : Reg) (w2 : Word) : Result :=
  .next (if taken then (s.touchReg a).setPc (s.target a w2) else s.touchReg a)

/-- A conditional jump: x[15] is read as the flag word F and tested (R162, 10_state.md R26). -/
def State.jumpOn (s : State) (taken : Word → Bool) (a : Reg) (w2 : Word) : Result :=
  (s.touchReg 15).jumpWhen (taken (s.reg 15)) a w2

/-- `jump target[Rn]`: always taken; R15 is not read (R161). -/
def execJump (a : Reg) (w2 : Word) (s : State) : Result := s.jumpWhen true a w2

/-- `jumplt target[Rn]`: L (R163). -/
def execJumplt (a : Reg) (w2 : Word) (s : State) : Result := s.jumpOn (anySet 0x0008) a w2

/-- `jumple target[Rn]`: L or eq (R164). -/
def execJumple (a : Reg) (w2 : Word) (s : State) : Result := s.jumpOn (anySet 0x000C) a w2

/-- `jumpeq target[Rn]`: eq (R165). -/
def execJumpeq (a : Reg) (w2 : Word) (s : State) : Result := s.jumpOn (anySet 0x0004) a w2

/-- `jumpne target[Rn]`: not eq (R166). -/
def execJumpne (a : Reg) (w2 : Word) (s : State) : Result :=
  s.jumpOn (fun f => !anySet 0x0004 f) a w2

/-- `jumpge target[Rn]`: g or eq (R167). -/
def execJumpge (a : Reg) (w2 : Word) (s : State) : Result := s.jumpOn (anySet 0x0005) a w2

/-- `jumpgt target[Rn]`: g (R168). -/
def execJumpgt (a : Reg) (w2 : Word) (s : State) : Result := s.jumpOn (anySet 0x0001) a w2

end Sys2Proof.Machine
end

