-- ==== Sys2Proof/Machine/LoadStore.lean ====
section
/-! DEFINITION. lea, load and store (42_load_store.md). -/

namespace Sys2Proof.Machine

/-- The effective address of an instruction in a state (R150). -/
def State.ea (s : State) (a : Reg) (w2 : Word) : Word := effectiveAddress Config.params (s.reg a) w2

/-- `lea Rd,disp[Ra]`: the address itself, no memory access (R151). -/
def execLea (d a : Reg) (w2 : Word) (s : State) : Result :=
  .next ((s.touchReg a).setReg d (s.ea a w2))

/-- `load Rd,disp[Ra]`: the read is made and recorded even for d = 0 (R152). -/
def execLoad (d a : Reg) (w2 : Word) (s : State) : Result :=
  let r := (s.touchReg a).memRead (s.ea a w2)
  .next (r.2.setReg d r.1)

/-- `store Rd,disp[Ra]`: x[d] is the data (R153). -/
def execStore (d a : Reg) (w2 : Word) (s : State) : Result :=
  .next (((s.touchReg a).touchReg d).memWrite (s.ea a w2) (s.reg d))

end Sys2Proof.Machine
end

