-- ==== Sys2Proof/Machine/Trap.lean ====
section
/-! DEFINITION. trap: halt, breakpoint, stubs and the trap-code fault (44_trap.md). -/

namespace Sys2Proof.Machine

/-- `trap Rd,Ra,Rb`: the code is the value of one register and the other two fields are ignored, so
they are not read (R180, R181, R80, log 15). Code 0 halts (R182), 4 is the breakpoint (R183),
5..254 fault (R186), and 1, 2, 3 and 255 and above have no effect (R184, R185). -/
def execTrap (d a _b : Reg) (s : State) : Result :=
  let r := trapCodeReg Config.params d a
  let c := s.reg r
  let s := s.touchReg r
  if c = 0 then .next (s.setRs .halted)
  else if c = 4 then .next (s.setRs .breakpoint)
  else
    match trapFault Config.params c with
    | some reason => raiseError reason s
    | none => .next s

end Sys2Proof.Machine
end

