-- ==== Sys2Proof/Machine/Dispatch.lean ====
section
/-! DEFINITION. The dispatch table (40_controller.md R105): one arm per instruction. The state given is
the one after the fetch: pc past the instruction, the fetch recorded (R103, R104). -/

namespace Sys2Proof.Machine

def exec (i : Instr) (s : State) : Host.Outcome State Fault Refusal :=
  match i with
  | .add d a b => Sys2Proof.Machine.execAdd d a b s
  | .sub d a b => Sys2Proof.Machine.execSub d a b s
  | .mul d a b => Sys2Proof.Machine.execMul d a b s
  | .div d a b => Sys2Proof.Machine.execDiv d a b s
  | .cmp a b => Sys2Proof.Machine.execCmp a b s
  | .addc d a b => Sys2Proof.Machine.execAddc d a b s
  | .muln d a b => Sys2Proof.Machine.execMuln d a b s
  | .divn d a b => Sys2Proof.Machine.execDivn d a b s
  | .trap d a b => Sys2Proof.Machine.execTrap d a b s
  | .lea d a w2 => Sys2Proof.Machine.execLea d a w2 s
  | .load d a w2 => Sys2Proof.Machine.execLoad d a w2 s
  | .store d a w2 => Sys2Proof.Machine.execStore d a w2 s
  | .jump a w2 => Sys2Proof.Machine.execJump a w2 s
  | .jumplt a w2 => Sys2Proof.Machine.execJumplt a w2 s
  | .jumple a w2 => Sys2Proof.Machine.execJumple a w2 s
  | .jumpeq a w2 => Sys2Proof.Machine.execJumpeq a w2 s
  | .jumpne a w2 => Sys2Proof.Machine.execJumpne a w2 s
  | .jumpge a w2 => Sys2Proof.Machine.execJumpge a w2 s
  | .jumpgt a w2 => Sys2Proof.Machine.execJumpgt a w2 s

end Sys2Proof.Machine
end

