-- ==== Sys2Proof/Machine/Step.lean ====
section
/-! DEFINITION. The step transaction (40_controller.md R100 to R105) and the host's way to place the
next instruction. -/

namespace Sys2Proof.Machine

/-- `step()`: nothing at all unless the run-state is Running or Step (R101); else `accessed` is emptied
(R102), one or two words are fetched (R103, R104), and the decoded instruction executes (R105), a
reserved encoding raising Error after its fetches (60_exceptions.md R271). -/
def step (s : State) : Host.Outcome State Fault Refusal :=
  if s.rs.executes then
    let f := s.resetAccessed.fetch
    match decode f.1 f.2.1 with
    | .ok i => exec i f.2.2
    | .error r => raiseError (reservedFault r) f.2.2
  else .next s

/-- `s` with an instruction stored at pc (and after it, for op 0xF) and the run-state Running unless it
already permits executing, so that the next step fetches and runs it. It stands for the program load
and the host's run-state write of 70_reset_and_hazards.md R291, R293. Log 3. -/
def State.withFetchWord (s : State) (nbits w : Nat) : State :=
  let ir := tableFirstWord nbits w
  let s1 := s.pokeMem s.pc.toNat ir
  let s2 := if isTwoWords ir then s1.pokeMem (s.pc + 1).toNat (tableSecondWord nbits w) else s1
  if s.rs.executes then s2 else s2.setRs .running

end Sys2Proof.Machine
end

