-- ==== Sys2Proof/Machine/AsmTypes.lean ====
section
/-! DEFINITION. The assembler's data: tokens, validator states, errors, working state and image
(45_assembler.md R200 to R203, R232). -/

namespace Sys2Proof.Asm

/-- The three instruction families (R200). -/
inductive Family where
  | rrr
  | rr
  | irx
deriving DecidableEq, Repr

/-- The closed set of token kinds (R200). An opening token carries the instruction's partial encoding;
an argument, data or jump token carries its raw text. -/
inductive Token where
  | ignore
  | label (name : Text)
  | opening (f : Family) (partialWord : Word)
  | arg (f : Family) (text : Text)
  | data (text : Text)
  | jump (text : Text)
  | newline
deriving DecidableEq, Repr

/-- One item of the lexer's sequence: a token, or an unrecognized span (R200). -/
inductive Lexeme where
  | token (t : Token)
  | unknown
deriving DecidableEq, Repr

/-- An item with its byte span, `start` included and `stop` excluded (R200). -/
structure Item where
  lexeme : Lexeme
  start : Nat
  stop : Nat
deriving DecidableEq, Repr

/-- The validator's state, the kind of the last token (R203). -/
inductive LastKind where
  /-- Start of text, or the last token was a newline. -/
  | nl
  /-- The last token was a label; `afterNl` when that label followed `nl`. -/
  | lbl (afterNl : Bool)
  /-- The last token opened an instruction of this family. -/
  | ins (f : Family)
  /-- The last token completed a line item. -/
  | done
deriving DecidableEq, Repr

/-- The error taxonomy (R232). -/
inductive ErrorKind where
  | misplacedLabel
  | instructionArgumentMismatch
  | instructionNotOnNewLine
  | unresolvedLabel
  | malformedJump
  | unknownToken
  | missingHalt
deriving DecidableEq, Repr

/-- A structured error: its kind and its 1-based source line (R232). Its two texts are free values. -/
structure Error where
  kind : ErrorKind
  line : Nat
deriving DecidableEq, Repr

/-- The value of a data, displacement or target operand: a literal, or a label to be resolved (R221). -/
inductive Value where
  | literal (w : Word)
  | label (name : Text)
deriving DecidableEq, Repr

/-- The assembler's working state (R201). -/
structure AsmState where
  /-- The output word buffer. -/
  buffer : List Word
  /-- The next word address. -/
  cursor : Nat
  /-- The current 1-based line. -/
  line : Nat
  /-- The ordering validator's state (R203). -/
  last : LastKind
  /-- The partial encoding held from the last opening token (R209). -/
  held : Word
  /-- label to (address, defining line) (R240). -/
  labels : List (Text × Nat × Nat)
  /-- label to the addresses to patch, in the order of the references (R221). -/
  patches : List (Text × List Nat)
  /-- Registers referenced by encoded operands (R215). -/
  referenced : List Reg
  /-- The address of the first halt instruction (R210). -/
  haltIndex : Option Nat
  /-- The errors, oldest first. -/
  errors : List Error
  /-- word address to line (R217). -/
  lineMap : List (Nat × Nat)
deriving DecidableEq, Repr

/-- The initial working state (R201). -/
def AsmState.initial : AsmState where
  buffer := []
  cursor := 0
  line := 1
  last := .nl
  held := 0
  labels := []
  patches := []
  referenced := []
  haltIndex := none
  errors := []
  lineMap := []

/-- The assembled image (R202), with the referenced-register list for display (R245). -/
structure Image where
  words : List Word
  symbols : List (Text × Nat)
  lineMap : List (Nat × Nat)
  errors : List Error
  registers : List Reg
deriving DecidableEq, Repr

end Sys2Proof.Asm

namespace Sys2Proof.Config

/-- FREE VALUE: the human-readable message of an error (45_assembler.md R232: any text). Log 8. -/
opaque errorMessage : Asm.Error → Text

/-- FREE VALUE: the suggested resolution of an error (R232: any text). Log 8. -/
opaque errorResolution : Asm.Error → Text

end Sys2Proof.Config
end

