-- ==== Sys2Proof/Machine/AsmText.lean ====
section
/-! DEFINITION. The lexical classes of the source text and the operand texts of tokens (30_encoding.md
R86 to R90, 45_assembler.md R209 to R214, R230, R231). -/

namespace Sys2Proof.Asm

/-- A space or a tab (R90). -/
def isBlank (c : Char) : Bool := c == ' ' || c == '\t'

/-- A letter or `_` (R90, D41). -/
def isIdentStart (c : Char) : Bool := c.isAlpha || c == '_'

/-- A letter, a digit or `_` (R90, D41). -/
def isIdentChar (c : Char) : Bool := c.isAlphanum || c == '_'

/-- The instruction mnemonics with their families and partial encodings, `op << 12` or `0xF000 OR sel`
(R72 to R78, R200). -/
def mnemonics : List (Text × Family × Word) :=
  [("add".toList, .rrr, 0x0000), ("sub".toList, .rrr, 0x1000), ("mul".toList, .rrr, 0x2000),
   ("div".toList, .rrr, 0x3000), ("cmp".toList, .rr, 0x4000), ("addc".toList, .rrr, 0x5000),
   ("muln".toList, .rrr, 0x6000), ("divn".toList, .rrr, 0x7000), ("trap".toList, .rrr, 0xC000),
   ("lea".toList, .irx, 0xF000), ("load".toList, .irx, 0xF001), ("store".toList, .irx, 0xF002)]

/-- The jump mnemonics with their first words, base register 0 (R75, R78, R87). -/
def jumpMnemonics : List (Text × Word) :=
  [("jump".toList, 0xF003), ("jumplt".toList, 0xF004), ("jumple".toList, 0xF005),
   ("jumpeq".toList, 0xF006), ("jumpne".toList, 0xF007), ("jumpge".toList, 0xF008),
   ("jumpgt".toList, 0xF009)]

/-- The keyword of the data directive (R88). -/
def dataWord : Text := "data".toList

/-- A word that no identifier may be: a mnemonic, a jump mnemonic or `data` (R90). -/
def isKeyword (t : Text) : Bool :=
  (mnemonics.lookup t).isSome || (jumpMnemonics.lookup t).isSome || t == dataWord

/-- An identifier (R90). -/
def isIdentifier : Text → Bool
  | [] => false
  | c :: cs => isIdentStart c && cs.all isIdentChar && !isKeyword (c :: cs)

/-- The value of a sequence of decimal digits, most significant first. -/
def decimalValue (t : Text) : Nat := t.foldl (fun n c => 10 * n + (c.toNat - '0'.toNat)) 0

/-- One or more digits 0-9 (R90). -/
def isDecimal (t : Text) : Bool := !t.isEmpty && t.all Char.isDigit

/-- The value of a hex digit, lower or upper case (R90). -/
def hexDigit (c : Char) : Option Nat :=
  if c.isDigit then some (c.toNat - '0'.toNat)
  else if decide ('a' ≤ c) && decide (c ≤ 'f') then some (c.toNat - 'a'.toNat + 10)
  else if decide ('A' ≤ c) && decide (c ≤ 'F') then some (c.toNat - 'A'.toNat + 10)
  else none

/-- `$` followed by exactly four hex digits (R90). -/
def parseHex : Text → Option Word
  | ['$', a, b, c, d] =>
    match hexDigit a, hexDigit b, hexDigit c, hexDigit d with
    | some a, some b, some c, some d => some (BitVec.ofNat 16 (((a * 16 + b) * 16 + c) * 16 + d))
    | _, _, _, _ => none
  | _ => none

/-- A decimal literal 0..65535 (R90, R230). -/
def parseDecimal (t : Text) : Option Word :=
  if isDecimal t && WellFormed.literal (decimalValue t) then some (BitVec.ofNat 16 (decimalValue t))
  else none

/-- A data value or a displacement: decimal, `$hhhh` or a label (R84, R88, R154). -/
def parseValue (t : Text) : Option Value :=
  match parseDecimal t, parseHex t with
  | some w, _ => some (.literal w)
  | none, some w => some (.literal w)
  | none, none => if isIdentifier t then some (.label t) else none

/-- A jump target: `$hhhh` or a label, no decimal (R87, R231). -/
def parseTarget (t : Text) : Option Value :=
  match parseHex t with
  | some w => some (.literal w)
  | none => if isIdentifier t then some (.label t) else none

/-- The index in the text of a register, `R` and a decimal index, whatever its size (R90, log 13). -/
def regIndexOf : Text → Option Nat
  | 'R' :: ds => if isDecimal ds then some (decimalValue ds) else none
  | _ => none

/-- A register R0..R15 (R90, R230). -/
def parseReg (t : Text) : Option Reg :=
  match regIndexOf t with
  | some n => if WellFormed.regIndex n then some (Fin.ofNat 16 n) else none
  | none => none

/-- The text before and after the first occurrence of a character. -/
def cut (sep : Char) : Text → Option (Text × Text)
  | [] => none
  | c :: cs =>
    if c = sep then some ([], cs)
    else
      match cut sep cs with
      | some (before, after) => some (c :: before, after)
      | none => none

/-- The operand texts of `Rd,Ra,Rb`. -/
def splitRRR (t : Text) : Option (Text × Text × Text) :=
  match cut ',' t with
  | some (d, rest) =>
    match cut ',' rest with
    | some (a, b) => some (d, a, b)
    | none => none
  | none => none

/-- The operand texts of `target[Rn]` or of `disp[Ra]`: what stands before and within the brackets. -/
def splitBracket (t : Text) : Option (Text × Text) :=
  match cut '[' t with
  | some (before, rest) =>
    match cut ']' rest with
    | some (inside, []) => some (before, inside)
    | _ => none
  | none => none

/-- The operand texts of `Rd,disp[Ra]`. -/
def splitIRX (t : Text) : Option (Text × Text × Text) :=
  match cut ',' t with
  | some (d, rest) =>
    match splitBracket rest with
    | some (disp, a) => some (d, disp, a)
    | none => none
  | none => none

/-- The operands of an RRRArg token (R210, R91). -/
def parseRRR (t : Text) : Option (Reg × Reg × Reg) :=
  match splitRRR t with
  | some (d, a, b) =>
    match parseReg d, parseReg a, parseReg b with
    | some d, some a, some b => some (d, a, b)
    | _, _, _ => none
  | none => none

/-- The operands of an RRArg token (R211). -/
def parseRR (t : Text) : Option (Reg × Reg) :=
  match cut ',' t with
  | some (a, b) =>
    match parseReg a, parseReg b with
    | some a, some b => some (a, b)
    | _, _ => none
  | none => none

/-- The operands of an IRXArg token: d, the displacement, a (R212). -/
def parseIRX (t : Text) : Option (Reg × Value × Reg) :=
  match splitIRX t with
  | some (d, disp, a) =>
    match parseReg d, parseValue disp, parseReg a with
    | some d, some v, some a => some (d, v, a)
    | _, _, _ => none
  | none => none

/-- The target and the bracket register, if there is one, of a jump's operand text (R213). -/
def parseJumpOperand (t : Text) : Option (Value × Option Reg) :=
  match splitBracket t with
  | some (target, n) =>
    match parseTarget target, parseReg n with
    | some v, some n => some (v, some n)
    | _, _ => none
  | none =>
    match parseTarget t with
    | some v => some (v, none)
    | none => none

/-- The words of a directive's text: maximal runs without blanks. `word` holds the run so far, reversed. -/
def wordsFrom (word : Text) : Text → List Text
  | [] => if word.isEmpty then [] else [word.reverse]
  | c :: cs =>
    if isBlank c then
      if word.isEmpty then wordsFrom [] cs else word.reverse :: wordsFrom [] cs
    else wordsFrom (c :: word) cs

/-- The first word, the target and the bracket register of a Jump token's text (R213). -/
def parseJump (t : Text) : Option (Word × Value × Option Reg) :=
  match wordsFrom [] t with
  | [mn, operand] =>
    match jumpMnemonics.lookup mn, parseJumpOperand operand with
    | some w, some (v, n) => some (w, v, n)
    | _, _ => none
  | _ => none

/-- The name and the value of a Data token's text, `name data value` (R88, R214). -/
def parseData (t : Text) : Option (Text × Value) :=
  match wordsFrom [] t with
  | [name, kw, value] =>
    if isIdentifier name && kw == dataWord then
      match parseValue value with
      | some v => some (name, v)
      | none => none
    else none
  | _ => none

end Sys2Proof.Asm
end

