-- ==== Sys2Proof/Machine/Lexer.lean ====
section
/-! DEFINITION. The lexer: source text to the sequence of tokens and unknown spans (30_encoding.md R86 to
R90, 45_assembler.md R200). The spec gives the token interface and the lexical grammar, not the lexer's
internals (00_scope.md R5): the choices are log 10, 11, 12 and 13. -/

namespace Sys2Proof.Asm

/-- The text begins with a newline, or with a carriage return that stands before one (R90). -/
def atLineEnd : Text → Bool
  | '\n' :: _ => true
  | '\r' :: '\n' :: _ => true
  | _ => false

/-- The text begins with what ends a word: a blank, a line end, a comment, or nothing follows. Log 10. -/
def atWordEnd : Text → Bool
  | [] => true
  | c :: cs => isBlank c || c == ';' || atLineEnd (c :: cs)

/-- The word at the head of the text and what follows it. -/
def takeWord : Text → Text × Text
  | [] => ([], [])
  | c :: cs =>
    if atWordEnd (c :: cs) then ([], c :: cs)
    else
      let r := takeWord cs
      (c :: r.1, r.2)

/-- The blanks at the head of the text, with a carriage return before a newline (R90), and what follows. -/
def takeBlanks : Text → Text × Text
  | [] => ([], [])
  | c :: cs =>
    if isBlank c || (c == '\r' && atLineEnd (c :: cs)) then
      let r := takeBlanks cs
      (c :: r.1, r.2)
    else ([], c :: cs)

/-- The text up to the end of the line, and the rest from the newline on (R90: comment). -/
def takeLine : Text → Text × Text
  | [] => ([], [])
  | c :: cs =>
    if c == '\n' then ([], c :: cs)
    else
      let r := takeLine cs
      (c :: r.1, r.2)

/-- Nothing but blanks and a comment stands before the end of the line. -/
def restOfLineBlank (t : Text) : Bool :=
  match (takeBlanks t).2 with
  | [] => true
  | c :: _ => c == '\n' || c == ';'

/-- The text up to the end of its line, without a comment or the blanks before either, and what follows. -/
def takeStatement : Text → Text × Text
  | [] => ([], [])
  | c :: cs =>
    if restOfLineBlank (c :: cs) then ([], c :: cs)
    else
      let r := takeStatement cs
      (c :: r.1, r.2)

/-- The shape of a displacement text: letters, digits, `_` and `$`. Its value is checked by the encoder. -/
def isOperandShape (t : Text) : Bool := !t.isEmpty && t.all fun c => isIdentChar c || c == '$'

/-- The text has the shape of a register (R90). -/
def isRegShape (t : Text) : Bool := (regIndexOf t).isSome

/-- The family whose operand syntax the text has: three registers, two, or a register and a
displacement in brackets (R86). Log 12. -/
def argFamily (t : Text) : Option Family :=
  match splitRRR t, splitIRX t, cut ',' t with
  | some (d, a, b), _, _ =>
    if isRegShape d && isRegShape a && isRegShape b then some .rrr else none
  | none, some (d, disp, a), _ =>
    if isRegShape d && isOperandShape disp && isRegShape a then some .irx else none
  | none, none, some (a, b) => if isRegShape a && isRegShape b then some .rr else none
  | none, none, none => none

/-- The token that begins with the word `w`, the text it consumes, and the text after it: the whole line of
a jump or of a data directive (R200), a mnemonic followed by its operand syntax (R86), an operand text, or
a label that ends its line; else the word is an unknown span. Log 10, 11. -/
def lexWord (w rest : Text) : Lexeme × Text × Text :=
  let next := (takeWord (takeBlanks rest).2).1
  let line := takeStatement rest
  if (jumpMnemonics.lookup w).isSome then (.token (.jump (w ++ line.1)), w ++ line.1, line.2)
  else if isIdentifier w && next == dataWord then (.token (.data (w ++ line.1)), w ++ line.1, line.2)
  else
    match mnemonics.lookup w, argFamily w with
    | some (f, p), _ =>
      if argFamily next == some f then (.token (.opening f p), w, rest) else (.unknown, w, rest)
    | none, some f => (.token (.arg f w), w, rest)
    | none, none =>
      if isIdentifier w && restOfLineBlank rest then (.token (.label w), w, rest)
      else (.unknown, w, rest)

/-- The item at the head of a nonempty text, the text it consumes, and the text after it. -/
def lexOne (c : Char) (cs : Text) : Lexeme × Text × Text :=
  if c == '\n' then (.token .newline, [c], cs)
  else if c == ';' then
    let r := takeLine (c :: cs)
    (.token .ignore, r.1, r.2)
  else if atWordEnd (c :: cs) then
    let r := takeBlanks (c :: cs)
    (.token .ignore, r.1, r.2)
  else
    let r := takeWord (c :: cs)
    lexWord r.1 r.2

/-- The length of a text in bytes of UTF-8 (R86, R200). -/
def byteLength (t : Text) : Nat := t.foldl (fun n c => n + c.utf8Size) 0

/-- The items of a text that stands at byte offset `start`; `fuel` bounds their number. -/
def lexFrom : Nat → Nat → Text → List Item
  | 0, _, _ => []
  | _ + 1, _, [] => []
  | fuel + 1, start, c :: cs =>
    let r := lexOne c cs
    let stop := start + byteLength r.2.1
    ⟨r.1, start, stop⟩ :: lexFrom fuel stop r.2.2

/-- The token sequence of a source text (R200): finite, in text order. Every item consumes a character,
so the text's length is fuel enough. -/
def lex (t : Text) : List Item := lexFrom t.length 0 t

end Sys2Proof.Asm
end

