-- ==== Sys2Proof/Machine/Assembler.lean ====
section
/-! DEFINITION. The token-order validator, the word encoder, the symbol resolver and `assemble`
(45_assembler.md). -/

namespace Sys2Proof.Asm

/-! ### Validator (R203 to R206) -/

/-- The last token opened an instruction and its arguments have not come. -/
def LastKind.isIns : LastKind → Bool
  | .ins _ => true
  | .nl | .lbl _ | .done => false

/-- An instruction, data or jump may stand here: after a newline, or after a label that followed one. -/
def LastKind.startsLine : LastKind → Bool
  | .nl | .lbl true => true
  | .lbl false | .ins _ | .done => false

/-- The error of the check, if it fails. -/
def errorWhen (failed : Bool) (k : ErrorKind) : List ErrorKind := if failed then [k] else []

/-- The errors of a token after `last`, in the order of R204's rows. -/
def orderErrors (last : LastKind) : Token → List ErrorKind
  | .ignore => []
  | .newline => errorWhen last.isIns .instructionArgumentMismatch
  | .label _ =>
    errorWhen last.isIns .instructionArgumentMismatch ++ errorWhen (last != .nl) .misplacedLabel
  | .opening _ _ | .data _ | .jump _ =>
    errorWhen last.isIns .instructionArgumentMismatch
      ++ errorWhen (!last.startsLine) .instructionNotOnNewLine
  | .arg f _ => errorWhen (last != .ins f) .instructionArgumentMismatch

/-- The validator's next state (R204). -/
def nextKind (last : LastKind) : Token → LastKind
  | .ignore => last
  | .newline => .nl
  | .label _ => .lbl (last == .nl)
  | .opening f _ => .ins f
  | .data _ | .jump _ | .arg _ _ => .done

/-- Appends errors with the current line (R204, R216). -/
def AsmState.report (s : AsmState) (ks : List ErrorKind) : AsmState :=
  { s with errors := s.errors ++ ks.map fun k => ⟨k, s.line⟩ }

/-! ### Encoder (R207 to R217) -/

/-- Replaces the value of a key, or adds the key at the end. -/
def assign {α : Type} (k : Text) (v : α) : List (Text × α) → List (Text × α)
  | [] => [(k, v)]
  | (k', v') :: rest => if k' = k then (k, v) :: rest else (k', v') :: assign k v rest

/-- Defines a label at the cursor; a later definition replaces an earlier one (R207, R208). -/
def AsmState.define (s : AsmState) (name : Text) : AsmState :=
  { s with labels := assign name (s.cursor, s.line) s.labels }

/-- Emits one word at the cursor and maps its address to the current line (R216, R217). -/
def AsmState.emit (s : AsmState) (w : Word) : AsmState :=
  { s with
    buffer := s.buffer ++ [w]
    cursor := s.cursor + 1
    lineMap := s.lineMap ++ [(s.cursor, s.line)] }

/-- Records a patch request for the address at the cursor (R221). -/
def AsmState.requestPatch (s : AsmState) (name : Text) : AsmState :=
  { s with
    patches := assign name (((s.patches.lookup name).getD []) ++ [s.cursor]) s.patches }

/-- Emits the word of a value: a literal, or the placeholder 0 with a patch request (R212 to R214, R221). -/
def AsmState.emitValue (s : AsmState) : Value → AsmState
  | .literal w => s.emit w
  | .label name => (s.requestPatch name).emit 0

/-- Adds the registers of an encoded operand (R215). -/
def AsmState.refer (s : AsmState) (rs : List Reg) : AsmState := { s with referenced := s.referenced ++ rs }

/-- The encoded halt, `trap R0,R0,R0` (00_scope.md R7). -/
def haltWord : Word := 0xC000

/-- Notes the first halt instruction, whose word is about to stand at the cursor (R210). -/
def AsmState.noteHalt (s : AsmState) (w : Word) : AsmState :=
  if w = haltWord ∧ s.haltIndex = none then { s with haltIndex := some s.cursor } else s

/-- The registers d and a of a first word, in their nibbles (R72, R74). -/
def placeDA (d a : Reg) : Word :=
  (BitVec.ofNat 16 d.val <<< 8) ||| (BitVec.ofNat 16 a.val <<< 4)

/-- The word `p OR (d << 8) OR (a << 4) OR b` (R210). -/
def rrrWord (p : Word) (d a b : Reg) : Word := p ||| placeDA d a ||| BitVec.ofNat 16 b.val

/-- An RRR argument (R210). -/
def AsmState.encodeRRR (s : AsmState) (t : Text) : AsmState :=
  match parseRRR t with
  | some (d, a, b) =>
    let w := rrrWord s.held d a b
    ((s.noteHalt w).emit w).refer [d, a, b]
  | none => s.report [.unknownToken]

/-- An RR argument: d is 0 (R211). -/
def AsmState.encodeRR (s : AsmState) (t : Text) : AsmState :=
  match parseRR t with
  | some (a, b) => (s.emit (rrrWord s.held 0 a b)).refer [a, b]
  | none => s.report [.unknownToken]

/-- An IRX argument: two words (R212). -/
def AsmState.encodeIRX (s : AsmState) (t : Text) : AsmState :=
  match parseIRX t with
  | some (d, v, a) => ((s.emit (s.held ||| placeDA d a)).emitValue v).refer [d, a]
  | none => s.report [.unknownToken]

/-- The operand text of an argument of family `f` has registers 0 to 15 and a well-formed literal (R230). -/
def argParses (f : Family) (t : Text) : Bool :=
  match f with
  | .rrr => (parseRRR t).isSome
  | .rr => (parseRR t).isSome
  | .irx => (parseIRX t).isSome

/-- The argument token of the instruction that is open (R210 to R212). -/
def AsmState.encodeOpenArg (s : AsmState) (f : Family) (t : Text) : AsmState :=
  match f with
  | .rrr => s.encodeRRR t
  | .rr => s.encodeRR t
  | .irx => s.encodeIRX t

/-- An argument token emits only after its matching opening token (R209, D51); a bad operand is an
UnknownToken wherever the token stands (R230). Log 18. -/
def AsmState.encodeArg (s : AsmState) (f : Family) (t : Text) : AsmState :=
  if s.last = .ins f then s.encodeOpenArg f t
  else s.report (errorWhen (!argParses f t) .unknownToken)

/-- A jump: two words (R213); a malformed one emits nothing (R231). -/
def AsmState.encodeJump (s : AsmState) (t : Text) : AsmState :=
  match parseJump t with
  | some (w, v, n) => ((s.emit (w ||| placeDA 0 (n.getD 0))).emitValue v).refer n.toList
  | none => s.report [.malformedJump]

/-- A data directive: defines its name and emits one word (R214); a malformed one does neither (R230). -/
def AsmState.encodeData (s : AsmState) (t : Text) : AsmState :=
  match parseData t with
  | some (name, v) => (s.define name).emitValue v
  | none => s.report [.unknownToken]

/-- What the encoder does for a token (R206 to R214, R216). -/
def AsmState.encodeToken (s : AsmState) : Token → AsmState
  | .ignore => s
  | .newline => { s with line := s.line + 1 }
  | .label name => s.define name
  | .opening _ p => { s with held := p }
  | .arg f t => s.encodeArg f t
  | .data t => s.encodeData t
  | .jump t => s.encodeJump t

/-- One token of pass 1: its ordering is validated, then it is encoded, then the validator moves on (R202). -/
def AsmState.pass1Token (s : AsmState) (t : Token) : AsmState :=
  let e := (s.report (orderErrors s.last t)).encodeToken t
  { e with last := nextKind s.last t }

/-- One item of pass 1; an unknown span is reported and leaves the validator unchanged (R200, R204, D48). -/
def AsmState.pass1 (s : AsmState) : Lexeme → AsmState
  | .token t => s.pass1Token t
  | .unknown => s.report [.unknownToken]

/-! ### Symbol resolver (R205, R221, R240 to R246) -/

/-- An instruction without its arguments at the end of the text (R205). -/
def AsmState.endOfText (s : AsmState) : AsmState :=
  s.report (errorWhen s.last.isIns .instructionArgumentMismatch)

/-- A label's address as a word. An address of 65536 or more has none, and its word is a free value. Log 9. -/
def labelWord (n : Nat) : Word :=
  if n < 65536 then BitVec.ofNat 16 n else Config.freeLabelWord n

/-- Writes one word at each recorded address (R241). -/
def patchAll (w : Word) (at_ : List Nat) (buffer : List Word) : List Word :=
  at_.foldl (fun b p => b.set p w) buffer

/-- Backpatch of one defined label: its requests are served and removed from the pending ones (R241). -/
def AsmState.resolve (s : AsmState) (name : Text) (addr : Nat) : AsmState :=
  match s.patches.lookup name with
  | some ps =>
    { s with
      buffer := patchAll (labelWord addr) ps s.buffer
      patches := s.patches.filter fun e => e.1 != name }
  | none => s

/-- Backpatch of every defined label (R241). A label without requests is no error (R242). -/
def AsmState.backpatch (s : AsmState) : AsmState :=
  s.labels.foldl (fun s e => s.resolve e.1 e.2.1) s

/-- The lowest of the recorded addresses. -/
def lowest : List Nat → Nat
  | [] => 0
  | [p] => p
  | p :: ps => min p (lowest ps)

/-- Inserts a number into a rising list. -/
def insertRising (n : Nat) : List Nat → List Nat
  | [] => [n]
  | m :: rest => if n ≤ m then n :: m :: rest else m :: insertRising n rest

/-- The lowest patch address of each label still pending, in ascending order (R244). -/
def AsmState.pendingAddresses (s : AsmState) : List Nat :=
  (s.patches.map fun e => lowest e.2).foldr insertRising []

/-- The line an emitted word came from (R217). Every patch address is an emitted word's. -/
def AsmState.lineOf (s : AsmState) (addr : Nat) : Nat := (s.lineMap.lookup addr).getD 0

/-- One UnresolvedLabel for each label referenced and never defined (R244). -/
def AsmState.reportUnresolved (s : AsmState) : AsmState :=
  { s with errors := s.errors ++ s.pendingAddresses.map fun a => ⟨.unresolvedLabel, s.lineOf a⟩ }

/-- MissingHalt when no RRR instruction's word is the halt encoding (R243). -/
def AsmState.checkHalt (s : AsmState) : AsmState :=
  s.report (errorWhen (s.haltIndex == none) .missingHalt)

/-- Finalization, in the order of the errors of R233. -/
def AsmState.finalize (s : AsmState) : AsmState := s.endOfText.backpatch.reportUnresolved.checkHalt

/-- The image of a finalized state; the referenced registers deduplicated and sorted (R202, R240, R245). -/
def AsmState.image (s : AsmState) : Image where
  words := s.buffer
  symbols := s.labels.map fun e => (e.1, e.2.1)
  lineMap := s.lineMap
  errors := s.errors
  registers := allRegs.filter fun r => s.referenced.contains r

/-- Pass 1 over a token sequence (R202). -/
def pass1All (l : List Lexeme) : AsmState := l.foldl AsmState.pass1 AsmState.initial

/-- Pass 1 over a token sequence and finalization (R202). -/
def assembleLexemes (l : List Lexeme) : Image := (pass1All l).finalize.image

/-- `assemble(source_text)` (R202). -/
def assemble (t : Text) : Image := assembleLexemes ((lex t).map Item.lexeme)

end Sys2Proof.Asm
end

