-- ==== Sys2Proof/Machine/History.lean ====
section
/-! DEFINITION. The history recorder: record and undo (46_history.md). -/

namespace Sys2Proof.Machine

/-- The registers a node holds: those of 1..15 marked altered in the state after the step (R261). -/
def State.alteredRegs (s : State) : List Reg :=
  allRegs.filter fun i => decide (i ≠ 0) && s.regAltered[i]

/-- The snapshot of the states around one step: prior values of every register marked altered and every
address marked accessed after it (R261). -/
def snapshot (pre post : State) : Snapshot where
  rs := pre.rs
  pc := pre.pc
  regs := post.alteredRegs.map fun i => (i, pre.reg i)
  mem := post.accessed.map fun n => (n, pre.mem.read n)

/-- `record(chain, pre, post)`: the new node in front of the chain (R261). Log 5. -/
def State.record (pre post : State) : State :=
  { post with history := snapshot pre post :: post.history }

/-- What undo reports to its caller (R263, R264). -/
inductive UndoReport where
  | ok
  | atRoot
deriving DecidableEq, Repr

/-- Stored register writes of prior values (R263). -/
def State.restoreRegs (s : State) (l : List (Reg × Word)) : State :=
  l.foldl (fun s e => s.setReg e.1 e.2) s

/-- Writes of prior memory values, not recorded as accesses (R263, 20_memory.md R57). -/
def State.restoreMem (s : State) (l : List (Nat × Word)) : State :=
  l.foldl (fun s e => s.pokeMem e.1 e.2) s

/-- The marks and sets after an undo are unspecified (R265): each takes a free value, the sets keeping
the limit `used ⊆ [0, 65535]` (10_state.md R37). Log 6. -/
def State.forgetTracking (s : State) : State :=
  { s with
    regAltered := Config.freeAltered s.freeCount
    regAccessed := Config.freeRegAccessed s.freeCount
    used := AddrSet.ofWords (Config.freeUsed s.freeCount)
    accessed := AddrSet.ofWords (Config.freeAccessed s.freeCount)
    freeCount := s.freeCount + 1 }

/-- Writes the values of one node back, and its pc and run-state (R263). -/
def State.applySnapshot (s : State) (n : Snapshot) : State :=
  { (s.restoreRegs n.regs).restoreMem n.mem with pc := n.pc, rs := n.rs }

/-- `undo`: the top node is applied and removed; at the root nothing changes (R263, R264). -/
def State.undo (s : State) : State × UndoReport :=
  match s.history with
  | [] => (s, .atRoot)
  | n :: rest => ({ (s.applySnapshot n).forgetTracking with history := rest }, .ok)

end Sys2Proof.Machine
end

