-- ==== Sys2Proof/Machine/Transactions.lean ====
section
/-! DEFINITION. The host's transactions (00_scope.md R3, R17): reset(image), a write of the run-state,
reset_accessed, step, record, undo and assemble. -/

namespace Sys2Proof.Machine

/-- The error list admits the load: MissingHalt is the only kind in it (70_reset_and_hazards.md R292 (a)). -/
def imageErrorsAdmit (image : Asm.Image) : Bool := image.errors.all fun e => e.kind == .missingHalt

/-- The image fits the memory (R292 (b)). -/
def imageFits (image : Asm.Image) : Bool := decide (image.words.length ≤ 65536)

/-- The state after `reset(image)`, with the host's display data (R290, R291, 10_state.md R42). The model's
own counter of free values goes on (log 6). -/
def State.ofImage (image : Asm.Image) (display : Display) (freeCount : Nat) : State :=
  { State.reset with
    mem := Memory.ofWords 0 image.words
    used := List.range image.words.length
    symbols := image.symbols
    display := display
    freeCount := freeCount }

/-- `reset(image)`: replaces the whole machine state in every run-state, or is refused (R290, R292). -/
def State.resetWith (s : State) (image : Asm.Image) (display : Display) : Result :=
  if imageErrorsAdmit image = false then .refused .imageHasErrors
  else if imageFits image = false then .refused .imageTooLong
  else .next (State.ofImage image display s.freeCount)

/-- The run-states the host may write (40_controller.md R112). -/
inductive HostRunState where
  | running
  | step
  | paused
  | interrupted
deriving DecidableEq, Repr

/-- The run-state written. -/
def HostRunState.toRunState : HostRunState → RunState
  | .running => .running
  | .step => .step
  | .paused => .paused
  | .interrupted => .interrupted

/-- The run-states from which the host may write: all but Halted and Error (R112). -/
def RunState.acceptsHostWrite : RunState → Bool
  | .running | .step | .paused | .breakpoint | .interrupted => true
  | .halted | .error => false

/-- A host write of the run-state; in Halted and Error it is refused: it has no effect (R112). -/
def State.hostWrite (s : State) (r : HostRunState) : State :=
  if s.rs.acceptsHostWrite then s.setRs r.toRunState else s

/-- The calls the host makes, one at a time (00_scope.md R3, R17, R18). -/
inductive Transaction where
  /-- `step()` (R100). -/
  | step
  /-- `reset(image)` with the host's display data (R290, R38). -/
  | reset (image : Asm.Image) (display : Display)
  /-- A write of the run-state (R112). -/
  | hostWrite (r : HostRunState)
  /-- `reset_accessed` (20_memory.md R54). -/
  | resetAccessed
  /-- `record(chain, pre, post)`, the current state being post (46_history.md R261). -/
  | record (pre : State)
  /-- `undo(chain)` (R263). -/
  | undo
  /-- `assemble(source_text)`: its answer is `Asm.assemble`; the machine state is untouched (45_assembler.md R202). -/
  | assemble (text : Text)

/-- What a transaction does to the state. -/
def transact (s : State) : Transaction → Result
  | .step => step s
  | .reset image display => s.resetWith image display
  | .hostWrite r => .next (s.hostWrite r)
  | .resetAccessed => .next s.resetAccessed
  | .record pre => .next (State.record pre s)
  | .undo => .next s.undo.1
  | .assemble _ => .next s

end Sys2Proof.Machine
end

