-- ==== Sys2Proof/Safety.lean ====
section
/-! DEFINITION. The terms in which claims are stated: the state invariant, how a run stands, flag words,
and frames. -/

namespace Sys2Proof.Safety

open Machine

/-- The memory addresses a history node restores exist (46_history.md R261). -/
def SnapshotWf (n : Snapshot) : Prop := ∀ e ∈ n.mem, e.1 < 65536

/-- What every reset state has and every transaction keeps: memory in canonical form over addresses
0..65535 (10_state.md R36), both tracking sets sorted and within [0, 65535] (R37), the unused slot of
R0 zero (R22), and history nodes over existing addresses. -/
structure Inv (s : State) : Prop where
  memory : s.mem.wf = true
  used : AddrSet.wf s.used = true
  accessed : AddrSet.wf s.accessed = true
  slotZero : s.regs[0] = 0
  history : ∀ n ∈ s.history, SnapshotWf n

/-- How a run stands (00_scope.md R19): ended successfully, ended in a fault, suspended, or able to step. -/
inductive Standing where
  | succeeded
  | faulted
  | suspended
  | executing
deriving DecidableEq, Repr

/-- Halted is the successful end, Error the fault; Breakpoint, Paused and Interrupted suspend (R19, R110). -/
def standing (s : State) : Standing :=
  match s.rs with
  | .halted => .succeeded
  | .error => .faulted
  | .paused | .breakpoint | .interrupted => .suspended
  | .running | .step => .executing

/-- A run is safe where it stands when it has not ended in a fault (R19). -/
def Safe (s : State) : Prop := standing s ≠ .faulted

/-- `w` is a flag word whose named bits are as given and whose bits 15..8 are zero (10_state.md R28). -/
structure FlagWordIs (w : Word) (g gU eq l lt ovS ovU cy : Prop) : Prop where
  g : w.getLsbD 0 = true ↔ g
  gU : w.getLsbD 1 = true ↔ gU
  eq : w.getLsbD 2 = true ↔ eq
  l : w.getLsbD 3 = true ↔ l
  lt : w.getLsbD 4 = true ↔ lt
  ovS : w.getLsbD 5 = true ↔ ovS
  ovU : w.getLsbD 6 = true ↔ ovU
  cy : w.getLsbD 7 = true ↔ cy
  rest : w.toNat < 256

/-- `w` is the arithmetic flag word of the result r (10_state.md R30). -/
def ArithFlagsAre (w r : Word) (ovS ovU cy : Prop) : Prop :=
  FlagWordIs w (0 < r.toInt) (r.toNat ≠ 0) (r.toNat = 0) (r.toInt < 0) False ovS ovU cy

/-- An integer outside -32768..32767 (41_arithmetic.md R122). -/
def OutsideSigned (n : Int) : Prop := ¬(-32768 ≤ n ∧ n ≤ 32767)

/-- What no instruction touches: the symbol-table copy, the display data, the history chain and the
model's counter of free values. -/
structure SameHostData (s t : State) : Prop where
  symbols : t.symbols = s.symbols
  display : t.display = s.display
  history : t.history = s.history
  freeCount : t.freeCount = s.freeCount

/-- The register file after reading `reads` and writing `writes`: every other register is unchanged, and
the marks are exactly those of the reads and of the stored writes (10_state.md R22, R25 to R27). -/
structure RegsFrame (reads writes : List Reg) (s t : State) : Prop where
  others : ∀ i : Reg, i ∉ writes → t.reg i = s.reg i
  zero : t.reg 0 = 0
  altered : ∀ i : Reg,
    t.regAltered[i] = (s.regAltered[i] || (decide (i ≠ 0) && writes.contains i))
  accessed : ∀ i : Reg, t.regAccessed[i] = (s.regAccessed[i] || reads.contains i)

/-- Every word of memory and both tracking sets are as before. -/
structure SameMemory (s t : State) : Prop where
  words : ∀ a : Word, t.word a = s.word a
  used : t.used = s.used
  accessed : t.accessed = s.accessed

/-- The frame of an instruction that only reads and writes registers: pc (past the fetch already),
run-state, memory, tracking sets and host data are unchanged (41_arithmetic.md R120). -/
structure RegisterOnly (reads writes : List Reg) (s t : State) : Prop where
  regs : RegsFrame reads writes s t
  memory : SameMemory s t
  host : SameHostData s t
  pc : t.pc = s.pc
  rs : t.rs = s.rs

/-- What a fault leaves: the run-state is Error, the marks of the reads made are set, and everything
else is as it was after the fetch (40_controller.md R107, 60_exceptions.md R274). -/
structure FaultedFrom (reads : List Reg) (s t : State) : Prop where
  rs : t.rs = .error
  regs : RegsFrame reads [] s t
  memory : SameMemory s t
  host : SameHostData s t
  pc : t.pc = s.pc

/-- The frame of a jump: it writes pc only (43_jumps.md R161 to R168). -/
structure PcOnly (reads : List Reg) (s t : State) : Prop where
  regs : RegsFrame reads [] s t
  memory : SameMemory s t
  host : SameHostData s t
  rs : t.rs = s.rs

/-- The frame of a trap: it writes the run-state only (44_trap.md R181). -/
structure RunStateOnly (reads : List Reg) (s t : State) : Prop where
  regs : RegsFrame reads [] s t
  memory : SameMemory s t
  host : SameHostData s t
  pc : t.pc = s.pc

/-- Both tracking sets gained exactly the address a (20_memory.md R53). -/
structure Recorded (a : Word) (s t : State) : Prop where
  accessed : ∀ n, n ∈ t.accessed ↔ n ∈ s.accessed ∨ n = a.toNat
  used : ∀ n, n ∈ t.used ↔ n ∈ s.used ∨ n = a.toNat

/-- `e` is the address sum of a base value and a second word: above 65535 it wraps by subtracting 65535
(42_load_store.md R150, 43_jumps.md R160). -/
def AddressIs (base w2 e : Word) : Prop :=
  let sum := base.toNat + w2.toNat
  (sum ≤ 65535 → e.toNat = sum) ∧ (65535 < sum → e.toNat = sum - 65535)

/-- A conditional jump completes, reads R15 and its base, and changes pc exactly when taken
(43_jumps.md R162). -/
def JumpsWhen (i : Instr) (a : Reg) (w2 : Word) (s : State) (taken : Prop) : Prop :=
  ∃ t, exec i s = .next t ∧ PcOnly [15, a] s t ∧
    (taken → t.pc = s.target a w2) ∧ (¬taken → t.pc = s.pc)

/-- The word at pc begins a step that faults: the rows of 60_exceptions.md R270. -/
def FaultCase (s : State) : Prop :=
  let ir := s.word s.pc
  let op := ir.toNat / 4096
  (op = 0x8 ∨ op = 0x9 ∨ op = 0xA ∨ op = 0xB ∨ op = 0xD ∨ op = 0xE) ∨
  (op = 0xF ∧ 0xA ≤ ir.toNat % 16) ∨
  (op = 0x3 ∧ (s.reg (bField ir) = 0 ∨ (s.reg (aField ir) = 0x8000 ∧ s.reg (bField ir) = 0xFFFF))) ∨
  (op = 0x7 ∧ s.reg (bField ir) = 0) ∨
  (op = 0xC ∧ 5 ≤ (s.reg (dField ir)).toNat ∧ (s.reg (dField ir)).toNat < 255)

/-- The address of the word after the instruction at pc (10_state.md R32). -/
def nextPc (s : State) : Word := if isTwoWords (s.word s.pc) then s.pc + 1 + 1 else s.pc + 1

/-- The source text of a register: `R` and its decimal index (30_encoding.md R90). -/
def regText (r : Reg) : Text := 'R' :: (toString r.val).toList

/-- `before` ends with an opening token of family f and partial word p that still waits for its argument:
only ignored tokens and unknown spans follow it (45_assembler.md R204, R209). -/
def OpenAtEnd (before : List Asm.Lexeme) (f : Asm.Family) (p : Word) : Prop :=
  ∃ pre between, before = pre ++ .token (.opening f p) :: between ∧
    ∀ x ∈ between, x = .unknown ∨ x = .token .ignore

/-- An RRR instruction of the item sequence l has the halt encoding: its argument token stands after the
items `before`, follows its opening token, and p OR (d << 8) OR (a << 4) OR b is 0xC000 (R210, R243). -/
def HaltIn (l before : List Asm.Lexeme) : Prop :=
  ∃ p text d a b post, OpenAtEnd before .rrr p ∧ l = before ++ .token (.arg .rrr text) :: post ∧
    Asm.parseRRR text = some (d, a, b) ∧ p ||| packNibbles 0 d a b = 0xC000

/-- Exactly the address p joined the patch requests of a label (R221). -/
def PatchRequested (name : Text) (p : Nat) (s t : Asm.AsmState) : Prop :=
  ∀ k, t.patches.lookup k =
    if k = name then some ((s.patches.lookup name).getD [] ++ [p]) else s.patches.lookup k

/-- One token emitted the word w and then the word of the value v: the literal, or 0 with a patch request
for the second word's address (R212, R213). -/
def EmitsTwo (w : Word) (v : Asm.Value) (s t : Asm.AsmState) : Prop :=
  t.cursor = s.cursor + 2 ∧
  match v with
  | .literal x => t.buffer = s.buffer ++ [w, x] ∧ t.patches = s.patches
  | .label name => t.buffer = s.buffer ++ [w, 0] ∧ PatchRequested name (s.cursor + 1) s t

/-- The errors of one kind. -/
def errorsOf (k : Asm.ErrorKind) (image : Asm.Image) : List Asm.Error :=
  image.errors.filter fun e => e.kind == k

/-- The source text of a bracketed register, or nothing (30_encoding.md R87). -/
def bracketText : Option Reg → Text
  | none => []
  | some n => '[' :: regText n ++ [']']

end Sys2Proof.Safety
end

