-- ==== Sys2Proof/Certificates/Slice0/Obligations.lean ====
section
/-! DEFINITION. The statements for the provers. "Dn" names a decision of spec/92_eei_decisions.md: a choice
the spec itself makes where its source is silent; a statement that rests on one says so. -/

open Sys2Proof Sys2Proof.Machine Sys2Proof.Safety

/-! ### Arithmetic and compare -/

/-- add (41_arithmetic.md R122, R121): the encoding, the completion, the sum modulo 2^16 in Rd unless
Rd is R0 or R15, the whole flag word in R15, and the frame. Rests on the spec's decisions D3, D9, D11, D29. -/
def Obligations.AddGivesSumAndFlags : Prop :=
  ∀ (d a b : Reg) (w2 : Word) (s : State),
    decode (packNibbles 0x0 d a b) w2 = .ok (.add d a b) ∧
    ∃ t, exec (.add d a b) s = .next t ∧ RegisterOnly [a, b] [d, 15] s t ∧
      let sum := (s.reg a).toNat + (s.reg b).toNat
      (d ≠ 0 → d ≠ 15 → (t.reg d).toNat = sum % 65536) ∧
      ArithFlagsAre (t.reg 15) (BitVec.ofNat 16 sum)
        (OutsideSigned ((s.reg a).toInt + (s.reg b).toInt)) (65535 < sum) (65535 < sum)

/-- sub (41_arithmetic.md R123): V is the borrow and C is 0. Rests on D3, D9, D11, D19, D29. -/
def Obligations.SubGivesDifferenceAndFlags : Prop :=
  ∀ (d a b : Reg) (w2 : Word) (s : State),
    decode (packNibbles 0x1 d a b) w2 = .ok (.sub d a b) ∧
    ∃ t, exec (.sub d a b) s = .next t ∧ RegisterOnly [a, b] [d, 15] s t ∧
      let difference := 65536 + (s.reg a).toNat - (s.reg b).toNat
      (d ≠ 0 → d ≠ 15 → (t.reg d).toNat = difference % 65536) ∧
      ArithFlagsAre (t.reg 15) (BitVec.ofNat 16 difference)
        (OutsideSigned ((s.reg a).toInt - (s.reg b).toInt))
        ((s.reg a).toNat < (s.reg b).toNat) False

/-- mul (41_arithmetic.md R124): the low half of the unsigned product; V is a nonzero high half.
Rests on D3, D9, D11, D18, D29. -/
def Obligations.MulGivesLowHalfAndOverflow : Prop :=
  ∀ (d a b : Reg) (w2 : Word) (s : State),
    decode (packNibbles 0x2 d a b) w2 = .ok (.mul d a b) ∧
    ∃ t, exec (.mul d a b) s = .next t ∧ RegisterOnly [a, b] [d, 15] s t ∧
      let product := (s.reg a).toNat * (s.reg b).toNat
      (d ≠ 0 → d ≠ 15 → (t.reg d).toNat = product % 65536) ∧
      ArithFlagsAre (t.reg 15) (BitVec.ofNat 16 product) False (product / 65536 ≠ 0) False

/-- div off its two faults (41_arithmetic.md R125): the signed quotient truncated toward zero in Rd, the
remainder in R15 unless Rd is R15; no flag word. Rests on D3, D12, D13, D14, D29. -/
def Obligations.DivGivesQuotientAndRemainder : Prop :=
  ∀ (d a b : Reg) (w2 : Word) (s : State),
    decode (packNibbles 0x3 d a b) w2 = .ok (.div d a b) ∧
    (s.reg b ≠ 0 → ¬(s.reg a = 0x8000 ∧ s.reg b = 0xFFFF) →
      ∃ t, exec (.div d a b) s = .next t ∧ RegisterOnly [a, b] [d, 15] s t ∧
        let q := (s.reg a).toInt.tdiv (s.reg b).toInt
        (d ≠ 0 → (t.reg d).toInt = q) ∧
        (d ≠ 15 → (t.reg 15).toInt = (s.reg a).toInt - q * (s.reg b).toInt))

/-- cmp (41_arithmetic.md R126, 10_state.md R29): both comparison pairs, the other flags 0, and no other
register; the d field of the word is ignored. Rests on D3, D6, D10, D29. -/
def Obligations.CmpSetsBothPairs : Prop :=
  ∀ (d a b : Reg) (w2 : Word) (s : State),
    decode (packNibbles 0x4 d a b) w2 = .ok (.cmp a b) ∧
    ∃ t, exec (.cmp a b) s = .next t ∧ RegisterOnly [a, b] [15] s t ∧
      FlagWordIs (t.reg 15) ((s.reg b).toInt < (s.reg a).toInt) ((s.reg b).toNat < (s.reg a).toNat)
        (s.reg a = s.reg b) ((s.reg a).toInt < (s.reg b).toInt)
        ((s.reg a).toNat < (s.reg b).toNat) False False False

/-- addc (41_arithmetic.md R127): the carry in is bit 7 of R15, read before the writes.
Rests on D3, D9, D11, D17, D29. -/
def Obligations.AddcAddsTheCarryBit : Prop :=
  ∀ (d a b : Reg) (w2 : Word) (s : State),
    decode (packNibbles 0x5 d a b) w2 = .ok (.addc d a b) ∧
    ∃ t, exec (.addc d a b) s = .next t ∧ RegisterOnly [a, b, 15] [d, 15] s t ∧
      let cin := if (s.reg 15).getLsbD 7 then 1 else 0
      let sum := (s.reg a).toNat + (s.reg b).toNat + cin
      (d ≠ 0 → d ≠ 15 → (t.reg d).toNat = sum % 65536) ∧
      ArithFlagsAre (t.reg 15) (BitVec.ofNat 16 sum)
        (OutsideSigned ((s.reg a).toInt + (s.reg b).toInt + cin)) (65535 < sum) (65535 < sum)

/-- muln (41_arithmetic.md R128): the operand is 0xFFFF0000 with x[a] in its low half; the product modulo
2^32 goes to R15 (high) and Rd (low). Rests on D3, D14, D15, D16, D29. -/
def Obligations.MulnMultipliesTheMaskedOperand : Prop :=
  ∀ (d a b : Reg) (w2 : Word) (s : State),
    decode (packNibbles 0x6 d a b) w2 = .ok (.muln d a b) ∧
    ∃ t, exec (.muln d a b) s = .next t ∧ RegisterOnly [a, b, 15] [d, 15] s t ∧
      let product := (0xFFFF0000 + (s.reg a).toNat) * (s.reg b).toNat % 4294967296
      (d ≠ 0 → (t.reg d).toNat = product % 65536) ∧
      (d ≠ 15 → (t.reg 15).toNat = product / 65536)

/-- divn off its fault (41_arithmetic.md R129). Rests on D3, D13, D14, D16, D29. -/
def Obligations.DivnDividesTheMaskedOperand : Prop :=
  ∀ (d a b : Reg) (w2 : Word) (s : State),
    decode (packNibbles 0x7 d a b) w2 = .ok (.divn d a b) ∧
    (s.reg b ≠ 0 →
      ∃ t, exec (.divn d a b) s = .next t ∧ RegisterOnly [a, b, 15] [d, 15] s t ∧
        let wide := 0xFFFF0000 + (s.reg a).toNat
        (d ≠ 0 → (t.reg d).toNat = wide / (s.reg b).toNat % 65536) ∧
        (d ≠ 15 → (t.reg 15).toNat = wide % (s.reg b).toNat))

/-- The division faults (60_exceptions.md R272, R276): divisor 0 before overflow; nothing is written but
the run-state, and the marks of the reads stay. Rests on D13, D29, and on log 15 for which reads are marked. -/
def Obligations.DivisionFaultsWriteNothing : Prop :=
  ∀ (d a b : Reg) (s : State),
    (s.reg b = 0 → instrFault (.div d a b) s = some .divideByZero ∧
      instrFault (.divn d a b) s = some .divideByZero ∧
      ∃ t u, exec (.div d a b) s = .next t ∧ FaultedFrom [a, b] s t ∧
        exec (.divn d a b) s = .next u ∧ FaultedFrom [a, b, 15] s u) ∧
    (s.reg a = 0x8000 → s.reg b = 0xFFFF → instrFault (.div d a b) s = some .divideOverflow ∧
      ∃ t, exec (.div d a b) s = .next t ∧ FaultedFrom [a, b] s t)

/-- The value of R15 before muln and divn has no effect on any register they leave, where R15 is no source
operand (41_arithmetic.md R128, R129: "H has no effect"). Rests on D16. -/
def Obligations.WideOperandIgnoresR15 : Prop :=
  ∀ (d a b : Reg) (v : Word) (s t t' u u' : State), a ≠ 15 → b ≠ 15 → s.reg b ≠ 0 →
    exec (.muln d a b) s = .next t → exec (.muln d a b) (s.setReg 15 v) = .next t' →
    exec (.divn d a b) s = .next u → exec (.divn d a b) (s.setReg 15 v) = .next u' →
    (∀ i : Reg, t.reg i = t'.reg i) ∧ ∀ i : Reg, u.reg i = u'.reg i

/-! ### Effective addresses, lea, load, store -/

/-- The address sum of lea, load, store and the jumps (42_load_store.md R150, 43_jumps.md R160): it wraps
by subtracting 65535 and a wrapped sum is never 0. Rests on D20, D21. -/
def Obligations.AddressSumsWrapBySubtracting65535 : Prop :=
  ∀ base w2 : Word,
    AddressIs base w2 (effectiveAddress Config.params base w2) ∧
    jumpTarget Config.params base w2 = effectiveAddress Config.params base w2 ∧
    (65535 < base.toNat + w2.toNat → effectiveAddress Config.params base w2 ≠ 0)

/-- lea (42_load_store.md R151): the address itself in Rd, no memory access. Rests on D4, D20, D22, D29. -/
def Obligations.LeaGivesTheAddress : Prop :=
  ∀ (d a : Reg) (w2 : Word) (s : State),
    decode (packNibbles 0xF d a 0) w2 = .ok (.lea d a w2) ∧
    ∃ t, exec (.lea d a w2) s = .next t ∧ RegisterOnly [a] [d] s t ∧
      AddressIs (s.reg a) w2 (s.ea a w2) ∧ (d ≠ 0 → t.reg d = s.ea a w2)

/-- load (42_load_store.md R152): Rd takes the word at the effective address, the read is recorded even
for d = 0, and memory, pc and run-state are unchanged. Rests on D4, D20, D29, D30. -/
def Obligations.LoadReadsTheAddressedWord : Prop :=
  ∀ (d a : Reg) (w2 : Word) (s : State),
    decode (packNibbles 0xF d a 1) w2 = .ok (.load d a w2) ∧
    ∃ t, exec (.load d a w2) s = .next t ∧ RegsFrame [a] [d] s t ∧
      AddressIs (s.reg a) w2 (s.ea a w2) ∧ (d ≠ 0 → t.reg d = s.word (s.ea a w2)) ∧
      (∀ x : Word, t.word x = s.word x) ∧ Recorded (s.ea a w2) s t ∧ SameHostData s t ∧
      t.pc = s.pc ∧ t.rs = s.rs

/-- store (42_load_store.md R153): the word at the effective address becomes x[d], every other word and
every register is unchanged, and the write is recorded. Premise: the memory is in canonical form, which
StepKeepsInvariant keeps. Rests on D4, D20, D29, D30. -/
def Obligations.StoreWritesTheAddressedWordOnly : Prop :=
  ∀ (d a : Reg) (w2 : Word) (s : State), s.mem.wf = true →
    decode (packNibbles 0xF d a 2) w2 = .ok (.store d a w2) ∧
    ∃ t, exec (.store d a w2) s = .next t ∧ RegsFrame [a, d] [] s t ∧
      AddressIs (s.reg a) w2 (s.ea a w2) ∧ t.word (s.ea a w2) = s.reg d ∧
      (∀ x : Word, x ≠ s.ea a w2 → t.word x = s.word x) ∧ Recorded (s.ea a w2) s t ∧
      SameHostData s t ∧ t.pc = s.pc ∧ t.rs = s.rs

/-- A stored word is the first word of the next fetch from its address (20_memory.md R66, which the spec derives). -/
def Obligations.StoreIsSeenByTheNextFetch : Prop :=
  ∀ (d a : Reg) (w2 : Word) (s t : State), s.mem.wf = true →
    exec (.store d a w2) s = .next t →
    (((t.setPc (s.ea a w2)).resetAccessed).fetch).1 = s.reg d

/-! ### Jumps -/

/-- jump (43_jumps.md R161): always taken, R15 not read, only pc written; the d field is ignored
and not read. Rests on D4, D7, D21, D29; that an ignored field is not read is the model's, log 15. -/
def Obligations.JumpAlwaysGoesToTheTarget : Prop :=
  ∀ (d a : Reg) (w2 : Word) (s : State),
    decode (packNibbles 0xF d a 3) w2 = .ok (.jump a w2) ∧
    ∃ t, exec (.jump a w2) s = .next t ∧ PcOnly [a] s t ∧ t.pc = s.target a w2 ∧
      AddressIs (s.reg a) w2 t.pc

/-- The six conditional jumps and their predicates over the flag bits of R15 (43_jumps.md R162 to R168),
with their selectors; the d field is ignored. Rests on D4, D7, D21, D23, D29; that the base is marked read
when the jump is not taken is the model's, log 15. -/
def Obligations.ConditionalJumpsTestTheirFlags : Prop :=
  ∀ (d a : Reg) (w2 : Word) (s : State),
    let g := (s.reg 15).getLsbD 0 = true
    let eq := (s.reg 15).getLsbD 2 = true
    let l := (s.reg 15).getLsbD 3 = true
    AddressIs (s.reg a) w2 (s.target a w2) ∧
    (decode (packNibbles 0xF d a 4) w2 = .ok (.jumplt a w2) ∧ JumpsWhen (.jumplt a w2) a w2 s l) ∧
    (decode (packNibbles 0xF d a 5) w2 = .ok (.jumple a w2) ∧
      JumpsWhen (.jumple a w2) a w2 s (l ∨ eq)) ∧
    (decode (packNibbles 0xF d a 6) w2 = .ok (.jumpeq a w2) ∧ JumpsWhen (.jumpeq a w2) a w2 s eq) ∧
    (decode (packNibbles 0xF d a 7) w2 = .ok (.jumpne a w2) ∧
      JumpsWhen (.jumpne a w2) a w2 s ¬eq) ∧
    (decode (packNibbles 0xF d a 8) w2 = .ok (.jumpge a w2) ∧
      JumpsWhen (.jumpge a w2) a w2 s (g ∨ eq)) ∧
    (decode (packNibbles 0xF d a 9) w2 = .ok (.jumpgt a w2) ∧ JumpsWhen (.jumpgt a w2) a w2 s g)

/-- After a cmp the conditional jumps decide the signed relation of its operands (43_jumps.md R162's last
column). Rests on D10, D21, D23 and, for the read marks, D29; that the base is marked read when the jump is
not taken is the model's, log 15. -/
def Obligations.JumpsAfterCmpDecideSignedOrder : Prop :=
  ∀ (x y a : Reg) (w2 : Word) (s t : State), exec (.cmp x y) s = .next t →
    let m := (s.reg x).toInt
    let n := (s.reg y).toInt
    JumpsWhen (.jumplt a w2) a w2 t (m < n) ∧ JumpsWhen (.jumple a w2) a w2 t (m ≤ n) ∧
    JumpsWhen (.jumpeq a w2) a w2 t (m = n) ∧ JumpsWhen (.jumpne a w2) a w2 t (m ≠ n) ∧
    JumpsWhen (.jumpge a w2) a w2 t (n ≤ m) ∧ JumpsWhen (.jumpgt a w2) a w2 t (n < m)

/-! ### Trap -/

/-- Halt (44_trap.md R182): code 0 halts; no step ends Halted in any other way; a halted machine's step
changes nothing. That the code is x[d] is D8, the mark of its read D29, and that a and b are not read is
the model's, log 15. -/
def Obligations.HaltOnlyByTrapCodeZero : Prop :=
  (∀ (d a b : Reg) (s : State), s.reg d = 0 →
    ∃ t, exec (.trap d a b) s = .next t ∧ RunStateOnly [d] s t ∧ t.rs = .halted) ∧
  (∀ s t : State, step s = .next t → s.rs ≠ .halted → t.rs = .halted →
    ∃ d a b : Reg, decode (s.word s.pc) (s.word (s.pc + 1)) = .ok (.trap d a b) ∧ s.reg d = 0) ∧
  (∀ s : State, s.rs = .halted → step s = .next s)

/-- Breakpoint (44_trap.md R183): code 4 sets the run-state to Breakpoint and nothing else. Rests on D3,
D8, D52 and, for the mark of the code's read, D29; that a and b are not read is the model's, log 15. -/
def Obligations.TrapCodeFourBreaks : Prop :=
  ∀ (d a b : Reg) (w2 : Word) (s : State),
    decode (packNibbles 0xC d a b) w2 = .ok (.trap d a b) ∧
    (s.reg d = 4 →
      ∃ t, exec (.trap d a b) s = .next t ∧ RunStateOnly [d] s t ∧ t.rs = .breakpoint)

/-- The I/O stubs, codes 1, 2 and 3, and the user traps, codes 255 and above, change nothing beyond the
fetch (44_trap.md R184, R185), but for the mark of the code's read, which is D29. That the code is x[d] is
D8, and that a and b are not read is the model's, log 15. -/
def Obligations.TrapStubsAndUserTrapsDoNothing : Prop :=
  ∀ (d a b : Reg) (s : State),
    (s.reg d = 1 ∨ s.reg d = 2 ∨ s.reg d = 3 ∨ 255 ≤ (s.reg d).toNat) →
    ∃ t, exec (.trap d a b) s = .next t ∧ RunStateOnly [d] s t ∧ t.rs = s.rs

/-- Codes 5..254 fault (44_trap.md R186, 60_exceptions.md R273). Rests on D8, D24 and, for the mark of
the code's read, D29; that a and b are not read is the model's, log 15. -/
def Obligations.TrapMidCodesFault : Prop :=
  ∀ (d a b : Reg) (s : State), 5 ≤ (s.reg d).toNat → (s.reg d).toNat < 255 →
    instrFault (.trap d a b) s = some .trapCode ∧
    ∃ t, exec (.trap d a b) s = .next t ∧ FaultedFrom [d] s t

/-! ### The step transaction -/

/-- An executing step empties `accessed`, fetches one or two words, moves pc past them, records their
addresses, and runs the decoded instruction (40_controller.md R100 to R105). Rests on D25, D30, D31. -/
def Obligations.StepRunsTheDecodedInstruction : Prop :=
  ∀ (s : State) (i : Instr), (s.rs = .running ∨ s.rs = .step) →
    decode (s.word s.pc) (s.word (s.pc + 1)) = .ok i →
    (i.secondWord = none → step s = exec i
      { s with
        pc := s.pc + 1
        accessed := [s.pc.toNat]
        used := AddrSet.insert s.pc.toNat s.used }) ∧
    (i.secondWord = some (s.word (s.pc + 1)) → step s = exec i
      { s with
        pc := s.pc + 2
        accessed := AddrSet.insert (s.pc + 1).toNat [s.pc.toNat]
        used := AddrSet.insert (s.pc + 1).toNat (AddrSet.insert s.pc.toNat s.used) }) ∧
    (i.secondWord = none ∨ i.secondWord = some (s.word (s.pc + 1)))

/-- Only Running and Step permit executing: in every other run-state a step changes nothing
(10_state.md R34). -/
def Obligations.StepOutsideRunningAndStepChangesNothing : Prop :=
  ∀ s : State, s.rs ≠ .running → s.rs ≠ .step → step s = .next s

/-- Reserved opcodes and selectors halt with run-state Error (30_encoding.md R81). -/
def Obligations.ReservedEncodingsEndInError : Prop :=
  ∀ s : State, (s.rs = .running ∨ s.rs = .step) →
    let ir := (s.word s.pc).toNat
    (ir / 4096 ∈ [0x8, 0x9, 0xA, 0xB, 0xD, 0xE] ∨ (ir / 4096 = 0xF ∧ 0xA ≤ ir % 16)) →
    ∃ t, step s = .next t ∧ t.rs = .error

/-- A step enters Error exactly in the cases of 60_exceptions.md R270, and the reason reported is one of
them exactly then. FaultCase names the divisions by their opcodes (D3), the reserved encodings by opcode and
selector (D3, D4, D5) and the trap code as x[d] (D8). Rests on these and on D13, D24. -/
def Obligations.StepFaultsExactlyInTheListedCases : Prop :=
  ∀ s t : State, (s.rs = .running ∨ s.rs = .step) → step s = .next t →
    (t.rs = .error ↔ FaultCase s) ∧ (stepFaultReason s ≠ none ↔ FaultCase s)

/-- Faults are precise (60_exceptions.md R275, R274): when a step ends in Error, no register, no altered mark
and no word of memory has changed, and pc is past the instruction. Rests on D25, D29, D47. -/
def Obligations.FaultingStepMutatesNothingButPc : Prop :=
  ∀ s t : State, (s.rs = .running ∨ s.rs = .step) → step s = .next t → t.rs = .error →
    (∀ i : Reg, t.reg i = s.reg i) ∧ t.regAltered = s.regAltered ∧
    (∀ a : Word, t.word a = s.word a) ∧ t.pc = nextPc s ∧ SameHostData s t

/-- Every step answers a next state: no program and no data stops the model. That a fault is a next state
in Error is log 2. -/
def Obligations.StepAlwaysAnswersANextState : Prop := ∀ s : State, ∃ t, step s = .next t

/-- The run-state after a step (40_controller.md R109, R113): unchanged, or Halted after trap 0, or
Breakpoint after trap 4, or Error in a fault case (60_exceptions.md R270). Rests on D3, D4, D5, D8, D13,
D24, D27, D52. -/
def Obligations.StepLeavesRunStateButForTrapsAndFaults : Prop :=
  ∀ s t : State, (s.rs = .running ∨ s.rs = .step) → step s = .next t →
    t.rs = s.rs ∨ (t.rs = .error ∧ FaultCase s) ∨
    ∃ d a b : Reg, decode (s.word s.pc) (s.word (s.pc + 1)) = .ok (.trap d a b) ∧
      ((t.rs = .halted ∧ s.reg d = 0) ∨ (t.rs = .breakpoint ∧ s.reg d = 4))

/-- Only store writes memory (20_memory.md R57, which the spec derives). -/
def Obligations.OnlyStoreWritesMemory : Prop :=
  ∀ (i : Instr) (s t : State), exec i s = .next t → (∀ d a w2, i ≠ .store d a w2) →
    ∀ x : Word, t.word x = s.word x

/-- Only a jump writes pc (10_state.md R32). A jump is an instruction of op 0xF with selector 3 or more
(30_encoding.md R78). Rests on D4. -/
def Obligations.OnlyJumpsWritePc : Prop :=
  ∀ (i : Instr) (s t : State), exec i s = .next t →
    ¬(i.op = 0xF ∧ 3 ≤ (bField i.firstWord).val) → t.pc = s.pc

/-- After an executing step, on an instruction or on a reserved encoding, `accessed` holds exactly the
addresses the step read or wrote, and they have joined `used` (20_memory.md R53, R55, 40_controller.md R104,
60_exceptions.md R271). Rests on D30, D31, D47. -/
def Obligations.StepRecordsExactlyItsAccesses : Prop :=
  ∀ s t : State, (s.rs = .running ∨ s.rs = .step) → step s = .next t →
    (∀ n : Nat, n ∈ t.accessed ↔
      n = s.pc.toNat ∨ (isTwoWords (s.word s.pc) = true ∧ n = (s.pc + 1).toNat) ∨
      ∃ (d a : Reg) (w2 : Word), (decode (s.word s.pc) (s.word (s.pc + 1)) = .ok (.load d a w2) ∨
          decode (s.word s.pc) (s.word (s.pc + 1)) = .ok (.store d a w2)) ∧
        n = (effectiveAddress Config.params (s.reg a) w2).toNat) ∧
    ∀ n : Nat, n ∈ t.used ↔ n ∈ s.used ∨ n ∈ t.accessed

/-- Every register a step changes is marked altered and every word it changes is in `accessed`; R0's mark
and the marks of earlier writes stay (46_history.md R262, 10_state.md R22, R27). Rests on D29, D31. -/
def Obligations.StepTracksEveryChange : Prop :=
  ∀ s t : State, step s = .next t →
    (∀ i : Reg, t.reg i ≠ s.reg i → t.regAltered[i] = true) ∧
    (∀ a : Word, t.word a ≠ s.word a → a.toNat ∈ t.accessed) ∧
    (∀ i : Reg, s.regAltered[i] = true → t.regAltered[i] = true) ∧
    t.regAltered[0] = s.regAltered[0]

/-! ### Memory and tracking primitives -/

/-- MemRead and MemWrite (20_memory.md R51, R52, R53): a write is read back, every other word is as before,
both record the access, and neither changes anything else. Premise: canonical memory. Rests on D30. -/
def Obligations.MemoryReadsBackWhatWasWritten : Prop :=
  ∀ (s : State) (a v b : Word), s.mem.wf = true →
    ((s.memRead a).1 = s.word a ∧ Recorded a s (s.memRead a).2 ∧
      ∀ p q : AddrSet, { (s.memRead a).2 with used := p, accessed := q } =
        { s with used := p, accessed := q }) ∧
    (((s.memWrite a v).memRead b).1 = if b = a then v else s.word b) ∧
    Recorded a s (s.memWrite a v) ∧
    ∀ (m : Memory) (p q : AddrSet), { s.memWrite a v with mem := m, used := p, accessed := q } =
      { s with mem := m, used := p, accessed := q }

/-- `reset_accessed` empties the accessed set and changes nothing else (20_memory.md R54). -/
def Obligations.ResetAccessedEmptiesOnlyThatSet : Prop :=
  ∀ s : State, s.resetAccessed.accessed = [] ∧
    (∀ r : List Nat, { s.resetAccessed with accessed := r } = { s with accessed := r })

/-! ### Reset and the other transactions -/

/-- `reset(image)` in every state (70_reset_and_hazards.md R290, R291, 10_state.md R42): an image it
admits gives exactly the reset values. Rests on D28, D34. -/
def Obligations.ResetLoadsTheImage : Prop :=
  ∀ (s : State) (image : Asm.Image) (display : Display),
    (∀ e ∈ image.errors, e.kind = .missingHalt) → image.words.length ≤ 65536 →
    ∃ t, transact s (.reset image display) = .next t ∧
      (∀ i : Reg, t.reg i = 0 ∧ t.regAltered[i] = false ∧ t.regAccessed[i] = false) ∧
      t.pc = 0 ∧ t.rs = .paused ∧ t.accessed = [] ∧ t.history = [] ∧
      t.symbols = image.symbols ∧ t.display = display ∧
      (∀ n, n ∈ t.used ↔ n < image.words.length) ∧
      ∀ a : Word, t.word a = (image.words[a.toNat]?).getD 0

/-- Refused images (70_reset_and_hazards.md R292): an error other than MissingHalt, or more than 65536
words. Rests on D34. -/
def Obligations.ResetRefusesOtherImages : Prop :=
  ∀ (s : State) (image : Asm.Image) (display : Display),
    ((∃ e ∈ image.errors, e.kind ≠ .missingHalt) →
      transact s (.reset image display) = .refused .imageHasErrors) ∧
    ((∀ e ∈ image.errors, e.kind = .missingHalt) → 65536 < image.words.length →
      transact s (.reset image display) = .refused .imageTooLong)

/-- `State.reset` is what a reset with the image assembled from the empty text gives. That State.reset is
the reset of the empty image is the model's choice, log 3 and log 4. -/
def Obligations.ResetStateIsTheEmptyImageReset : Prop :=
  ∀ s : State, s.freeCount = 0 →
    transact s (.reset (Asm.assemble []) Display.initial) = .next State.reset

/-- A host write of the run-state (40_controller.md R112): effective outside Halted and Error, without
effect in them, and nothing but the run-state changes. Rests on D27 and log 16. -/
def Obligations.HostWritesRunStateOutsideHaltedAndError : Prop :=
  ∀ (s : State) (r : HostRunState),
    (s.rs ≠ .halted → s.rs ≠ .error →
      transact s (.hostWrite r) = .next { s with rs := r.toRunState }) ∧
    ((s.rs = .halted ∨ s.rs = .error) → transact s (.hostWrite r) = .next s)

/-- Halted and Error are terminal for stepping, and only reset and undo leave them (40_controller.md R110). -/
def Obligations.OnlyResetAndUndoLeaveHaltedAndError : Prop :=
  ∀ (s t : State) (tr : Transaction), (s.rs = .halted ∨ s.rs = .error) → transact s tr = .next t →
    (tr = .step → t = s) ∧
    ((∀ image display, tr ≠ .reset image display) → tr ≠ .undo → t.rs = s.rs)

/-- The invariant at reset (10_state.md R37, R42). Rests on D28; that State.reset is the reset state is the
model's choice, log 3, and the canonical form of memory is the model's, log 1. -/
def Obligations.ResetStateMeetsInvariant : Prop := Inv State.reset

/-- Every step keeps the invariant: canonical memory over 0..65535 (as data, log 1), both tracking sets
sorted and within [0, 65535] (10_state.md R36, R37). -/
def Obligations.StepKeepsInvariant : Prop :=
  ∀ s t : State, Inv s → step s = .next t → Inv t

/-- Every transaction of the host keeps the invariant: reset, host writes, reset_accessed, record, undo
(whose free sets keep R37's bounds, log 6), assemble and step. -/
def Obligations.TransactionsKeepInvariant : Prop :=
  ∀ (s t : State) (tr : Transaction), Inv s → transact s tr = .next t → Inv t

/-! ### History -/

/-- Round trip (46_history.md R265): step, record, undo restores every register and word, pc, run-state,
the chain and the whole of memory. The tracking marks and sets are free after undo and not claimed.
Premise: the invariant, which StepKeepsInvariant keeps. Rests on D46. -/
def Obligations.StepRecordUndoRestoresTheState : Prop :=
  ∀ s t : State, Inv s → step s = .next t →
    let u := (State.record s t).undo
    u.2 = .ok ∧ (∀ i : Reg, u.1.reg i = s.reg i) ∧ u.1.regs = s.regs ∧
    (∀ a : Word, u.1.word a = s.word a) ∧ u.1.mem = s.mem ∧ u.1.pc = s.pc ∧ u.1.rs = s.rs ∧
    u.1.history = s.history ∧ u.1.symbols = s.symbols ∧ u.1.display = s.display

/-- What a recorded node holds (46_history.md R261): run-state and pc before the step, the prior value of
exactly the registers of 1..15 marked altered, and of exactly the addresses marked accessed. Rests on D46. -/
def Obligations.RecordHoldsPriorValuesOfMarked : Prop :=
  ∀ pre post : State, ∃ n, (State.record pre post).history = n :: post.history ∧
    n.rs = pre.rs ∧ n.pc = pre.pc ∧
    (∀ (i : Reg) (v : Word), (i, v) ∈ n.regs ↔
      i ≠ 0 ∧ post.regAltered[i] = true ∧ v = pre.reg i) ∧
    (∀ (k : Nat) (v : Word), (k, v) ∈ n.mem ↔ k ∈ post.accessed ∧ v = pre.mem.read k)

/-- undo (46_history.md R263, R264): the top node's register and memory values, pc and run-state are written
back and the chain is one node shorter; at the root nothing changes and that is reported. Premises of the
first: canonical memory, and a node that maps each register and each existing address at most once, as
`record` makes it. -/
def Obligations.UndoWritesTheTopNodeBack : Prop :=
  (∀ (s : State) (n : Snapshot) (rest : List Snapshot), s.mem.wf = true → s.history = n :: rest →
    (n.regs.map Prod.fst).Nodup → (n.mem.map Prod.fst).Nodup → (∀ e ∈ n.mem, e.1 < 65536) →
    s.undo.2 = .ok ∧ s.undo.1.history = rest ∧ s.undo.1.pc = n.pc ∧ s.undo.1.rs = n.rs ∧
    (∀ e ∈ n.regs, e.1 ≠ 0 → s.undo.1.reg e.1 = e.2) ∧
    (∀ i : Reg, i ∉ n.regs.map Prod.fst → s.undo.1.reg i = s.reg i) ∧
    (∀ e ∈ n.mem, s.undo.1.mem.read e.1 = e.2) ∧
    (∀ k : Nat, k ∉ n.mem.map Prod.fst → s.undo.1.mem.read k = s.mem.read k)) ∧
  ∀ s : State, s.history = [] → s.undo = (s, .atRoot)

/-! ### Encoding -/

/-- Decoding an encoded instruction gives it back, with every operand at every value, and leaves the words
after it (30_encoding.md R92). Rests on D3, D4, D6, D7. -/
def Obligations.DecodeOfEncodeIsTheInstruction : Prop :=
  ∀ (i : Instr) (rest : List Word), decodeWords (encode i ++ rest) = .ok (i, rest)

/-- The other direction: a first word in the assembler's form is the encoding of what it decodes to
(30_encoding.md R72 to R80). Rests on D3 to D7. -/
def Obligations.EncodeOfDecodeIsTheWord : Prop :=
  ∀ (ir w2 : Word), WellFormed.firstWord ir = true →
    ∃ i, decode ir w2 = .ok i ∧ encode i = if isTwoWords ir then [ir, w2] else [ir]

/-- The decoder rejects exactly the reserved opcodes and selectors, by name (30_encoding.md R79, R81).
Rests on D3, D4, D5. -/
def Obligations.DecoderRejectsExactlyTheReserved : Prop :=
  ∀ ir w2 : Word,
    (decode ir w2 = .error (.opcode ir) ↔ WellFormed.opcode ir = false) ∧
    (decode ir w2 = .error (.irx ir) ↔ WellFormed.selector ir = false) ∧
    ∀ r, decode ir w2 = .error r → r = .opcode ir ∨ r = .irx ir

/-- Unused fields are ignored (30_encoding.md R80): the d field of cmp and of the jumps in the decoder, the
a and b fields of trap in execution. Rests on D6, D7, D8; that they are not read either is log 15. -/
def Obligations.UnusedFieldsAreIgnored : Prop :=
  (∀ (d d' a b : Reg) (w2 : Word),
    decode (packNibbles 0x4 d a b) w2 = decode (packNibbles 0x4 d' a b) w2) ∧
  (∀ (d d' a b : Reg) (w2 : Word), 3 ≤ b.val → b.val ≤ 9 →
    decode (packNibbles 0xF d a b) w2 = decode (packNibbles 0xF d' a b) w2) ∧
  ∀ (d a a' b b' : Reg) (s : State), exec (.trap d a b) s = exec (.trap d a' b') s

/-- What the decoder reads from a word is the opcode table's row for it: the word matches the row, and a
row that matches the same word is the same row (spec/opcode_table.json, 30_encoding.md R79). Rests on D3, D4. -/
def Obligations.DecodedWordMatchesOneTableRow : Prop :=
  ∀ (ir w2 : Word) (i : Instr), decode ir w2 = .ok i →
    i.row.matchesWord ir = true ∧ i.row.lengthWords = (if isTwoWords ir then 2 else 1) ∧
    ∀ j : Instr, j.row.matchesWord ir = true → j.row = i.row

/-- A few words written out from the spec's encodings (95_test_vectors.md L1-1 and section 2). -/
def Obligations.SampleWordsDecode : Prop :=
  decode 0x0312 0 = .ok (.add 3 1 2) ∧ decode 0x3FED 0 = .ok (.div 15 14 13) ∧
  decode 0x4012 0 = .ok (.cmp 1 2) ∧ decode 0xC000 0 = .ok (.trap 0 0 0) ∧
  decode 0xF100 0x0001 = .ok (.lea 1 0 0x0001) ∧ decode 0xF202 0x000E = .ok (.store 2 0 0x000E) ∧
  decode 0xF037 0x0010 = .ok (.jumpne 3 0x0010)

/-! ### Assembler -/

/-- The token-order validator (45_assembler.md R203 to R205): which token after which state reports which
error, each at most once, in the order of R204's rows and with the current line; the next state; and the
error of an instruction without its arguments at the end of the text. Rests on D35, D36, D44, D48. -/
def Obligations.ValidatorReportsExactlyTheMisplaced : Prop :=
  (∀ (last : Asm.LastKind) (t : Asm.Token),
    (.misplacedLabel ∈ Asm.orderErrors last t ↔ (∃ n, t = .label n) ∧ last ≠ .nl) ∧
    (.instructionNotOnNewLine ∈ Asm.orderErrors last t ↔
      ((∃ f p, t = .opening f p) ∨ (∃ x, t = .data x) ∨ ∃ x, t = .jump x) ∧
        last ≠ .nl ∧ last ≠ .lbl true) ∧
    (.instructionArgumentMismatch ∈ Asm.orderErrors last t ↔
      ((∃ f x, t = .arg f x ∧ last ≠ .ins f) ∨
        ((∀ f x, t ≠ .arg f x) ∧ t ≠ .ignore ∧ ∃ f, last = .ins f))) ∧
    (Asm.orderErrors last t).Sublist
      [.instructionArgumentMismatch, .misplacedLabel, .instructionNotOnNewLine]) ∧
  (∀ (s : Asm.AsmState) (t : Asm.Token),
    let u := s.pass1 (.token t)
    (∃ encoder, u.errors =
        s.errors ++ ((Asm.orderErrors s.last t).map fun k => ⟨k, s.line⟩) ++ encoder ∧
      ∀ e ∈ encoder, (e.kind = .unknownToken ∨ e.kind = .malformedJump) ∧ e.line = s.line) ∧
    (t = .ignore → u.last = s.last) ∧ (t = .newline → u.last = .nl) ∧
    (∀ n, t = .label n → u.last = .lbl (decide (s.last = .nl))) ∧
    (∀ f p, t = .opening f p → u.last = .ins f) ∧
    ((∃ f x, t = .arg f x) ∨ (∃ x, t = .data x) ∨ (∃ x, t = .jump x) → u.last = .done)) ∧
  (∀ s : Asm.AsmState, (s.pass1 .unknown).last = s.last ∧
    (s.pass1 .unknown).errors = s.errors ++ [⟨.unknownToken, s.line⟩]) ∧
  ∀ l : List Asm.Lexeme,
    let s := Asm.pass1All l
    ∃ final, (∀ e ∈ final, e.kind = .unresolvedLabel ∨ e.kind = .missingHalt) ∧
      ((∀ f, s.last ≠ .ins f) → (Asm.assembleLexemes l).errors = s.errors ++ final) ∧
      ((∃ f, s.last = .ins f) → (Asm.assembleLexemes l).errors =
        s.errors ++ [⟨.instructionArgumentMismatch, s.line⟩] ++ final)

/-- MissingHalt (45_assembler.md R243, R210): none when some RRR argument after its opening token gives the
word 0xC000, exactly one otherwise, whatever data words and second words hold; the halt index is the
address of the first such instruction, and the image holds 0xC000 there. Rests on D39, D51. -/
def Obligations.MissingHaltExactlyWhenNoHaltWord : Prop :=
  ∀ l : List Asm.Lexeme,
    let image := Asm.assembleLexemes l
    ((∃ before, HaltIn l before) → errorsOf .missingHalt image = []) ∧
    ((¬∃ before, HaltIn l before) → (errorsOf .missingHalt image).length = 1) ∧
    (∀ c, (Asm.pass1All l).haltIndex = some c ↔ ∃ before, HaltIn l before ∧
      (∀ other, HaltIn l other → before.length ≤ other.length) ∧
      c = (Asm.pass1All before).buffer.length) ∧
    ∀ c, (Asm.pass1All l).haltIndex = some c → image.words[c]? = some 0xC000

/-- Every emitted word is mapped to the line of the token that emitted it, one more than the newlines before
it, and nothing else is mapped (45_assembler.md R216, R217). Rests on D36, D43. -/
def Obligations.LineMapCoversTheImage : Prop :=
  (∀ l : List Asm.Lexeme,
    (Asm.assembleLexemes l).lineMap.map Prod.fst
      = List.range (Asm.assembleLexemes l).words.length ∧
    (Asm.assembleLexemes l).words.length = (Asm.pass1All l).buffer.length) ∧
  ∀ (pre post : List Asm.Lexeme) (x : Asm.Lexeme) (p : Nat),
    (Asm.pass1All pre).buffer.length ≤ p → p < (Asm.pass1All (pre ++ [x])).buffer.length →
    (Asm.assembleLexemes (pre ++ x :: post)).lineMap.lookup p =
      some (1 + pre.countP fun y => decide (y = .token .newline))

/-- Backpatching (45_assembler.md R241, R246): at every recorded patch address of a defined label the image
holds the label's address, wherever the definition stood. Which references are recorded:
AssembledInstructionsDecodeBack and DataDefinesItsNameAndEmitsOneWord. Rests on D42. -/
def Obligations.BackpatchWritesLabelAddresses : Prop :=
  ∀ (l : List Asm.Lexeme) (name : Text) (addr line p : Nat) (ps : List Nat),
    let s := Asm.pass1All l
    s.labels.lookup name = some (addr, line) → s.patches.lookup name = some ps → p ∈ ps →
    addr < 65536 →
    (Asm.assembleLexemes l).words[p]? = some (BitVec.ofNat 16 addr)

/-- UnresolvedLabel (45_assembler.md R242, R244): exactly one error for each label referenced and never
defined, none for an unused label, each with the line of its lowest patch address, in ascending order of
that address. Rests on D38, D44. -/
def Obligations.UnresolvedOnlyForUndefinedReferences : Prop :=
  ∀ l : List Asm.Lexeme,
    let s := Asm.pass1All l
    let image := Asm.assembleLexemes l
    (s.patches.map Prod.fst).Nodup ∧
    (errorsOf .unresolvedLabel image).length =
      (s.patches.countP fun e => (s.labels.lookup e.1).isNone) ∧
    ∃ addrs : List Nat, addrs.Pairwise (· < ·) ∧
      (∀ a, a ∈ addrs ↔ ∃ e ∈ s.patches, s.labels.lookup e.1 = none ∧ a ∈ e.2 ∧ ∀ p ∈ e.2, a ≤ p) ∧
      (errorsOf .unresolvedLabel image).map (fun e => some e.line) =
        addrs.map fun a => image.lineMap.lookup a

/-- Assembling an instruction's tokens in any state and decoding its words recovers the mnemonic, the
registers and the second word (30_encoding.md R91, R92; 45_assembler.md R210 to R213): RRR, cmp, IRX and
jumps with or without a bracket. A label as displacement or target emits 0 and records a patch request for
the second word (R221). Rests on D3, D4, D6, D39, D51. -/
def Obligations.AssembledInstructionsDecodeBack : Prop :=
  (∀ (s : Asm.AsmState) (mn : Text) (p : Word) (d a b : Reg), (mn, Asm.Family.rrr, p) ∈ Asm.mnemonics →
    let text := regText d ++ ',' :: regText a ++ ',' :: regText b
    let t := (s.pass1 (.token (.opening .rrr p))).pass1 (.token (.arg .rrr text))
    ∃ i : Instr, t.buffer = s.buffer ++ [packNibbles i.op d a b] ∧ t.patches = s.patches ∧
      t.cursor = s.cursor + 1 ∧ decode (packNibbles i.op d a b) 0 = .ok i ∧
      i.row.mnemonic.toList = mn ∧ i.firstWord = packNibbles i.op d a b) ∧
  (∀ (s : Asm.AsmState) (mn : Text) (p : Word) (a b : Reg), (mn, Asm.Family.rr, p) ∈ Asm.mnemonics →
    let t := (s.pass1 (.token (.opening .rr p))).pass1
      (.token (.arg .rr (regText a ++ ',' :: regText b)))
    t.buffer = s.buffer ++ encode (.cmp a b) ∧ t.patches = s.patches ∧ t.cursor = s.cursor + 1 ∧
      (∀ w ∈ encode (.cmp a b), decode w 0 = .ok (.cmp a b)) ∧
      (Instr.cmp a b).row.mnemonic.toList = mn) ∧
  (∀ (s : Asm.AsmState) (mn disp : Text) (p : Word) (d a : Reg) (v : Asm.Value),
    (mn, Asm.Family.irx, p) ∈ Asm.mnemonics → Asm.parseValue disp = some v →
    let text := regText d ++ ',' :: disp ++ bracketText (some a)
    let t := (s.pass1 (.token (.opening .irx p))).pass1 (.token (.arg .irx text))
    ∃ w, EmitsTwo w v s t ∧ dField w = d ∧ aField w = a ∧
      ∀ w2, ∃ i : Instr, decode w w2 = .ok i ∧ encode i = [w, w2] ∧ i.row.mnemonic.toList = mn) ∧
  ∀ (s : Asm.AsmState) (mn target : Text) (p : Word) (n : Option Reg) (v : Asm.Value),
    (mn, p) ∈ Asm.jumpMnemonics → Asm.parseTarget target = some v →
    let t := s.pass1 (.token (.jump (mn ++ ' ' :: target ++ bracketText n)))
    ∃ w, EmitsTwo w v s t ∧ dField w = 0 ∧ aField w = n.getD 0 ∧
      ∀ w2, ∃ i : Instr, decode w w2 = .ok i ∧ encode i = [w, w2] ∧ i.row.mnemonic.toList = mn

/-- A data directive defines its name at the cursor and emits one word: its literal, or 0 with a patch
request for the identifier (45_assembler.md R214, R207, R221). Rests on D37, D42. -/
def Obligations.DataDefinesItsNameAndEmitsOneWord : Prop :=
  ∀ (s : Asm.AsmState) (text name : Text) (v : Asm.Value), Asm.parseData text = some (name, v) →
    let t := s.encodeToken (.data text)
    t.labels.lookup name = some (s.cursor, s.line) ∧
    (∀ other, other ≠ name → t.labels.lookup other = s.labels.lookup other) ∧
    t.cursor = s.cursor + 1 ∧
    match v with
    | .literal w => t.buffer = s.buffer ++ [w] ∧ t.patches = s.patches
    | .label x => t.buffer = s.buffer ++ [0] ∧ PatchRequested x s.cursor s t

/-- The lexer loses nothing: its items' spans follow one another from the first byte to the last
(45_assembler.md R200). That unknown spans are words is log 10. -/
def Obligations.LexerSpansCoverTheText : Prop :=
  ∀ t : Text, t ≠ [] →
    (Asm.lex t).IsChain (fun x y => x.stop = y.start) ∧
    (∃ x, (Asm.lex t).head? = some x ∧ x.start = 0) ∧
    ∃ y, (Asm.lex t).getLast? = some y ∧ y.stop = Asm.byteLength t
end

