-- ==== Sys2Proof/Laws/AsmText.lean ====
section
/-! SUPPORT. What the operand parsers read from a text put together from its parts. -/

namespace Sys2Proof.Asm

open Safety

/-- The parts of a text around the first separator. -/
theorem cut_append (sep : Char) (u v : Text) (h : sep ∉ u) : cut sep (u ++ sep :: v) = some (u, v) := by
  induction u with
  | nil => simp [cut]
  | cons c u ih =>
    rw [List.mem_cons, not_or] at h
    simp [cut, Ne.symm h.1, ih h.2]

theorem cut_none (sep : Char) (u : Text) (h : sep ∉ u) : cut sep u = none := by
  induction u with
  | nil => rfl
  | cons c u ih =>
    rw [List.mem_cons, not_or] at h
    simp [cut, Ne.symm h.1, ih h.2]

@[simp] theorem parseReg_regText (r : Reg) : parseReg (regText r) = some r := by
  revert r; decide

/-- A register's text has none of the characters that separate operands. -/
theorem regText_plain (r : Reg) : ∀ c ∈ regText r, c ≠ ',' ∧ c ≠ '[' ∧ c ≠ ']' ∧ isBlank c = false := by
  have h : (regText r).all (fun c => c != ',' && c != '[' && c != ']' && !isBlank c) = true := by
    revert r; decide
  intro c hc
  simpa [and_assoc] using List.all_eq_true.1 h c hc

theorem regText_ne (r : Reg) (c : Char) (h : c = ',' ∨ c = '[' ∨ c = ']') : c ∉ regText r := by
  intro hc
  obtain ⟨h1, h2, h3, -⟩ := regText_plain r c hc
  rcases h with h | h | h
  · exact h1 h
  · exact h2 h
  · exact h3 h

theorem splitBracket_append (u v : Text) (hu : '[' ∉ u) (hv : ']' ∉ v) :
    splitBracket (u ++ '[' :: v ++ [']']) = some (u, v) := by
  rw [splitBracket, List.append_assoc, List.cons_append, cut_append _ _ _ hu]
  simp only [cut_append ']' v [] hv]

theorem splitBracket_none (u : Text) (hu : '[' ∉ u) : splitBracket u = none := by
  rw [splitBracket, cut_none _ _ hu]

/-- The operands of `Rd,Ra,Rb` (30_encoding.md R91). -/
theorem parseRRR_text (d a b : Reg) :
    parseRRR (regText d ++ ',' :: regText a ++ ',' :: regText b) = some (d, a, b) := by
  have h := fun r => regText_ne r ',' (.inl rfl)
  rw [parseRRR, splitRRR, List.append_assoc, List.cons_append, cut_append _ _ _ (h d)]
  simp only [cut_append ',' _ _ (h a), parseReg_regText]

/-- The operands of `Ra,Rb`. -/
theorem parseRR_text (a b : Reg) : parseRR (regText a ++ ',' :: regText b) = some (a, b) := by
  rw [parseRR, cut_append _ _ _ (regText_ne a ',' (.inl rfl))]
  simp only [parseReg_regText]

/-- The characters of identifiers and literals. -/
def isValueChar (c : Char) : Bool := isIdentChar c || c == '$'

theorem isValueChar_plain {c : Char} (h : isValueChar c = true) :
    c ≠ ',' ∧ c ≠ '[' ∧ c ≠ ']' ∧ isBlank c = false := by
  refine ⟨?_, ?_, ?_, ?_⟩
  · rintro rfl; revert h; decide
  · rintro rfl; revert h; decide
  · rintro rfl; revert h; decide
  · rw [isBlank, Bool.or_eq_false_iff, beq_eq_false_iff_ne, beq_eq_false_iff_ne]
    constructor
    · rintro rfl; revert h; decide
    · rintro rfl; revert h; decide

theorem isIdentifier_chars {t : Text} (h : isIdentifier t = true) : ∀ c ∈ t, isValueChar c = true := by
  cases t with
  | nil => simp
  | cons c cs =>
    simp only [isIdentifier, Bool.and_eq_true, List.all_eq_true] at h
    intro x hx
    rcases List.mem_cons.1 hx with rfl | hx
    · have h1 := h.1.1
      simp only [isIdentStart, Bool.or_eq_true] at h1
      simp only [isValueChar, isIdentChar, Char.isAlphanum, Bool.or_eq_true]
      rcases h1 with h1 | h1
      · exact .inl (.inl (.inl h1))
      · exact .inl (.inr h1)
    · simp only [isValueChar, h.1.2 x hx, Bool.true_or]

theorem isDecimal_chars {t : Text} (h : isDecimal t = true) : ∀ c ∈ t, isValueChar c = true := by
  simp only [isDecimal, Bool.and_eq_true, List.all_eq_true] at h
  intro c hc
  simp [isValueChar, isIdentChar, Char.isAlphanum, h.2 c hc]

theorem hexDigit_char {c : Char} {n : Nat} (h : hexDigit c = some n) : isValueChar c = true := by
  simp only [isValueChar, isIdentChar, Char.isAlphanum, Char.isAlpha, Char.isLower, Char.isUpper,
    Bool.or_eq_true, Bool.and_eq_true, decide_eq_true_eq]
  unfold hexDigit at h
  split at h
  · exact .inl (.inl (.inr ‹_›))
  split at h
  · rename_i hc
    rw [Bool.and_eq_true, decide_eq_true_eq, decide_eq_true_eq] at hc
    exact .inl (.inl (.inl (.inr ⟨hc.1, le_trans hc.2 (by decide)⟩)))
  split at h
  · rename_i hc
    rw [Bool.and_eq_true, decide_eq_true_eq, decide_eq_true_eq] at hc
    exact .inl (.inl (.inl (.inl ⟨hc.1, le_trans hc.2 (by decide)⟩)))
  · cases h

theorem parseHex_chars {t : Text} {w : Word} (h : parseHex t = some w) :
    ∀ c ∈ t, isValueChar c = true := by
  unfold parseHex at h
  split at h
  · split at h
    · rename_i h1 h2 h3 h4
      intro x hx
      simp only [List.mem_cons, List.not_mem_nil, or_false] at hx
      rcases hx with rfl | rfl | rfl | rfl | rfl
      · decide
      · exact hexDigit_char h1
      · exact hexDigit_char h2
      · exact hexDigit_char h3
      · exact hexDigit_char h4
    · cases h
  · cases h

/-- A displacement or data value has no separator (30_encoding.md R90). -/
theorem parseValue_chars {t : Text} {v : Value} (h : parseValue t = some v) :
    ∀ c ∈ t, isValueChar c = true := by
  unfold parseValue at h
  split at h
  · rename_i h1
    unfold parseDecimal at h1
    split at h1
    · rename_i h2
      exact isDecimal_chars (Bool.and_eq_true_iff.1 h2).1
    · cases h1
  · exact parseHex_chars ‹_›
  · split at h
    · exact isIdentifier_chars ‹_›
    · cases h

theorem parseTarget_chars {t : Text} {v : Value} (h : parseTarget t = some v) :
    ∀ c ∈ t, isValueChar c = true := by
  unfold parseTarget at h
  split at h
  · exact parseHex_chars ‹_›
  · split at h
    · exact isIdentifier_chars ‹_›
    · cases h

theorem parseTarget_ne_nil {t : Text} {v : Value} (h : parseTarget t = some v) : t ≠ [] := by
  rintro rfl
  cases h

/-- The operands of `Rd,disp[Ra]` (30_encoding.md R86). -/
theorem parseIRX_text (d a : Reg) {disp : Text} {v : Value} (h : parseValue disp = some v) :
    parseIRX (regText d ++ ',' :: disp ++ bracketText (some a)) = some (d, v, a) := by
  have hc : '[' ∉ disp := fun hm => (isValueChar_plain (parseValue_chars h _ hm)).2.1 rfl
  have hs := splitBracket_append disp (regText a) hc (regText_ne a ']' (.inr (.inr rfl)))
  rw [List.append_assoc] at hs
  rw [parseIRX, splitIRX, List.append_assoc, List.cons_append,
    cut_append _ _ _ (regText_ne d ',' (.inl rfl))]
  simp only [bracketText, hs, parseReg_regText, h]

/-- The operand of a jump, with or without a bracket (30_encoding.md R87). -/
theorem parseJumpOperand_text (n : Option Reg) {target : Text} {v : Value}
    (h : parseTarget target = some v) :
    parseJumpOperand (target ++ bracketText n) = some (v, n) := by
  have hc : '[' ∉ target := fun hm => (isValueChar_plain (parseTarget_chars h _ hm)).2.1 rfl
  cases n with
  | none =>
    rw [bracketText, List.append_nil, parseJumpOperand, splitBracket_none _ hc]
    simp only [h]
  | some n =>
    have hs := splitBracket_append target (regText n) hc (regText_ne n ']' (.inr (.inr rfl)))
    rw [List.append_assoc] at hs
    rw [parseJumpOperand]
    simp only [bracketText, hs, h, parseReg_regText]

theorem wordsFrom_plain (acc u rest : Text) (h : ∀ c ∈ u, isBlank c = false) :
    wordsFrom acc (u ++ rest) = wordsFrom (u.reverse ++ acc) rest := by
  induction u generalizing acc with
  | nil => rfl
  | cons c u ih =>
    rw [List.cons_append, wordsFrom, h c (by simp), if_neg (by simp),
      ih _ fun x hx => h x (by simp [hx])]
    simp

/-- Two words with one space between them. -/
theorem wordsFrom_two (u v : Text) (hu : u ≠ []) (hv : v ≠ []) (hub : ∀ c ∈ u, isBlank c = false)
    (hvb : ∀ c ∈ v, isBlank c = false) : wordsFrom [] (u ++ ' ' :: v) = [u, v] := by
  have h2 := wordsFrom_plain [] v [] hvb
  rw [List.append_nil, List.append_nil] at h2
  rw [wordsFrom_plain [] u _ hub, List.append_nil, wordsFrom, if_pos (by decide), if_neg (by simp [hu]),
    h2, wordsFrom, if_neg (by simp [hv]), List.reverse_reverse, List.reverse_reverse]

/-- A jump mnemonic is a word, and the table gives it one first word. -/
theorem jumpMnemonics_spec : ∀ e ∈ jumpMnemonics,
    e.1 ≠ [] ∧ (∀ c ∈ e.1, isBlank c = false) ∧ jumpMnemonics.lookup e.1 = some e.2 := by
  have h : jumpMnemonics.all (fun e => e.1 != [] && (e.1.all (fun c => !isBlank c) &&
      jumpMnemonics.lookup e.1 == some e.2)) = true := by decide
  intro e he
  simpa using List.all_eq_true.1 h e he

/-- A jump line put together from its parts (43_jumps.md R169). -/
theorem parseJump_text {mn target : Text} {w : Word} {v : Value} (n : Option Reg)
    (hm : (mn, w) ∈ jumpMnemonics) (h : parseTarget target = some v) :
    parseJump (mn ++ ' ' :: target ++ bracketText n) = some (w, v, n) := by
  obtain ⟨h1, h2, h3⟩ := jumpMnemonics_spec _ hm
  have hv : ∀ c ∈ target ++ bracketText n, isBlank c = false := by
    intro c hc
    rcases List.mem_append.1 hc with hc | hc
    · exact (isValueChar_plain (parseTarget_chars h c hc)).2.2.2
    · cases n with
      | none => simp [bracketText] at hc
      | some n =>
        simp only [bracketText, List.mem_cons, List.mem_append, List.not_mem_nil, or_false] at hc
        rcases hc with (rfl | hc) | rfl
        · decide
        · exact (regText_plain n c hc).2.2.2
        · decide
  have hne : target ++ bracketText n ≠ [] := by simp [parseTarget_ne_nil h]
  rw [parseJump, List.append_assoc, List.cons_append, wordsFrom_two _ _ h1 hne h2 hv]
  simp only [h3, parseJumpOperand_text n h]

/-- The registers d and a of a first word, placed (45_assembler.md R212). -/
theorem placeDA_eq (d a : Reg) : placeDA d a = packNibbles 0 d a 0 := by revert d a; decide

/-- Registers placed beside a partial encoding of opcode k and field b (45_assembler.md R209, R210, R212). -/
theorem packNibbles_or (k : BitVec 4) (c d a b : Reg) (h : c = 0 ∨ b = 0) :
    packNibbles k 0 0 c ||| packNibbles 0 d a b = packNibbles k d a (if c = 0 then b else c) := by
  unfold packNibbles
  rw [BitVec.or_append, BitVec.or_append, BitVec.or_append]
  rcases h with rfl | rfl
  · simp
  · by_cases hc : c = 0 <;> simp [hc]

/-- The word of an RRR argument (45_assembler.md R210). -/
theorem rrrWord_eq (p : Word) (d a b : Reg) : rrrWord p d a b = p ||| packNibbles 0 d a b := by
  have h : ∀ b : Reg, packNibbles 0 d a 0 ||| BitVec.ofNat 16 b.val = packNibbles 0 d a b := by
    intro b
    have hb : BitVec.ofNat 16 b.val = packNibbles 0 0 0 b := by revert b; decide
    rw [hb]
    unfold packNibbles
    rw [BitVec.or_append, BitVec.or_append, BitVec.or_append]
    congr 1
    · congr 1
      · congr 1
        exact BitVec.or_zero
      · exact BitVec.or_zero
    · exact BitVec.zero_or
  rw [rrrWord, placeDA_eq, BitVec.or_assoc, h]

end Sys2Proof.Asm
end

