-- ==== Sys2Proof/Laws/Assembler.lean ====
section
/-! SUPPORT. What the assembler's shared operations do: tables, emission, patching, and the lexer's cuts. -/

namespace Sys2Proof.Asm

/-- A table after an assignment: the key has the value, every other key is as before. -/
theorem lookup_assign {α : Type} (k k' : Text) (v : α) (l : List (Text × α)) :
    (assign k v l).lookup k' = if k' = k then some v else l.lookup k' := by
  induction l with
  | nil =>
    by_cases h : k' = k
    · simp [assign, h]
    · simp [assign, List.lookup, beq_false_of_ne h, h]
  | cons e l ih =>
    obtain ⟨k0, v0⟩ := e
    by_cases h0 : k0 = k
    · subst h0
      by_cases h : k' = k0
      · simp [assign, h]
      · simp [assign, List.lookup, beq_false_of_ne h, h]
    · by_cases h : k' = k0
      · subst h
        simp [assign, h0]
      · simp only [assign, h0, if_false, List.lookup, beq_false_of_ne h]
        exact ih

/-- The keys of a table after an assignment. -/
theorem mem_keys_assign {α : Type} (k k' : Text) (v : α) (l : List (Text × α)) :
    k' ∈ (assign k v l).map Prod.fst ↔ k' = k ∨ k' ∈ l.map Prod.fst := by
  induction l with
  | nil => simp [assign]
  | cons e l ih =>
    by_cases h0 : e.1 = k
    · simp [assign, h0]
    · simp only [assign, h0, if_false, List.map_cons, List.mem_cons, ih]
      tauto

/-- A table has each key once, and keeps it so. -/
theorem nodup_assign {α : Type} (k : Text) (v : α) (l : List (Text × α))
    (h : (l.map Prod.fst).Nodup) : ((assign k v l).map Prod.fst).Nodup := by
  induction l with
  | nil => simp [assign]
  | cons e l ih =>
    rw [List.map_cons, List.nodup_cons] at h
    by_cases h0 : e.1 = k
    · simp only [assign, h0, if_true, List.map_cons, List.nodup_cons]
      exact ⟨h0 ▸ h.1, h.2⟩
    · simp only [assign, h0, if_false, List.map_cons, List.nodup_cons, mem_keys_assign, not_or]
      exact ⟨⟨not_false, h.1⟩, ih h.2⟩

@[simp] theorem AsmState.report_buffer (s : AsmState) (ks : List ErrorKind) : (s.report ks).buffer = s.buffer := rfl
@[simp] theorem AsmState.report_cursor (s : AsmState) (ks : List ErrorKind) : (s.report ks).cursor = s.cursor := rfl
@[simp] theorem AsmState.report_line (s : AsmState) (ks : List ErrorKind) : (s.report ks).line = s.line := rfl
@[simp] theorem AsmState.report_last (s : AsmState) (ks : List ErrorKind) : (s.report ks).last = s.last := rfl
@[simp] theorem AsmState.report_labels (s : AsmState) (ks : List ErrorKind) : (s.report ks).labels = s.labels := rfl
@[simp] theorem AsmState.report_patches (s : AsmState) (ks : List ErrorKind) : (s.report ks).patches = s.patches := rfl
@[simp] theorem AsmState.report_haltIndex (s : AsmState) (ks : List ErrorKind) : (s.report ks).haltIndex = s.haltIndex := rfl
@[simp] theorem AsmState.report_lineMap (s : AsmState) (ks : List ErrorKind) : (s.report ks).lineMap = s.lineMap := rfl

/-- Emitting a literal (45_assembler.md R214). -/
theorem AsmState.emitValue_literal (s : AsmState) (w : Word) : s.emitValue (.literal w) = s.emit w := rfl

/-- Emitting a label: the placeholder 0 and one more request for it (R221). -/
theorem AsmState.emitValue_label (s : AsmState) (name : Text) :
    (s.emitValue (.label name)).buffer = s.buffer ++ [0] ∧
    (s.emitValue (.label name)).cursor = s.cursor + 1 ∧
    ∀ k, (s.emitValue (.label name)).patches.lookup k =
      if k = name then some ((s.patches.lookup name).getD [] ++ [s.cursor]) else s.patches.lookup k :=
  ⟨rfl, rfl, fun k => lookup_assign name k _ _⟩

/-- Patching keeps the length of the buffer (R241). -/
theorem patchAll_length (w : Word) (ps : List Nat) (b : List Word) :
    (patchAll w ps b).length = b.length := by
  induction ps generalizing b with
  | nil => rfl
  | cons p ps ih => exact (ih (b.set p w)).trans (List.length_set ..)

/-- Patching writes the word at every listed address of the buffer and nowhere else (R241). -/
theorem patchAll_getElem? (w : Word) (ps : List Nat) (b : List Word) (k : Nat) (hk : k < b.length) :
    (patchAll w ps b)[k]? = if k ∈ ps then some w else b[k]? := by
  induction ps generalizing b with
  | nil => simp [patchAll]
  | cons p ps ih =>
    have : patchAll w (p :: ps) b = patchAll w ps (b.set p w) := rfl
    rw [this, ih (b.set p w) (by simpa using hk)]
    by_cases h : k = p
    · subst h; simp [hk]
    · simp [h, List.getElem?_set_ne (Ne.symm h)]

/-- A word and what follows it are the text. -/
theorem takeWord_append (t : Text) : (takeWord t).1 ++ (takeWord t).2 = t := by
  induction t with
  | nil => rfl
  | cons c t ih =>
    unfold takeWord
    split
    · rfl
    · simpa using ih

theorem takeBlanks_append (t : Text) : (takeBlanks t).1 ++ (takeBlanks t).2 = t := by
  induction t with
  | nil => rfl
  | cons c t ih =>
    unfold takeBlanks
    split
    · simpa using ih
    · rfl

theorem takeStatement_append (t : Text) : (takeStatement t).1 ++ (takeStatement t).2 = t := by
  induction t with
  | nil => rfl
  | cons c t ih =>
    unfold takeStatement
    split
    · rfl
    · simpa using ih

theorem takeLine_append (t : Text) : (takeLine t).1 ++ (takeLine t).2 = t := by
  induction t with
  | nil => rfl
  | cons c t ih =>
    unfold takeLine
    split
    · rfl
    · simpa using ih

end Sys2Proof.Asm
end

