-- ==== Sys2Proof/Laws/Decode.lean ====
section
/-! SUPPORT. The fields of a first word and of a packed word. -/

namespace Sys2Proof

theorem packNibbles_toNat (op : BitVec 4) (d a b : Reg) :
    (packNibbles op d a b).toNat = op.toNat * 4096 + d.val * 256 + a.val * 16 + b.val := by
  have hor : ∀ {n : Nat} (x : BitVec n) (y : BitVec 4),
      (x ++ y).toNat = x.toNat * 16 + y.toNat := by
    intro n x y
    rw [BitVec.toNat_append, ← Nat.shiftLeft_add_eq_or_of_lt y.isLt, Nat.shiftLeft_eq]
  unfold packNibbles
  rw [hor, hor, hor]
  show ((op.toNat * 16 + d.val) * 16 + a.val) * 16 + b.val = _
  omega

/-- The fields as quotients and remainders of the word. -/
theorem opField_toNat (ir : Word) : (opField ir).toNat = ir.toNat / 4096 := by
  have := ir.isLt
  simp only [opField, BitVec.extractLsb'_toNat, Nat.shiftRight_eq_div_pow]
  omega

theorem dField_val (ir : Word) : (dField ir).val = ir.toNat / 256 % 16 := by
  simp [dField, BitVec.extractLsb', Nat.shiftRight_eq_div_pow]

theorem aField_val (ir : Word) : (aField ir).val = ir.toNat / 16 % 16 := by
  simp [aField, BitVec.extractLsb', Nat.shiftRight_eq_div_pow]

theorem bField_val (ir : Word) : (bField ir).val = ir.toNat % 16 := by
  simp [bField, BitVec.extractLsb']

@[simp] theorem opField_packNibbles (op : BitVec 4) (d a b : Reg) :
    opField (packNibbles op d a b) = op := by
  apply BitVec.eq_of_toNat_eq
  rw [opField_toNat, packNibbles_toNat]
  omega

@[simp] theorem dField_packNibbles (op : BitVec 4) (d a b : Reg) :
    dField (packNibbles op d a b) = d := by
  apply Fin.ext
  rw [dField_val, packNibbles_toNat]
  omega

@[simp] theorem aField_packNibbles (op : BitVec 4) (d a b : Reg) :
    aField (packNibbles op d a b) = a := by
  apply Fin.ext
  rw [aField_val, packNibbles_toNat]
  omega

@[simp] theorem bField_packNibbles (op : BitVec 4) (d a b : Reg) :
    bField (packNibbles op d a b) = b := by
  apply Fin.ext
  rw [bField_val, packNibbles_toNat]
  omega

/-- A first word is its four fields (30_encoding.md R71). -/
theorem packNibbles_fields (ir : Word) :
    packNibbles (opField ir) (dField ir) (aField ir) (bField ir) = ir := by
  apply BitVec.eq_of_toNat_eq
  rw [packNibbles_toNat, opField_toNat, dField_val, aField_val, bField_val]
  omega

/-- Decoding a packed word: the operands are its nibbles. -/
theorem decode_packNibbles (op : BitVec 4) (d a b : Reg) (w2 : Word) :
    decode (packNibbles op d a b) w2 =
      match op.toNat with
      | 0x0 => .ok (.add d a b)
      | 0x1 => .ok (.sub d a b)
      | 0x2 => .ok (.mul d a b)
      | 0x3 => .ok (.div d a b)
      | 0x4 => .ok (.cmp a b)
      | 0x5 => .ok (.addc d a b)
      | 0x6 => .ok (.muln d a b)
      | 0x7 => .ok (.divn d a b)
      | 0xC => .ok (.trap d a b)
      | 0xF => decodeIRX (packNibbles op d a b) w2
      | _ => .error (.opcode (packNibbles op d a b)) := by
  have h := decode.eq_1 (packNibbles op d a b) w2
  rw [opField_packNibbles, dField_packNibbles, aField_packNibbles, bField_packNibbles] at h
  exact h

theorem isTwoWords_iff (ir : Word) : isTwoWords ir = true ↔ ir.toNat / 4096 = 15 := by
  rw [isTwoWords, beq_iff_eq, ← opField_toNat]
  exact ⟨fun h => by rw [h]; rfl, fun h => BitVec.eq_of_toNat_eq h⟩

end Sys2Proof
end

