-- ==== Sys2Proof/Laws/Memory.lean ====
section
/-! SUPPORT. Memory and address sets: read after write, the canonical form and that every operation
keeps it, equality by reads, membership. -/

namespace Sys2Proof.Machine

/-! ### Canonical form -/

theorem Memory.wfFrom_cons {lo a : Nat} {v : Word} {m : Memory} :
    Memory.wfFrom lo ((a, v) :: m) = true ↔
      lo ≤ a ∧ a < 65536 ∧ v ≠ Memory.unlisted ∧ Memory.wfFrom (a + 1) m = true := by
  simp [Memory.wfFrom, and_assoc]

theorem Memory.wfFrom_mono {lo lo' : Nat} {m : Memory} (hlo : lo' ≤ lo)
    (h : Memory.wfFrom lo m = true) : Memory.wfFrom lo' m = true := by
  cases m with
  | nil => rfl
  | cons e m =>
    obtain ⟨h1, h2, h3, h4⟩ := Memory.wfFrom_cons.1 h
    exact Memory.wfFrom_cons.2 ⟨le_trans hlo h1, h2, h3, h4⟩

/-- An address below a canonical list is not listed. -/
theorem Memory.read_below {lo n : Nat} {m : Memory} (h : Memory.wfFrom lo m = true) (hn : n < lo) :
    m.read n = Memory.unlisted := by
  induction m generalizing lo with
  | nil => rfl
  | cons e m ih =>
    obtain ⟨h1, -, -, h4⟩ := Memory.wfFrom_cons.1 h
    have hne : e.1 ≠ n := by omega
    simp only [Memory.read, hne, if_false]
    exact ih h4 (by omega)

theorem Memory.put_wf {lo n : Nat} {v : Word} {m : Memory} (hlo : lo ≤ n) (hn : n < 65536)
    (h : Memory.wfFrom (n + 1) m = true) : Memory.wfFrom lo (Memory.put n v m) = true := by
  unfold Memory.put
  split
  · exact Memory.wfFrom_mono (by omega) h
  · exact Memory.wfFrom_cons.2 ⟨hlo, hn, ‹_›, h⟩

theorem Memory.write_wfFrom {lo n : Nat} {v : Word} {m : Memory} (h : Memory.wfFrom lo m = true)
    (hlo : lo ≤ n) (hn : n < 65536) : Memory.wfFrom lo (m.write n v) = true := by
  induction m generalizing lo with
  | nil => exact Memory.put_wf hlo hn rfl
  | cons e m ih =>
    obtain ⟨h1, h2, h3, h4⟩ := Memory.wfFrom_cons.1 h
    simp only [Memory.write]
    split
    · exact Memory.put_wf hlo hn (Memory.wfFrom_cons.2 ⟨by omega, h2, h3, h4⟩)
    · split
      · subst_vars; exact Memory.put_wf hlo hn h4
      · exact Memory.wfFrom_cons.2 ⟨h1, h2, h3, ih h4 (by omega)⟩

/-- A write to an address of the space keeps the canonical form. -/
theorem Memory.write_wf {m : Memory} {n : Nat} {v : Word} (h : m.wf = true) (hn : n < 65536) :
    (m.write n v).wf = true := Memory.write_wfFrom h (Nat.zero_le n) hn

theorem Memory.ofWords_wfFrom {lo base : Nat} {ws : List Word} (hlo : lo ≤ base)
    (h : base + ws.length ≤ 65536) : Memory.wfFrom lo (Memory.ofWords base ws) = true := by
  induction ws generalizing lo base with
  | nil => rfl
  | cons w ws ih =>
    simp only [List.length_cons] at h
    exact Memory.put_wf hlo (by omega) (ih (le_refl _) (by omega))

/-- A loaded image is in canonical form when it fits (70_reset_and_hazards.md R291, R292). -/
theorem Memory.ofWords_wf {ws : List Word} (h : ws.length ≤ 65536) :
    (Memory.ofWords 0 ws).wf = true := Memory.ofWords_wfFrom (le_refl 0) (by omega)

/-! ### Reads -/

theorem Memory.read_put {n k lo : Nat} {v : Word} {m : Memory} (h : Memory.wfFrom lo m = true)
    (hlo : n < lo) : (Memory.put n v m).read k = if k = n then v else m.read k := by
  unfold Memory.put
  by_cases hv : v = Memory.unlisted
  · rw [if_pos hv]
    split
    · subst_vars; exact Memory.read_below h hlo
    · rfl
  · rw [if_neg hv]
    simp only [Memory.read, eq_comm]

/-- Read after write: the written address reads as the value, every other address as before. -/
theorem Memory.read_writeFrom {lo n k : Nat} {v : Word} {m : Memory}
    (h : Memory.wfFrom lo m = true) :
    (m.write n v).read k = if k = n then v else m.read k := by
  induction m generalizing lo with
  | nil => exact Memory.read_put (lo := n + 1) rfl (Nat.lt_succ_self n)
  | cons e m ih =>
    obtain ⟨a, w⟩ := e
    obtain ⟨h1, h2, h3, h4⟩ := Memory.wfFrom_cons.1 h
    simp only [Memory.write]
    split
    · exact Memory.read_put (lo := a) (Memory.wfFrom_cons.2 ⟨le_refl _, h2, h3, h4⟩) ‹_›
    · split
      · subst_vars
        rw [Memory.read_put h4 (Nat.lt_succ_self _)]
        by_cases hk : k = a
        · simp [hk]
        · simp [hk, Memory.read, Ne.symm hk]
      · simp only [Memory.read, ih h4]
        by_cases hk : a = k
        · subst hk; simp; omega
        · simp [hk]

theorem Memory.read_write {m : Memory} (h : m.wf = true) (n k : Nat) (v : Word) :
    (m.write n v).read k = if k = n then v else m.read k := Memory.read_writeFrom h

/-- A write leaves every other address alone, in any memory. -/
theorem Memory.read_write_of_ne {m : Memory} {n k : Nat} (v : Word) (hk : k ≠ n) :
    (m.write n v).read k = m.read k := by
  have hput : ∀ m : Memory, (Memory.put n v m).read k = m.read k := by
    intro m; unfold Memory.put; split
    · rfl
    · simp [Memory.read, Ne.symm hk]
  induction m with
  | nil => exact hput []
  | cons e m ih =>
    simp only [Memory.write]
    split
    · exact hput _
    · split
      · subst_vars; simp [hput, Memory.read, Ne.symm hk]
      · simp only [Memory.read, ih]

/-- Canonical memories that read alike at every address of the space are equal. -/
theorem Memory.ext_from {lo : Nat} {m m' : Memory} (h : Memory.wfFrom lo m = true)
    (h' : Memory.wfFrom lo m' = true) (heq : ∀ n, lo ≤ n → n < 65536 → m.read n = m'.read n) :
    m = m' := by
  induction m generalizing lo m' with
  | nil =>
    cases m' with
    | nil => rfl
    | cons e m' =>
      obtain ⟨h1, h2, h3, -⟩ := Memory.wfFrom_cons.1 h'
      have := heq e.1 h1 h2
      simp only [Memory.read, if_true] at this
      exact absurd this.symm h3
  | cons e m ih =>
    obtain ⟨h1, h2, h3, h4⟩ := Memory.wfFrom_cons.1 h
    cases m' with
    | nil =>
      have := heq e.1 h1 h2
      simp only [Memory.read, if_true] at this
      exact absurd this h3
    | cons e' m' =>
      obtain ⟨h1', h2', h3', h4'⟩ := Memory.wfFrom_cons.1 h'
      obtain ⟨a, v⟩ := e
      obtain ⟨a', v'⟩ := e'
      have ha : a = a' := by
        rcases Nat.lt_trichotomy a a' with hlt | heq' | hgt
        · have := heq a h1 h2
          simp only [Memory.read, if_true] at this
          rw [if_neg (by omega), Memory.read_below h4' (by omega)] at this
          exact absurd this h3
        · exact heq'
        · have := heq a' h1' h2'
          simp only [Memory.read, if_true] at this
          rw [if_neg (by omega), Memory.read_below h4 (by omega)] at this
          exact absurd this.symm h3'
      subst ha
      have hv : v = v' := by simpa [Memory.read] using heq a h1 h2
      subst hv
      rw [ih h4 h4' fun n hn hn' => by
        have := heq n (by omega) hn'
        simpa [Memory.read, show a ≠ n by omega] using this]

theorem Memory.ext_of_wf {m m' : Memory} (h : m.wf = true) (h' : m'.wf = true)
    (heq : ∀ a : Word, m.read a.toNat = m'.read a.toNat) : m = m' :=
  Memory.ext_from h h' fun n _ hn => by
    simpa [BitVec.toNat_ofNat, Nat.mod_eq_of_lt hn] using heq (BitVec.ofNat 16 n)

/-- Word i of an image reads back at address base + i, and everything else as unlisted (R291). -/
theorem Memory.read_ofWords {base : Nat} {ws : List Word} (h : base + ws.length ≤ 65536) (n : Nat) :
    (Memory.ofWords base ws).read n =
      if base ≤ n then (ws[n - base]?).getD Memory.unlisted else Memory.unlisted := by
  induction ws generalizing base with
  | nil => simp [Memory.ofWords, Memory.read]
  | cons w ws ih =>
    simp only [List.length_cons] at h
    rw [Memory.ofWords, Memory.read_put (Memory.ofWords_wfFrom (le_refl _) (by omega))
      (Nat.lt_succ_self base), ih (by omega)]
    by_cases hn : n = base
    · subst hn; simp
    · rcases Nat.lt_or_ge n base with hlt | hge
      · simp [hn, show ¬base + 1 ≤ n by omega, show ¬base ≤ n by omega]
      · obtain ⟨k, rfl⟩ : ∃ k, n = base + 1 + k := ⟨n - (base + 1), by omega⟩
        simp [hn, show base ≤ base + 1 + k by omega, show base + 1 + k - base = k + 1 by omega]

/-! ### Address sets -/

theorem AddrSet.wfFrom_cons {lo a : Nat} {t : AddrSet} :
    AddrSet.wfFrom lo (a :: t) = true ↔ lo ≤ a ∧ a < 65536 ∧ AddrSet.wfFrom (a + 1) t = true := by
  simp [AddrSet.wfFrom, and_assoc]

@[simp] theorem AddrSet.mem_insert {n k : Nat} {t : AddrSet} :
    k ∈ AddrSet.insert n t ↔ k = n ∨ k ∈ t := by
  induction t with
  | nil => simp [AddrSet.insert]
  | cons a t ih =>
    simp only [AddrSet.insert]
    split
    · simp
    · split
      · subst_vars; simp
      · simp only [List.mem_cons, ih]; tauto

theorem AddrSet.insert_wfFrom {lo n : Nat} {t : AddrSet} (h : AddrSet.wfFrom lo t = true)
    (hlo : lo ≤ n) (hn : n < 65536) : AddrSet.wfFrom lo (AddrSet.insert n t) = true := by
  induction t generalizing lo with
  | nil => exact AddrSet.wfFrom_cons.2 ⟨hlo, hn, rfl⟩
  | cons a t ih =>
    obtain ⟨h1, h2, h3⟩ := AddrSet.wfFrom_cons.1 h
    simp only [AddrSet.insert]
    split
    · exact AddrSet.wfFrom_cons.2 ⟨hlo, hn, AddrSet.wfFrom_cons.2 ⟨by omega, h2, h3⟩⟩
    · split
      · exact h
      · exact AddrSet.wfFrom_cons.2 ⟨h1, h2, ih h3 (by omega)⟩

/-- Recording an address keeps a set sorted and in range (10_state.md R37). -/
theorem AddrSet.insert_wf {n : Nat} {t : AddrSet} (h : AddrSet.wf t = true) (hn : n < 65536) :
    AddrSet.wf (AddrSet.insert n t) = true := AddrSet.insert_wfFrom h (Nat.zero_le n) hn

theorem AddrSet.ofWords_wf (ws : List Word) : AddrSet.wf (AddrSet.ofWords ws) = true := by
  induction ws with
  | nil => rfl
  | cons w ws ih => exact AddrSet.insert_wf ih w.isLt

theorem AddrSet.range'_wfFrom {lo base k : Nat} (hlo : lo ≤ base) (h : base + k ≤ 65536) :
    AddrSet.wfFrom lo (List.range' base k) = true := by
  induction k generalizing lo base with
  | zero => rfl
  | succ k ih =>
    exact AddrSet.wfFrom_cons.2 ⟨hlo, by omega, ih (le_refl _) (by omega)⟩

/-- The `used` set of a loaded image (70_reset_and_hazards.md R291). -/
theorem AddrSet.range_wf {k : Nat} (h : k ≤ 65536) : AddrSet.wf (List.range k) = true := by
  rw [List.range_eq_range']
  exact AddrSet.range'_wfFrom (le_refl 0) (by omega)

theorem AddrSet.lt_of_mem {lo n : Nat} {t : AddrSet} (h : AddrSet.wfFrom lo t = true)
    (hn : n ∈ t) : n < 65536 := by
  induction t generalizing lo with
  | nil => simp at hn
  | cons a t ih =>
    obtain ⟨-, h2, h3⟩ := AddrSet.wfFrom_cons.1 h
    rcases List.mem_cons.1 hn with rfl | hm
    · exact h2
    · exact ih h3 hm

end Sys2Proof.Machine
end

