-- ==== Sys2Proof/Laws/State.lean ====
section
/-! SUPPORT. One lemma per field per update of State. -/

namespace Sys2Proof.Machine

@[simp] theorem State.touchReg_regs (s : State) (i : Reg) : (s.touchReg i).regs = s.regs := rfl
@[simp] theorem State.touchReg_regAltered (s : State) (i : Reg) : (s.touchReg i).regAltered = s.regAltered := rfl
@[simp] theorem State.touchReg_regAccessed (s : State) (i : Reg) : (s.touchReg i).regAccessed = s.regAccessed.set i true := rfl
@[simp] theorem State.touchReg_pc (s : State) (i : Reg) : (s.touchReg i).pc = s.pc := rfl
@[simp] theorem State.touchReg_rs (s : State) (i : Reg) : (s.touchReg i).rs = s.rs := rfl
@[simp] theorem State.touchReg_mem (s : State) (i : Reg) : (s.touchReg i).mem = s.mem := rfl
@[simp] theorem State.touchReg_used (s : State) (i : Reg) : (s.touchReg i).used = s.used := rfl
@[simp] theorem State.touchReg_accessed (s : State) (i : Reg) : (s.touchReg i).accessed = s.accessed := rfl
@[simp] theorem State.touchReg_symbols (s : State) (i : Reg) : (s.touchReg i).symbols = s.symbols := rfl
@[simp] theorem State.touchReg_display (s : State) (i : Reg) : (s.touchReg i).display = s.display := rfl
@[simp] theorem State.touchReg_history (s : State) (i : Reg) : (s.touchReg i).history = s.history := rfl
@[simp] theorem State.touchReg_freeCount (s : State) (i : Reg) : (s.touchReg i).freeCount = s.freeCount := rfl

@[simp] theorem State.setReg_regAccessed (s : State) (i : Reg) (v : Word) : (s.setReg i v).regAccessed = s.regAccessed := by
  unfold State.setReg; split <;> rfl
@[simp] theorem State.setReg_pc (s : State) (i : Reg) (v : Word) : (s.setReg i v).pc = s.pc := by
  unfold State.setReg; split <;> rfl
@[simp] theorem State.setReg_rs (s : State) (i : Reg) (v : Word) : (s.setReg i v).rs = s.rs := by
  unfold State.setReg; split <;> rfl
@[simp] theorem State.setReg_mem (s : State) (i : Reg) (v : Word) : (s.setReg i v).mem = s.mem := by
  unfold State.setReg; split <;> rfl
@[simp] theorem State.setReg_used (s : State) (i : Reg) (v : Word) : (s.setReg i v).used = s.used := by
  unfold State.setReg; split <;> rfl
@[simp] theorem State.setReg_accessed (s : State) (i : Reg) (v : Word) : (s.setReg i v).accessed = s.accessed := by
  unfold State.setReg; split <;> rfl
@[simp] theorem State.setReg_symbols (s : State) (i : Reg) (v : Word) : (s.setReg i v).symbols = s.symbols := by
  unfold State.setReg; split <;> rfl
@[simp] theorem State.setReg_display (s : State) (i : Reg) (v : Word) : (s.setReg i v).display = s.display := by
  unfold State.setReg; split <;> rfl
@[simp] theorem State.setReg_history (s : State) (i : Reg) (v : Word) : (s.setReg i v).history = s.history := by
  unfold State.setReg; split <;> rfl
@[simp] theorem State.setReg_freeCount (s : State) (i : Reg) (v : Word) : (s.setReg i v).freeCount = s.freeCount := by
  unfold State.setReg; split <;> rfl

@[simp] theorem State.touchMem_regs (s : State) (a : Word) : (s.touchMem a).regs = s.regs := rfl
@[simp] theorem State.touchMem_regAltered (s : State) (a : Word) : (s.touchMem a).regAltered = s.regAltered := rfl
@[simp] theorem State.touchMem_regAccessed (s : State) (a : Word) : (s.touchMem a).regAccessed = s.regAccessed := rfl
@[simp] theorem State.touchMem_pc (s : State) (a : Word) : (s.touchMem a).pc = s.pc := rfl
@[simp] theorem State.touchMem_rs (s : State) (a : Word) : (s.touchMem a).rs = s.rs := rfl
@[simp] theorem State.touchMem_mem (s : State) (a : Word) : (s.touchMem a).mem = s.mem := rfl
@[simp] theorem State.touchMem_used (s : State) (a : Word) : (s.touchMem a).used = AddrSet.insert a.toNat s.used := rfl
@[simp] theorem State.touchMem_accessed (s : State) (a : Word) : (s.touchMem a).accessed = AddrSet.insert a.toNat s.accessed := rfl
@[simp] theorem State.touchMem_symbols (s : State) (a : Word) : (s.touchMem a).symbols = s.symbols := rfl
@[simp] theorem State.touchMem_display (s : State) (a : Word) : (s.touchMem a).display = s.display := rfl
@[simp] theorem State.touchMem_history (s : State) (a : Word) : (s.touchMem a).history = s.history := rfl
@[simp] theorem State.touchMem_freeCount (s : State) (a : Word) : (s.touchMem a).freeCount = s.freeCount := rfl

@[simp] theorem State.pokeMem_regs (s : State) (n : Nat) (v : Word) : (s.pokeMem n v).regs = s.regs := rfl
@[simp] theorem State.pokeMem_regAltered (s : State) (n : Nat) (v : Word) : (s.pokeMem n v).regAltered = s.regAltered := rfl
@[simp] theorem State.pokeMem_regAccessed (s : State) (n : Nat) (v : Word) : (s.pokeMem n v).regAccessed = s.regAccessed := rfl
@[simp] theorem State.pokeMem_pc (s : State) (n : Nat) (v : Word) : (s.pokeMem n v).pc = s.pc := rfl
@[simp] theorem State.pokeMem_rs (s : State) (n : Nat) (v : Word) : (s.pokeMem n v).rs = s.rs := rfl
@[simp] theorem State.pokeMem_mem (s : State) (n : Nat) (v : Word) : (s.pokeMem n v).mem = s.mem.write n v := rfl
@[simp] theorem State.pokeMem_used (s : State) (n : Nat) (v : Word) : (s.pokeMem n v).used = s.used := rfl
@[simp] theorem State.pokeMem_accessed (s : State) (n : Nat) (v : Word) : (s.pokeMem n v).accessed = s.accessed := rfl
@[simp] theorem State.pokeMem_symbols (s : State) (n : Nat) (v : Word) : (s.pokeMem n v).symbols = s.symbols := rfl
@[simp] theorem State.pokeMem_display (s : State) (n : Nat) (v : Word) : (s.pokeMem n v).display = s.display := rfl
@[simp] theorem State.pokeMem_history (s : State) (n : Nat) (v : Word) : (s.pokeMem n v).history = s.history := rfl
@[simp] theorem State.pokeMem_freeCount (s : State) (n : Nat) (v : Word) : (s.pokeMem n v).freeCount = s.freeCount := rfl

@[simp] theorem State.setPc_regs (s : State) (t : Word) : (s.setPc t).regs = s.regs := rfl
@[simp] theorem State.setPc_regAltered (s : State) (t : Word) : (s.setPc t).regAltered = s.regAltered := rfl
@[simp] theorem State.setPc_regAccessed (s : State) (t : Word) : (s.setPc t).regAccessed = s.regAccessed := rfl
@[simp] theorem State.setPc_pc (s : State) (t : Word) : (s.setPc t).pc = t := rfl
@[simp] theorem State.setPc_rs (s : State) (t : Word) : (s.setPc t).rs = s.rs := rfl
@[simp] theorem State.setPc_mem (s : State) (t : Word) : (s.setPc t).mem = s.mem := rfl
@[simp] theorem State.setPc_used (s : State) (t : Word) : (s.setPc t).used = s.used := rfl
@[simp] theorem State.setPc_accessed (s : State) (t : Word) : (s.setPc t).accessed = s.accessed := rfl
@[simp] theorem State.setPc_symbols (s : State) (t : Word) : (s.setPc t).symbols = s.symbols := rfl
@[simp] theorem State.setPc_display (s : State) (t : Word) : (s.setPc t).display = s.display := rfl
@[simp] theorem State.setPc_history (s : State) (t : Word) : (s.setPc t).history = s.history := rfl
@[simp] theorem State.setPc_freeCount (s : State) (t : Word) : (s.setPc t).freeCount = s.freeCount := rfl

@[simp] theorem State.setRs_regs (s : State) (r : RunState) : (s.setRs r).regs = s.regs := rfl
@[simp] theorem State.setRs_regAltered (s : State) (r : RunState) : (s.setRs r).regAltered = s.regAltered := rfl
@[simp] theorem State.setRs_regAccessed (s : State) (r : RunState) : (s.setRs r).regAccessed = s.regAccessed := rfl
@[simp] theorem State.setRs_pc (s : State) (r : RunState) : (s.setRs r).pc = s.pc := rfl
@[simp] theorem State.setRs_rs (s : State) (r : RunState) : (s.setRs r).rs = r := rfl
@[simp] theorem State.setRs_mem (s : State) (r : RunState) : (s.setRs r).mem = s.mem := rfl
@[simp] theorem State.setRs_used (s : State) (r : RunState) : (s.setRs r).used = s.used := rfl
@[simp] theorem State.setRs_accessed (s : State) (r : RunState) : (s.setRs r).accessed = s.accessed := rfl
@[simp] theorem State.setRs_symbols (s : State) (r : RunState) : (s.setRs r).symbols = s.symbols := rfl
@[simp] theorem State.setRs_display (s : State) (r : RunState) : (s.setRs r).display = s.display := rfl
@[simp] theorem State.setRs_history (s : State) (r : RunState) : (s.setRs r).history = s.history := rfl
@[simp] theorem State.setRs_freeCount (s : State) (r : RunState) : (s.setRs r).freeCount = s.freeCount := rfl

@[simp] theorem State.resetAccessed_regs (s : State) : (s.resetAccessed).regs = s.regs := rfl
@[simp] theorem State.resetAccessed_regAltered (s : State) : (s.resetAccessed).regAltered = s.regAltered := rfl
@[simp] theorem State.resetAccessed_regAccessed (s : State) : (s.resetAccessed).regAccessed = s.regAccessed := rfl
@[simp] theorem State.resetAccessed_pc (s : State) : (s.resetAccessed).pc = s.pc := rfl
@[simp] theorem State.resetAccessed_rs (s : State) : (s.resetAccessed).rs = s.rs := rfl
@[simp] theorem State.resetAccessed_mem (s : State) : (s.resetAccessed).mem = s.mem := rfl
@[simp] theorem State.resetAccessed_used (s : State) : (s.resetAccessed).used = s.used := rfl
@[simp] theorem State.resetAccessed_accessed (s : State) : (s.resetAccessed).accessed = [] := rfl
@[simp] theorem State.resetAccessed_symbols (s : State) : (s.resetAccessed).symbols = s.symbols := rfl
@[simp] theorem State.resetAccessed_display (s : State) : (s.resetAccessed).display = s.display := rfl
@[simp] theorem State.resetAccessed_history (s : State) : (s.resetAccessed).history = s.history := rfl
@[simp] theorem State.resetAccessed_freeCount (s : State) : (s.resetAccessed).freeCount = s.freeCount := rfl

end Sys2Proof.Machine
end

