-- ==== Sys2Proof/Laws/Ops.lean ====
section
/-! SUPPORT. What the shared operations do: registers, memory accesses, fetch, and the frames of the
operations that finish an instruction. -/

namespace Sys2Proof.Machine

open Safety

/-! ### Registers -/

@[simp] theorem State.reg_zero (s : State) : s.reg 0 = 0 := rfl

@[simp] theorem State.reg_touchReg (s : State) (i j : Reg) : (s.touchReg i).reg j = s.reg j := rfl

@[simp] theorem State.reg_touchMem (s : State) (a : Word) (j : Reg) :
    (s.touchMem a).reg j = s.reg j := rfl

@[simp] theorem State.reg_pokeMem (s : State) (n : Nat) (v : Word) (j : Reg) :
    (s.pokeMem n v).reg j = s.reg j := rfl

@[simp] theorem State.reg_setPc (s : State) (t : Word) (j : Reg) : (s.setPc t).reg j = s.reg j := rfl

@[simp] theorem State.reg_setRs (s : State) (r : RunState) (j : Reg) :
    (s.setRs r).reg j = s.reg j := rfl

@[simp] theorem State.reg_resetAccessed (s : State) (j : Reg) :
    s.resetAccessed.reg j = s.reg j := rfl

/-- Read after write of a register: R0 discards (10_state.md R22). -/
theorem State.reg_setReg (s : State) (i j : Reg) (v : Word) :
    (s.setReg i v).reg j = if j = i ∧ i ≠ 0 then v else s.reg j := by
  unfold State.setReg State.reg
  by_cases hi : i = 0
  · simp [hi]
  · by_cases hj : j = i
    · subst hj; simp [hi]
    · have : (j : Nat) ≠ i := fun h => hj (Fin.ext h)
      simp [hi, hj, Ne.symm this]

/-- A stored write sets the mark, a discarded one does not (R22, R27). -/
theorem State.regAltered_setReg (s : State) (i j : Reg) (v : Word) :
    (s.setReg i v).regAltered[j] = (s.regAltered[j] || (decide (i ≠ 0) && decide (j = i))) := by
  unfold State.setReg
  by_cases hi : i = 0
  · simp [hi]
  · by_cases hj : j = i
    · subst hj; simp [hi]
    · have : (j : Nat) ≠ i := fun h => hj (Fin.ext h)
      simp [hi, hj, Ne.symm this]

theorem State.regAccessed_touchReg' (s : State) (i j : Reg) :
    (s.touchReg i).regAccessed[j] = (s.regAccessed[j] || decide (j = i)) := by
  unfold State.touchReg
  by_cases hj : j = i
  · subst hj; simp
  · have : (j : Nat) ≠ i := fun h => hj (Fin.ext h)
    simp [hj, Ne.symm this]

/-- The register slots: a write of R0 changes none. -/
theorem State.regs_setReg (s : State) (i j : Reg) (v : Word) :
    (s.setReg i v).regs[j] = if j = i ∧ i ≠ 0 then v else s.regs[j] := by
  unfold State.setReg
  by_cases hi : i = 0
  · simp [hi]
  · by_cases hj : j = i
    · subst hj; simp [hi]
    · have : (j : Nat) ≠ i := fun h => hj (Fin.ext h)
      simp [hi, hj, Ne.symm this]

/-! ### Memory words -/

@[simp] theorem State.word_touchReg (s : State) (i : Reg) (a : Word) :
    (s.touchReg i).word a = s.word a := rfl

@[simp] theorem State.word_touchMem (s : State) (b a : Word) :
    (s.touchMem b).word a = s.word a := rfl

@[simp] theorem State.word_setPc (s : State) (t a : Word) : (s.setPc t).word a = s.word a := rfl

@[simp] theorem State.word_setRs (s : State) (r : RunState) (a : Word) :
    (s.setRs r).word a = s.word a := rfl

@[simp] theorem State.word_resetAccessed (s : State) (a : Word) :
    s.resetAccessed.word a = s.word a := rfl

@[simp] theorem State.word_setReg (s : State) (i : Reg) (v a : Word) :
    (s.setReg i v).word a = s.word a := by
  unfold State.word; rw [State.setReg_mem]

/-- A stored word reads back, in a canonical memory (20_memory.md R51, R52). -/
theorem State.word_memWrite_same (s : State) (a v : Word) (h : s.mem.wf = true) :
    (s.memWrite a v).word a = v := by
  simp [State.memWrite, State.word, Memory.read_write h]

/-- Every other word is unchanged. -/
theorem State.word_memWrite_other (s : State) (a v : Word) {b : Word} (hb : b ≠ a) :
    (s.memWrite a v).word b = s.word b := by
  simp only [State.memWrite, State.word, State.touchMem_mem, State.pokeMem_mem]
  exact Memory.read_write_of_ne v fun h => hb (BitVec.eq_of_toNat_eq h)

/-! ### Fetch -/

/-- A one-word fetch: the state after it (R102, R103). -/
theorem State.fetch_one (s : State) (h : isTwoWords (s.word s.pc) = false) :
    s.fetch = (s.word s.pc, 0, (s.touchMem s.pc).setPc (s.pc + 1)) := by
  simp [State.fetch, State.fetchWord, State.memRead, h]

/-- A two-word fetch: the state after it (R104). -/
theorem State.fetch_two (s : State) (h : isTwoWords (s.word s.pc) = true) :
    s.fetch = (s.word s.pc, s.word (s.pc + 1),
      (((s.touchMem s.pc).setPc (s.pc + 1)).touchMem (s.pc + 1)).setPc (s.pc + 1 + 1)) := by
  simp [State.fetch, State.fetchWord, State.memRead, h]

end Sys2Proof.Machine

namespace Sys2Proof.Safety

open Machine

/-! ### Register frames -/

theorem RegsFrame.refl (s : State) : RegsFrame [] [] s s := by
  constructor <;> simp

/-- One more read sets one more mark. -/
theorem RegsFrame.touch {reads writes : List Reg} {s t : State} (h : RegsFrame reads writes s t)
    (i : Reg) : RegsFrame (i :: reads) writes s (t.touchReg i) where
  others := h.others
  zero := rfl
  altered := h.altered
  accessed j := by
    rw [State.regAccessed_touchReg', h.accessed j, List.contains_cons, Bool.beq_eq_decide_eq]
    cases s.regAccessed[j] <;> cases decide (j = i) <;> cases reads.contains j <;> rfl

/-- One more write. -/
theorem RegsFrame.set {reads writes : List Reg} {s t : State} (h : RegsFrame reads writes s t)
    (i : Reg) (v : Word) : RegsFrame reads (i :: writes) s (t.setReg i v) where
  others j hj := by
    rw [List.mem_cons, not_or] at hj
    rw [State.reg_setReg, if_neg (by simp [hj.1]), h.others j hj.2]
  zero := rfl
  altered j := by
    rw [State.regAltered_setReg, h.altered j, List.contains_cons, Bool.beq_eq_decide_eq]
    by_cases hj : j = i
    · subst hj
      by_cases hz : j = 0 <;> simp [hz]
    · simp [hj]
  accessed := by simpa using h.accessed

/-- A frame depends on the members of its lists only. -/
theorem RegsFrame.congr {r r' w w' : List Reg} {s t : State} (h : RegsFrame r w s t)
    (hr : ∀ i, r.contains i = r'.contains i) (hw : ∀ i, w.contains i = w'.contains i) :
    RegsFrame r' w' s t where
  others i hi := h.others i fun hm => hi (by simpa [hm] using (hw i).symm)
  zero := h.zero
  altered i := by rw [h.altered, hw]
  accessed i := by rw [h.accessed, hr]

/-- Writing values read from the same registers is a frame of the state before. -/
theorem RegsFrame.trans_regs {r w : List Reg} {s t u : State} (h : RegsFrame r w s t)
    (h1 : ∀ i, u.reg i = t.reg i) (h2 : u.regAltered = t.regAltered)
    (h3 : u.regAccessed = t.regAccessed) : RegsFrame r w s u where
  others i hi := by rw [h1, h.others i hi]
  zero := rfl
  altered i := by rw [h2, h.altered]
  accessed i := by rw [h3, h.accessed]

theorem SameMemory.refl (s : State) : SameMemory s s := ⟨fun _ => rfl, rfl, rfl⟩

theorem SameHostData.refl (s : State) : SameHostData s s := ⟨rfl, rfl, rfl, rfl⟩

theorem SameMemory.touch {s t : State} (h : SameMemory s t) (i : Reg) :
    SameMemory s (t.touchReg i) := ⟨h.words, h.used, h.accessed⟩

theorem SameHostData.touch {s t : State} (h : SameHostData s t) (i : Reg) :
    SameHostData s (t.touchReg i) := ⟨h.symbols, h.display, h.history, h.freeCount⟩

end Sys2Proof.Safety

namespace Sys2Proof.Machine

open Safety

/-! ### The operations that finish an instruction -/

@[simp] theorem State.reg_touchSources (s : State) (a b j : Reg) :
    (s.touchSources a b).reg j = s.reg j := rfl

@[simp] theorem State.word_touchSources (s : State) (a b : Reg) (x : Word) :
    (s.touchSources a b).word x = s.word x := rfl

theorem State.touchSources_frame (s : State) (a b : Reg) :
    RegsFrame [a, b] [] s (s.touchSources a b) :=
  (((RegsFrame.refl s).touch a).touch b).congr
    (fun i => by simp [Bool.or_comm]) (fun _ => rfl)

/-- add, sub, addc and mul: R15 ends with the flag word; Rd holds the result unless it is R0 or R15 (R121). -/
theorem State.writeRdThenR15_spec {reads : List Reg} {s u : State} (d : Reg) (o : RdR15)
    (hr : RegsFrame reads [] s u) (hm : SameMemory s u) (hh : SameHostData s u)
    (hpc : u.pc = s.pc) (hrs : u.rs = s.rs) :
    ∃ t, u.writeRdThenR15 d o = .next t ∧ RegisterOnly reads [d, 15] s t ∧
      t.reg 15 = o.r15 ∧ (d ≠ 0 → d ≠ 15 → t.reg d = o.rd) := by
  refine ⟨_, rfl, ⟨?_, ⟨?_, ?_, ?_⟩, ⟨?_, ?_, ?_, ?_⟩, ?_, ?_⟩, ?_, ?_⟩
  · exact ((hr.set d o.rd).set 15 o.r15).congr (fun _ => rfl) fun i => by simp [Bool.or_comm]
  all_goals simp [hm.words, hm.used, hm.accessed, hh.symbols, hh.display, hh.history,
    hh.freeCount, hpc, hrs, State.reg_setReg]
  intro h0 h15
  simp [h0, h15]

/-- div, divn and muln: Rd ends with its value even for d = 15; R15 holds the other unless d = 15 (R121). -/
theorem State.writeR15ThenRd_spec {reads : List Reg} {s u : State} (d : Reg) (o : RdR15)
    (hr : RegsFrame reads [] s u) (hm : SameMemory s u) (hh : SameHostData s u)
    (hpc : u.pc = s.pc) (hrs : u.rs = s.rs) :
    ∃ t, u.writeR15ThenRd d o = .next t ∧ RegisterOnly reads [d, 15] s t ∧
      (d ≠ 0 → t.reg d = o.rd) ∧ (d ≠ 15 → t.reg 15 = o.r15) := by
  refine ⟨_, rfl, ⟨?_, ⟨?_, ?_, ?_⟩, ⟨?_, ?_, ?_, ?_⟩, ?_, ?_⟩, ?_, ?_⟩
  · exact (hr.set 15 o.r15).set d o.rd
  all_goals simp [hm.words, hm.used, hm.accessed, hh.symbols, hh.display, hh.history,
    hh.freeCount, hpc, hrs, State.reg_setReg]
  · intro h0 h; exact absurd h h0
  · intro h h'; exact absurd h'.symm h

/-- `raise Error`: the run-state is Error and nothing else changed (40_controller.md R107, R108). -/
theorem raiseError_spec {reads : List Reg} {s u : State} (r : Fault) (hr : RegsFrame reads [] s u)
    (hm : SameMemory s u) (hh : SameHostData s u) (hpc : u.pc = s.pc) :
    ∃ t, raiseError r u = .next t ∧ FaultedFrom reads s t :=
  ⟨_, rfl, rfl, hr.trans_regs (fun _ => rfl) rfl rfl, ⟨hm.words, hm.used, hm.accessed⟩,
    ⟨hh.symbols, hh.display, hh.history, hh.freeCount⟩, hpc⟩

/-- A jump: pc is the target when taken and as after the fetch when not (43_jumps.md R160 to R168). -/
theorem State.jumpWhen_spec {reads : List Reg} {s u : State} (taken : Bool) (a : Reg) (w2 : Word)
    (hr : RegsFrame reads [] s u) (hm : SameMemory s u) (hh : SameHostData s u)
    (hpc : u.pc = s.pc) (hrs : u.rs = s.rs) :
    ∃ t, u.jumpWhen taken a w2 = .next t ∧ PcOnly (a :: reads) s t ∧
      t.pc = if taken then jumpTarget Config.params (s.reg a) w2 else s.pc := by
  have hreg : u.reg a = s.reg a := hr.others a (by simp)
  refine ⟨_, rfl, ⟨?_, ⟨?_, ?_, ?_⟩, ⟨?_, ?_, ?_, ?_⟩, ?_⟩, ?_⟩
  · exact (hr.touch a).trans_regs (fun _ => by cases taken <;> rfl) (by cases taken <;> rfl)
      (by cases taken <;> rfl)
  all_goals cases taken <;>
    simp [hm.words, hm.used, hm.accessed, hh.symbols, hh.display, hh.history, hh.freeCount, hpc,
      hrs, State.target, hreg]

end Sys2Proof.Machine
end

