-- ==== Sys2Proof/Laws/Exec.lean ====
section
/-! SUPPORT. What one instruction may do, said once: every change of a register or a word is tracked,
the canonical forms are kept, and host data is untouched. -/

namespace Sys2Proof.Machine

open Safety

/-- What holds between the states before and after any instruction. -/
structure Effect (s t : State) : Prop where
  slot : ∀ i : Reg, t.regs[i] ≠ s.regs[i] → t.regAltered[i] = true
  slotZero : t.regs[0] = s.regs[0]
  altered : ∀ i : Reg, s.regAltered[i] = true → t.regAltered[i] = true
  alteredZero : t.regAltered[0] = s.regAltered[0]
  word : ∀ a : Word, t.word a ≠ s.word a → a.toNat ∈ t.accessed
  accessed : ∀ n ∈ s.accessed, n ∈ t.accessed
  memWf : s.mem.wf = true → t.mem.wf = true
  usedWf : AddrSet.wf s.used = true → AddrSet.wf t.used = true
  accessedWf : AddrSet.wf s.accessed = true → AddrSet.wf t.accessed = true
  host : SameHostData s t

theorem Effect.refl (s : State) : Effect s s := by
  constructor <;> simp [SameHostData.refl]

theorem Effect.trans {s t u : State} (h1 : Effect s t) (h2 : Effect t u) : Effect s u where
  slot i h := by
    by_cases ht : t.regs[i] = s.regs[i]
    · exact h2.slot i (ht ▸ h)
    · exact h2.altered i (h1.slot i ht)
  slotZero := h2.slotZero.trans h1.slotZero
  altered i h := h2.altered i (h1.altered i h)
  alteredZero := h2.alteredZero.trans h1.alteredZero
  word a h := by
    by_cases ht : t.word a = s.word a
    · exact h2.word a (ht ▸ h)
    · exact h2.accessed _ (h1.word a ht)
  accessed n h := h2.accessed n (h1.accessed n h)
  memWf h := h2.memWf (h1.memWf h)
  usedWf h := h2.usedWf (h1.usedWf h)
  accessedWf h := h2.accessedWf (h1.accessedWf h)
  host := ⟨h2.host.symbols.trans h1.host.symbols, h2.host.display.trans h1.host.display,
    h2.host.history.trans h1.host.history, h2.host.freeCount.trans h1.host.freeCount⟩

/-- An update that changes neither register slots, altered marks, words nor sets, nor host data. -/
theorem Effect.of_same {s t : State} (hr : t.regs = s.regs) (ha : t.regAltered = s.regAltered)
    (hm : t.mem = s.mem) (hu : t.used = s.used) (hc : t.accessed = s.accessed)
    (hh : SameHostData s t) : Effect s t where
  slot i h := absurd (by rw [hr]) h
  slotZero := by rw [hr]
  altered i h := by rw [ha]; exact h
  alteredZero := by rw [ha]
  word a h := absurd (by rw [State.word, hm]; rfl) h
  accessed n h := by rw [hc]; exact h
  memWf h := by rw [hm]; exact h
  usedWf h := by rw [hu]; exact h
  accessedWf h := by rw [hc]; exact h
  host := hh

theorem Effect.touchReg (s : State) (i : Reg) : Effect s (s.touchReg i) :=
  Effect.of_same rfl rfl rfl rfl rfl ⟨rfl, rfl, rfl, rfl⟩

theorem Effect.setPc (s : State) (t : Word) : Effect s (s.setPc t) :=
  Effect.of_same rfl rfl rfl rfl rfl ⟨rfl, rfl, rfl, rfl⟩

theorem Effect.setRs (s : State) (r : RunState) : Effect s (s.setRs r) :=
  Effect.of_same rfl rfl rfl rfl rfl ⟨rfl, rfl, rfl, rfl⟩

theorem Effect.setReg (s : State) (i : Reg) (v : Word) : Effect s (s.setReg i v) where
  slot j h := by
    rw [State.regs_setReg] at h
    rw [State.regAltered_setReg]
    by_cases hj : j = i ∧ i ≠ 0
    · simp [hj.1, hj.2]
    · rw [if_neg hj] at h; exact absurd rfl h
  slotZero := by
    have h := State.regs_setReg s i 0 v
    rw [if_neg fun h => h.2 h.1.symm] at h
    exact h
  altered j h := by rw [State.regAltered_setReg, h, Bool.true_or]
  alteredZero := by
    have h := State.regAltered_setReg s i 0 v
    have : (decide (i ≠ 0) && decide ((0 : Reg) = i)) = false := by
      by_cases hi : i = 0
      · simp [hi]
      · simp [Ne.symm hi]
    rw [this, Bool.or_false] at h
    exact h
  word a h := absurd (State.word_setReg s i v a) h
  accessed n h := by simpa using h
  memWf h := by simpa using h
  usedWf h := by simpa using h
  accessedWf h := by simpa using h
  host := by constructor <;> simp

theorem Effect.touchMem (s : State) (a : Word) : Effect s (s.touchMem a) where
  slot _ h := absurd rfl h
  slotZero := rfl
  altered _ h := h
  alteredZero := rfl
  word _ h := absurd rfl h
  accessed _ h := AddrSet.mem_insert.2 (.inr h)
  memWf h := h
  usedWf h := AddrSet.insert_wf h a.isLt
  accessedWf h := AddrSet.insert_wf h a.isLt
  host := ⟨rfl, rfl, rfl, rfl⟩

theorem Effect.memWrite (s : State) (a v : Word) : Effect s (s.memWrite a v) where
  slot _ h := absurd rfl h
  slotZero := rfl
  altered _ h := h
  alteredZero := rfl
  word b h := by
    by_cases hb : b = a
    · exact AddrSet.mem_insert.2 (.inl (by rw [hb]))
    · exact absurd (State.word_memWrite_other s a v hb) h
  accessed _ h := AddrSet.mem_insert.2 (.inr h)
  memWf h := Memory.write_wf h a.isLt
  usedWf h := AddrSet.insert_wf h a.isLt
  accessedWf h := AddrSet.insert_wf h a.isLt
  host := ⟨rfl, rfl, rfl, rfl⟩

theorem Effect.touchSources (s : State) (a b : Reg) : Effect s (s.touchSources a b) :=
  (Effect.touchReg s a).trans (Effect.touchReg _ b)

theorem Effect.of_writeRdThenR15 {s t u : State} {d : Reg} {o : RdR15} (h : Effect s u)
    (ht : u.writeRdThenR15 d o = .next t) : Effect s t := by
  cases ht
  exact h.trans ((Effect.setReg u d _).trans (Effect.setReg _ 15 _))

theorem Effect.of_writeR15ThenRd {s t u : State} {d : Reg} {o : RdR15} (h : Effect s u)
    (ht : u.writeR15ThenRd d o = .next t) : Effect s t := by
  cases ht
  exact h.trans ((Effect.setReg u 15 _).trans (Effect.setReg _ d _))

theorem Effect.of_raiseError {s t u : State} {r : Fault} (h : Effect s u)
    (ht : raiseError r u = .next t) : Effect s t := by
  cases ht
  exact h.trans (Effect.setRs u .error)

theorem Effect.of_jumpWhen {s t u : State} {taken : Bool} {a : Reg} {w2 : Word} (h : Effect s u)
    (ht : u.jumpWhen taken a w2 = .next t) : Effect s t := by
  cases ht
  cases taken
  · exact h.trans (Effect.touchReg u a)
  · exact h.trans ((Effect.touchReg u a).trans (Effect.setPc _ _))

/-- Every instruction that answers a next state has the effect above and no other kind. -/
theorem exec_effect {i : Instr} {s t : State} (h : exec i s = .next t) : Effect s t := by
  cases i with
  | add d a b => exact (Effect.touchSources s a b).of_writeRdThenR15 h
  | sub d a b => exact (Effect.touchSources s a b).of_writeRdThenR15 h
  | mul d a b => exact (Effect.touchSources s a b).of_writeRdThenR15 h
  | div d a b =>
    simp only [exec, execDiv] at h
    split at h
    · exact (Effect.touchSources s a b).of_raiseError h
    · exact (Effect.touchSources s a b).of_writeR15ThenRd h
  | cmp a b =>
    cases h
    exact (Effect.touchSources s a b).trans (Effect.setReg _ _ _)
  | addc d a b =>
    exact ((Effect.touchSources s a b).trans (Effect.touchReg _ 15)).of_writeRdThenR15 h
  | muln d a b =>
    exact ((Effect.touchSources s a b).trans (Effect.touchReg _ 15)).of_writeR15ThenRd h
  | divn d a b =>
    simp only [exec, execDivn] at h
    split at h
    · exact ((Effect.touchSources s a b).trans (Effect.touchReg _ 15)).of_raiseError h
    · exact ((Effect.touchSources s a b).trans (Effect.touchReg _ 15)).of_writeR15ThenRd h
  | trap d a b =>
    simp only [exec, execTrap] at h
    split at h
    · cases h; exact (Effect.touchReg s _).trans (Effect.setRs _ _)
    · split at h
      · cases h; exact (Effect.touchReg s _).trans (Effect.setRs _ _)
      · split at h
        · exact (Effect.touchReg s _).of_raiseError h
        · cases h; exact Effect.touchReg s _
  | lea d a w2 => cases h; exact (Effect.touchReg s a).trans (Effect.setReg _ _ _)
  | load d a w2 =>
    cases h
    exact ((Effect.touchReg s a).trans (Effect.touchMem _ _)).trans (Effect.setReg _ _ _)
  | store d a w2 =>
    cases h
    exact ((Effect.touchReg s a).trans (Effect.touchReg _ d)).trans (Effect.memWrite _ _ _)
  | jump a w2 => exact (Effect.refl s).of_jumpWhen h
  | jumplt a w2 => exact (Effect.touchReg s 15).of_jumpWhen h
  | jumple a w2 => exact (Effect.touchReg s 15).of_jumpWhen h
  | jumpeq a w2 => exact (Effect.touchReg s 15).of_jumpWhen h
  | jumpne a w2 => exact (Effect.touchReg s 15).of_jumpWhen h
  | jumpge a w2 => exact (Effect.touchReg s 15).of_jumpWhen h
  | jumpgt a w2 => exact (Effect.touchReg s 15).of_jumpWhen h

/-- The fetch has the same kind of effect. -/
theorem fetch_effect (s : State) : Effect s s.fetch.2.2 := by
  cases h : isTwoWords (s.word s.pc)
  · rw [State.fetch_one s h]
    exact (Effect.touchMem s _).trans (Effect.setPc _ _)
  · rw [State.fetch_two s h]
    exact (((Effect.touchMem s _).trans (Effect.setPc _ _)).trans (Effect.touchMem _ _)).trans
      (Effect.setPc _ _)

/-- An executing step has that effect on the state whose `accessed` set it emptied (R102); another step
changes nothing (R101). -/
theorem step_effect {s t : State} (h : step s = .next t) :
    (s.rs.executes = false ∧ t = s) ∨ (s.rs.executes = true ∧ Effect s.resetAccessed t) := by
  unfold step at h
  split at h
  · refine .inr ⟨‹_›, ?_⟩
    simp only at h
    split at h
    · exact (fetch_effect _).trans (exec_effect h)
    · exact (fetch_effect _).of_raiseError h
  · cases h; exact .inl ⟨Bool.eq_false_iff.2 ‹_›, rfl⟩

/-- The reset state meets the memory's canonical form. -/
theorem reset_mem_wf : State.reset.mem.wf = true := rfl

end Sys2Proof.Machine
end

