-- ==== Sys2Proof/Laws/Flags.lean ====
section
/-! SUPPORT. What the flag computations and address sums give, bit by bit. -/

namespace Sys2Proof.Machine

open Safety

/-- Each bit of a flag word is its argument, and bits 15..8 are zero (10_state.md R28). -/
theorem flagWord_spec (g gU eq l lt ovS ovU cy : Bool) :
    FlagWordIs (flagWord g gU eq l lt ovS ovU cy) (g = true) (gU = true) (eq = true) (l = true)
      (lt = true) (ovS = true) (ovU = true) (cy = true) := by
  constructor <;> (revert g gU eq l lt ovS ovU cy; decide)

theorem flagWord_or (g gU eq l lt ovS ovU cy : Bool) :
    flagWord g gU eq l lt false false false ||| flagWord false false false false false ovS ovU cy =
      flagWord g gU eq l lt ovS ovU cy := by
  revert g gU eq l lt ovS ovU cy; decide

/-- The comparison flag word (10_state.md R29). -/
theorem cmpFlags_spec (x y : Word) :
    FlagWordIs (cmpFlags Config.params x y) (y.toInt < x.toInt) (y.toNat < x.toNat) (x = y)
      (x.toInt < y.toInt) (x.toNat < y.toNat) False False False := by
  simpa [cmpFlags] using
    flagWord_spec (decide (y.toInt < x.toInt)) (decide (y.toNat < x.toNat)) (decide (x = y))
      (decide (x.toInt < y.toInt)) (decide (x.toNat < y.toNat)) false false false

/-- The arithmetic flag word (10_state.md R30). -/
theorem arithFlags_spec (r : Word) (ovS ovU cy : Bool) :
    ArithFlagsAre (arithFlags Config.params r ovS ovU cy) r (ovS = true) (ovU = true)
      (cy = true) := by
  have hw : arithFlags Config.params r ovS ovU cy =
      flagWord (decide (0 < r.toInt)) (decide (0 < r.toNat)) (decide (r = 0))
        (decide (r.toInt < 0)) false ovS ovU cy := by
    simp [arithFlags, cmpFlags, flagWord_or]
  have h0 : r = 0 ↔ r.toNat = 0 := by rw [← BitVec.toNat_inj]; rfl
  have h := flagWord_spec (decide (0 < r.toInt)) (decide (0 < r.toNat)) (decide (r = 0))
    (decide (r.toInt < 0)) false ovS ovU cy
  simp only [decide_eq_true_eq, h0, Nat.pos_iff_ne_zero, Bool.false_eq_true] at h
  rw [hw]
  simpa only [ArithFlagsAre, h0, Nat.pos_iff_ne_zero] using h

theorem overflowsSigned_iff (n : Int) : overflowsSigned n = true ↔ OutsideSigned n := by
  simp only [overflowsSigned, OutsideSigned, Bool.not_eq_true', Bool.and_eq_false_iff,
    decide_eq_false_iff_not]
  omega

theorem trunc16_natCast (n : Nat) : trunc16 (n : Int) = BitVec.ofNat 16 n := by simp [trunc16]

/-- The effective address (42_load_store.md R150). -/
theorem effectiveAddress_spec (base w2 : Word) :
    AddressIs base w2 (effectiveAddress Config.params base w2) := by
  have h1 := base.isLt
  have h2 := w2.isLt
  constructor <;> intro h
  · simp only [effectiveAddress, if_neg (Nat.not_lt.2 h), BitVec.toNat_ofNat]
    omega
  · simp only [effectiveAddress, if_pos h, Config.params, BitVec.toNat_ofNat]
    omega

/-- The jump target under the default parameters is the effective address (43_jumps.md R160). -/
theorem jumpTarget_eq (base w2 : Word) :
    jumpTarget Config.params base w2 = effectiveAddress Config.params base w2 := by
  simp only [jumpTarget, effectiveAddress, Config.params, Nat.add_comm]

/-- The marks after the reads of two sources and of R15. -/
theorem State.touchSourcesR15_frame (s : State) (a b : Reg) :
    RegsFrame [a, b, 15] [] s ((s.touchSources a b).touchReg 15) :=
  ((State.touchSources_frame s a b).touch 15).congr
    (fun i => by simp [Bool.or_comm, Bool.or_assoc]) (fun _ => rfl)

end Sys2Proof.Machine
end

