-- ==== Sys2Proof/Laws/History.lean ====
section
/-! SUPPORT. What undo's register and memory writes do. -/

namespace Sys2Proof.Machine

theorem State.restoreRegs_cons (s : State) (e : Reg × Word) (l : List (Reg × Word)) :
    s.restoreRegs (e :: l) = (s.setReg e.1 e.2).restoreRegs l := rfl

theorem State.restoreMem_cons (s : State) (e : Nat × Word) (l : List (Nat × Word)) :
    s.restoreMem (e :: l) = (s.pokeMem e.1 e.2).restoreMem l := rfl

/-- Register restores touch neither memory nor host data. -/
theorem State.restoreRegs_frame (l : List (Reg × Word)) : ∀ s : State,
    (s.restoreRegs l).mem = s.mem ∧ (s.restoreRegs l).history = s.history ∧
    (s.restoreRegs l).symbols = s.symbols ∧ (s.restoreRegs l).display = s.display ∧
    (s.restoreRegs l).freeCount = s.freeCount := by
  induction l with
  | nil => intro s; simp [State.restoreRegs]
  | cons e l ih =>
    intro s
    have := ih (s.setReg e.1 e.2)
    rw [State.restoreRegs_cons]; simpa using this

/-- Memory restores touch neither registers nor host data. -/
theorem State.restoreMem_frame (l : List (Nat × Word)) : ∀ s : State,
    (s.restoreMem l).regs = s.regs ∧ (s.restoreMem l).history = s.history ∧
    (s.restoreMem l).symbols = s.symbols ∧ (s.restoreMem l).display = s.display ∧
    (s.restoreMem l).freeCount = s.freeCount := by
  induction l with
  | nil => intro s; simp [State.restoreMem]
  | cons e l ih =>
    intro s
    have := ih (s.pokeMem e.1 e.2)
    rw [State.restoreMem_cons]; simpa using this

/-- A register slot that is not listed, or R0's, is unchanged. -/
theorem State.restoreRegs_other (l : List (Reg × Word)) (i : Reg) : ∀ s : State,
    (i ∉ l.map Prod.fst ∨ i = 0) → (s.restoreRegs l).regs[i] = s.regs[i] := by
  induction l with
  | nil => intro s _; rfl
  | cons e l ih =>
    intro s h
    rw [State.restoreRegs_cons, ih, State.regs_setReg, if_neg]
    · rintro ⟨rfl, h0⟩
      rcases h with h | h
      · simp at h
      · exact h0 h
    · rcases h with h | h
      · left; intro h'; exact h (by simp only [List.map_cons, List.mem_cons]; exact .inr h')
      · exact .inr h

/-- A listed register takes its value, unless it is R0. -/
theorem State.restoreRegs_mem (l : List (Reg × Word)) : ∀ s : State, (l.map Prod.fst).Nodup →
    ∀ e ∈ l, e.1 ≠ 0 → (s.restoreRegs l).regs[e.1] = e.2 := by
  induction l with
  | nil => simp
  | cons e l ih =>
    intro s hn e' he h0
    rw [List.map_cons, List.nodup_cons] at hn
    rw [State.restoreRegs_cons]
    rcases List.mem_cons.1 he with rfl | he
    · rw [State.restoreRegs_other _ _ _ (.inl hn.1), State.regs_setReg, if_pos ⟨rfl, h0⟩]
    · exact ih _ hn.2 e' he h0

/-- Memory restores over existing addresses keep the canonical form. -/
theorem State.restoreMem_wf (l : List (Nat × Word)) : ∀ s : State, s.mem.wf = true →
    (∀ e ∈ l, e.1 < 65536) → (s.restoreMem l).mem.wf = true := by
  induction l with
  | nil => intro s h _; exact h
  | cons e l ih =>
    intro s h hl
    rw [State.restoreMem_cons]
    exact ih _ (Memory.write_wf h (hl e (by simp))) fun e' he' => hl e' (by simp [he'])

/-- An address that is not listed is unchanged. -/
theorem State.restoreMem_other (l : List (Nat × Word)) (k : Nat) : ∀ s : State,
    k ∉ l.map Prod.fst → (s.restoreMem l).mem.read k = s.mem.read k := by
  induction l with
  | nil => intro s _; rfl
  | cons e l ih =>
    intro s h
    rw [List.map_cons, List.mem_cons, not_or] at h
    rw [State.restoreMem_cons, ih _ h.2, State.pokeMem_mem, Memory.read_write_of_ne _ h.1]

/-- A listed address takes its value. -/
theorem State.restoreMem_mem (l : List (Nat × Word)) : ∀ s : State, s.mem.wf = true →
    (l.map Prod.fst).Nodup → (∀ e ∈ l, e.1 < 65536) →
    ∀ e ∈ l, (s.restoreMem l).mem.read e.1 = e.2 := by
  induction l with
  | nil => simp
  | cons e l ih =>
    intro s hw hn hl e' he
    rw [List.map_cons, List.nodup_cons] at hn
    rw [State.restoreMem_cons]
    rcases List.mem_cons.1 he with rfl | he
    · rw [State.restoreMem_other _ _ _ hn.1, State.pokeMem_mem, Memory.read_write hw, if_pos rfl]
    · exact ih _ (Memory.write_wf hw (hl e (by simp))) hn.2
        (fun e' he' => hl e' (by simp [he'])) e' he

/-- Equal slots read as equal registers. -/
theorem State.reg_of_slot {s t : State} {i : Reg} (h : t.regs[i] = s.regs[i]) :
    t.reg i = s.reg i := by
  unfold State.reg
  split
  · rfl
  · exact h

theorem AddrSet.nodup_of_wf {lo : Nat} {t : AddrSet} (h : AddrSet.wfFrom lo t = true) :
    t.Nodup ∧ ∀ n ∈ t, lo ≤ n := by
  induction t generalizing lo with
  | nil => simp
  | cons a t ih =>
    obtain ⟨h1, h2, h3⟩ := AddrSet.wfFrom_cons.1 h
    obtain ⟨i1, i2⟩ := ih h3
    constructor
    · rw [List.nodup_cons]
      exact ⟨fun hm => by have := i2 a hm; omega, i1⟩
    · intro n hn
      rcases List.mem_cons.1 hn with rfl | hn
      · exact h1
      · have := i2 n hn; omega

end Sys2Proof.Machine
end

