-- ==== Sys2Proof/Laws/Pass1.lean ====
section
/-! SUPPORT. What pass 1 keeps: the cursor, the line map, the halt word's place and the patch requests. -/

namespace Sys2Proof.Asm

/-- What holds between the tables of the assembler during pass 1. -/
structure Pass1Inv (s : AsmState) : Prop where
  cursor : s.cursor = s.buffer.length
  lineMap : s.lineMap.map Prod.fst = List.range s.buffer.length
  halt : ∀ c, s.haltIndex = some c → s.buffer[c]? = some haltWord
  haltUnpatched : ∀ c, s.haltIndex = some c → ∀ e ∈ s.patches, c ∉ e.2
  patchPlace : ∀ e ∈ s.patches, ∀ p ∈ e.2, p < s.buffer.length
  patchSome : ∀ e ∈ s.patches, e.2 ≠ []
  labelKeys : (s.labels.map Prod.fst).Nodup
  patchKeys : (s.patches.map Prod.fst).Nodup
  disjoint : ∀ e ∈ s.patches, ∀ e' ∈ s.patches, ∀ p, p ∈ e.2 → p ∈ e'.2 → e.1 = e'.1
  kinds : ∀ e ∈ s.errors, e.kind ≠ .missingHalt ∧ e.kind ≠ .unresolvedLabel

theorem Pass1Inv.initial : Pass1Inv AsmState.initial := by
  constructor <;> simp [AsmState.initial]

theorem Pass1Inv.report {s : AsmState} (h : Pass1Inv s) {ks : List ErrorKind}
    (hk : ∀ k ∈ ks, k ≠ .missingHalt ∧ k ≠ .unresolvedLabel) : Pass1Inv (s.report ks) where
  cursor := h.cursor
  lineMap := h.lineMap
  halt := h.halt
  haltUnpatched := h.haltUnpatched
  patchPlace := h.patchPlace
  patchSome := h.patchSome
  labelKeys := h.labelKeys
  patchKeys := h.patchKeys
  disjoint := h.disjoint
  kinds e he := by
    rcases List.mem_append.1 he with he | he
    · exact h.kinds e he
    · obtain ⟨k, hk', rfl⟩ := List.mem_map.1 he
      exact hk k hk'

theorem Pass1Inv.define {s : AsmState} (h : Pass1Inv s) (name : Text) : Pass1Inv (s.define name) where
  cursor := h.cursor
  lineMap := h.lineMap
  halt := h.halt
  haltUnpatched := h.haltUnpatched
  patchPlace := h.patchPlace
  patchSome := h.patchSome
  labelKeys := nodup_assign name _ _ h.labelKeys
  patchKeys := h.patchKeys
  disjoint := h.disjoint
  kinds := h.kinds

/-- Words already emitted keep their places. -/
theorem getElem?_append_of_some {b : List Word} {c : Nat} {v : Word} (w : Word)
    (h : b[c]? = some v) : (b ++ [w])[c]? = some v := by
  obtain ⟨hc, -⟩ := List.getElem?_eq_some_iff.1 h
  rw [List.getElem?_append_left hc, h]

theorem Pass1Inv.emit {s : AsmState} (h : Pass1Inv s) (w : Word) : Pass1Inv (s.emit w) where
  cursor := by simp [AsmState.emit, h.cursor]
  lineMap := by simp [AsmState.emit, h.lineMap, h.cursor, List.range_succ]
  halt c hc := getElem?_append_of_some w (h.halt c hc)
  haltUnpatched := h.haltUnpatched
  patchPlace e he p hp := by
    have := h.patchPlace e he p hp
    simp only [AsmState.emit, List.length_append, List.length_singleton]
    omega
  patchSome := h.patchSome
  labelKeys := h.labelKeys
  patchKeys := h.patchKeys
  disjoint := h.disjoint
  kinds := h.kinds

/-- The RRR word with its halt noted (45_assembler.md R210). -/
theorem Pass1Inv.noteHalt_emit {s : AsmState} (h : Pass1Inv s) (w : Word) :
    Pass1Inv ((s.noteHalt w).emit w) := by
  unfold AsmState.noteHalt
  split
  · rename_i hw
    have he := h.emit w
    refine ⟨he.cursor, he.lineMap, ?_, ?_, he.patchPlace, he.patchSome, he.labelKeys, he.patchKeys, he.disjoint,
      he.kinds⟩
    · intro c hc
      cases hc
      show (s.buffer ++ [w])[s.cursor]? = _
      rw [h.cursor, hw.1]
      simp
    · intro c hc e he' hp
      cases hc
      have := h.patchPlace e he' _ hp
      rw [h.cursor] at this
      omega
  · exact h.emit w

theorem mem_assign {α : Type} {k : Text} {v : α} {l : List (Text × α)} {e : Text × α}
    (h : e ∈ assign k v l) : e = (k, v) ∨ e ∈ l := by
  induction l with
  | nil => simpa [assign] using h
  | cons e0 l ih =>
    by_cases h0 : e0.1 = k
    · simp only [assign, h0, if_true, List.mem_cons] at h
      rcases h with h | h
      · exact .inl h
      · exact .inr (List.mem_cons_of_mem _ h)
    · simp only [assign, h0, if_false, List.mem_cons] at h
      rcases h with h | h
      · exact .inr (h ▸ List.mem_cons_self)
      · rcases ih h with h | h
        · exact .inl h
        · exact .inr (List.mem_cons_of_mem _ h)

theorem mem_of_lookup {α : Type} {k : Text} {v : α} {l : List (Text × α)}
    (h : l.lookup k = some v) : (k, v) ∈ l := by
  induction l with
  | nil => simp at h
  | cons e l ih =>
    by_cases h0 : k = e.1
    · subst h0
      simp only [List.lookup, beq_self_eq_true, Option.some.injEq] at h
      rw [← h]; exact List.mem_cons_self
    · simp only [List.lookup, beq_false_of_ne h0] at h
      exact List.mem_cons_of_mem _ (ih h)

theorem lookup_of_mem {α : Type} {k : Text} {v : α} {l : List (Text × α)}
    (hn : (l.map Prod.fst).Nodup) (h : (k, v) ∈ l) : l.lookup k = some v := by
  induction l with
  | nil => simp at h
  | cons e l ih =>
    rw [List.map_cons, List.nodup_cons] at hn
    rcases List.mem_cons.1 h with h | h
    · subst h; simp
    · have : k ≠ e.1 := fun h' => hn.1 (h' ▸ List.mem_map_of_mem (f := Prod.fst) h)
      simp only [List.lookup, beq_false_of_ne this]
      exact ih hn.2 h

/-- An entry of the patch table after a request: an old entry under another name, or the requested
name's with the cursor added. -/
theorem mem_requestPatch {s : AsmState} (hn : (s.patches.map Prod.fst).Nodup) {name : Text}
    {e : Text × List Nat} (h : e ∈ (s.requestPatch name).patches) :
    (e ∈ s.patches ∧ e.1 ≠ name) ∨
    (e.1 = name ∧ e.2 ≠ [] ∧ ∀ p ∈ e.2, p = s.cursor ∨ ∃ e' ∈ s.patches, e'.1 = name ∧ p ∈ e'.2) := by
  have hn' := nodup_assign name (((s.patches.lookup name).getD []) ++ [s.cursor]) _ hn
  have hl := lookup_of_mem hn' h
  rw [lookup_assign] at hl
  by_cases he : e.1 = name
  · right
    rw [if_pos he, Option.some.injEq] at hl
    refine ⟨he, by rw [← hl]; simp, fun p hp => ?_⟩
    rw [← hl, List.mem_append, List.mem_singleton] at hp
    rcases hp with hp | hp
    · right
      cases hlk : s.patches.lookup name with
      | none => rw [hlk] at hp; simp at hp
      | some ps =>
        rw [hlk] at hp
        exact ⟨(name, ps), mem_of_lookup hlk, rfl, hp⟩
    · exact .inl hp
  · left
    rw [if_neg he] at hl
    exact ⟨mem_of_lookup hl, he⟩

/-- A patch request and its placeholder (R221). -/
theorem Pass1Inv.request_emit {s : AsmState} (h : Pass1Inv s) (name : Text) :
    Pass1Inv ((s.requestPatch name).emit 0) := by
  have he := h.emit 0
  have hlt : ∀ e ∈ s.patches, s.cursor ∉ e.2 := fun e h1 h2 => by
    have := h.patchPlace e h1 _ h2
    rw [h.cursor] at this
    omega
  refine ⟨he.cursor, he.lineMap, he.halt, ?_, ?_, ?_, he.labelKeys, nodup_assign _ _ _ h.patchKeys, ?_,
    he.kinds⟩
  · intro c hc e hm hp
    rcases mem_requestPatch h.patchKeys hm with ⟨h1, -⟩ | ⟨-, -, h2⟩
    · exact h.haltUnpatched c hc e h1 hp
    · rcases h2 c hp with h3 | ⟨e', h3, -, h4⟩
      · have hcl := (List.getElem?_eq_some_iff.1 (h.halt c hc)).1
        rw [h3, h.cursor] at hcl
        omega
      · exact h.haltUnpatched c hc e' h3 h4
  · intro e hm p hp
    show p < (s.buffer ++ [0]).length
    rw [List.length_append, List.length_singleton]
    rcases mem_requestPatch h.patchKeys hm with ⟨h1, -⟩ | ⟨-, -, h2⟩
    · have := h.patchPlace e h1 p hp
      omega
    · rcases h2 p hp with h3 | ⟨e', h3, -, h4⟩
      · rw [h3, h.cursor]
        omega
      · have := h.patchPlace e' h3 p h4
        omega
  · intro e hm
    rcases mem_requestPatch h.patchKeys hm with ⟨h1, -⟩ | ⟨-, h2, -⟩
    · exact h.patchSome e h1
    · exact h2
  · intro e hm e' hm' p hp hp'
    rcases mem_requestPatch h.patchKeys hm with ⟨h1, hne⟩ | ⟨hn, -, h2⟩ <;>
      rcases mem_requestPatch h.patchKeys hm' with ⟨h1', hne'⟩ | ⟨hn', -, h2'⟩
    · exact h.disjoint e h1 e' h1' p hp hp'
    · rcases h2' p hp' with h3 | ⟨e2, h3, h3n, h4⟩
      · exact absurd (h3 ▸ hp) (hlt e h1)
      · exact absurd ((h.disjoint e h1 e2 h3 p hp h4).trans h3n) hne
    · rcases h2 p hp with h3 | ⟨e2, h3, h3n, h4⟩
      · exact absurd (h3 ▸ hp') (hlt e' h1')
      · exact absurd ((h.disjoint e' h1' e2 h3 p hp' h4).trans h3n) hne'
    · exact hn.trans hn'.symm

theorem Pass1Inv.emitValue {s : AsmState} (h : Pass1Inv s) (v : Value) :
    Pass1Inv (s.emitValue v) := by
  cases v with
  | literal w => exact h.emit w
  | label name => exact h.request_emit name

/-- Fields that no table depends on. -/
theorem Pass1Inv.congr {s t : AsmState} (h : Pass1Inv s) (h1 : t.buffer = s.buffer)
    (h2 : t.cursor = s.cursor) (h3 : t.lineMap = s.lineMap) (h4 : t.haltIndex = s.haltIndex)
    (h5 : t.patches = s.patches) (h6 : t.labels = s.labels) (h7 : t.errors = s.errors) :
    Pass1Inv t := by
  constructor
  · rw [h1, h2]; exact h.cursor
  · rw [h1, h3]; exact h.lineMap
  · rw [h1, h4]; exact h.halt
  · rw [h4, h5]; exact h.haltUnpatched
  · rw [h1, h5]; exact h.patchPlace
  · rw [h5]; exact h.patchSome
  · rw [h6]; exact h.labelKeys
  · rw [h5]; exact h.patchKeys
  · rw [h5]; exact h.disjoint
  · rw [h7]; exact h.kinds

theorem Pass1Inv.refer {s : AsmState} (h : Pass1Inv s) (rs : List Reg) : Pass1Inv (s.refer rs) :=
  h.congr rfl rfl rfl rfl rfl rfl rfl

theorem Pass1Inv.unknownToken {s : AsmState} (h : Pass1Inv s) : Pass1Inv (s.report [.unknownToken]) :=
  h.report (by simp)

theorem eq_of_mem_errorWhen {failed : Bool} {k k' : ErrorKind} (h : k ∈ errorWhen failed k') : k = k' := by
  unfold errorWhen at h
  split at h <;> simp_all

/-- A bad operand text is one UnknownToken and nothing else, wherever the argument token stands (R230). -/
theorem AsmState.encodeArg_bad (s : AsmState) {f : Family} {t : Text} (h : argParses f t = false) :
    s.encodeArg f t = s.report [.unknownToken] := by
  unfold AsmState.encodeArg AsmState.encodeOpenArg
  rw [h]
  cases f <;> simp only [argParses, Option.isSome_eq_false_iff, Option.isNone_iff_eq_none] at h
  · simp only [AsmState.encodeRRR, h]; split <;> rfl
  · simp only [AsmState.encodeRR, h]; split <;> rfl
  · simp only [AsmState.encodeIRX, h]; split <;> rfl

/-- A good operand text without its opening token does nothing (R209). -/
theorem AsmState.encodeArg_stray (s : AsmState) {f : Family} {t : Text} (h : argParses f t = true)
    (hl : s.last ≠ .ins f) : s.encodeArg f t = s := by
  simp [AsmState.encodeArg, h, hl, errorWhen, AsmState.report]

theorem Pass1Inv.encodeToken {s : AsmState} (h : Pass1Inv s) (t : Token) :
    Pass1Inv (s.encodeToken t) := by
  cases t with
  | ignore => exact h
  | label name => exact h.define name
  | opening f p => exact h.congr rfl rfl rfl rfl rfl rfl rfl
  | newline => exact h.congr rfl rfl rfl rfl rfl rfl rfl
  | data text =>
    simp only [AsmState.encodeToken, AsmState.encodeData]
    split
    · exact (h.define _).emitValue _
    · exact h.unknownToken
  | jump text =>
    simp only [AsmState.encodeToken, AsmState.encodeJump]
    split
    · exact ((h.emit _).emitValue _).refer _
    · exact h.report (by simp)
  | arg f text =>
    simp only [AsmState.encodeToken, AsmState.encodeArg, AsmState.encodeOpenArg]
    split
    · cases f with
      | rrr =>
        simp only [AsmState.encodeRRR]
        split
        · exact (h.noteHalt_emit _).refer _
        · exact h.unknownToken
      | rr =>
        simp only [AsmState.encodeRR]
        split
        · exact (h.emit _).refer _
        · exact h.unknownToken
      | irx =>
        simp only [AsmState.encodeIRX]
        split
        · exact ((h.emit _).emitValue _).refer _
        · exact h.unknownToken
    · refine h.report fun k hk => ?_
      rw [eq_of_mem_errorWhen hk]
      decide

/-- The ordering rule reports neither MissingHalt nor UnresolvedLabel (R204). -/
theorem orderErrors_kinds (last : LastKind) (t : Token) :
    ∀ k ∈ orderErrors last t, k ≠ .missingHalt ∧ k ≠ .unresolvedLabel := by
  intro k hk
  cases t <;> simp [orderErrors, errorWhen] at hk <;> aesop

theorem Pass1Inv.pass1 {s : AsmState} (h : Pass1Inv s) (l : Lexeme) : Pass1Inv (s.pass1 l) := by
  cases l with
  | unknown => exact h.unknownToken
  | token t =>
    exact ((h.report (orderErrors_kinds s.last t)).encodeToken t).congr rfl rfl rfl rfl rfl rfl rfl

/-- Pass 1 over any sequence of items keeps its tables consistent. -/
theorem pass1All_inv (l : List Lexeme) : Pass1Inv (pass1All l) := by
  suffices h : ∀ s : AsmState, Pass1Inv s → Pass1Inv (l.foldl AsmState.pass1 s) from h _ .initial
  induction l with
  | nil => exact fun _ h => h
  | cons x l ih => exact fun s h => ih _ (h.pass1 x)

@[simp] theorem pass1All_append (l : List Lexeme) (x : Lexeme) :
    pass1All (l ++ [x]) = (pass1All l).pass1 x := by
  simp [pass1All]

/-! ### What one item emits -/

/-- From s to t some words were appended, each mapped to the line of s (45_assembler.md R216, R217). -/
def Emits (ws : List Word) (s t : AsmState) : Prop :=
  t.buffer = s.buffer ++ ws ∧ t.cursor = s.cursor + ws.length ∧
  t.lineMap = s.lineMap ++ (List.range ws.length).map fun i => (s.cursor + i, s.line)

theorem Emits.none (s t : AsmState) (h1 : t.buffer = s.buffer) (h2 : t.cursor = s.cursor)
    (h3 : t.lineMap = s.lineMap) : Emits [] s t := by simp [Emits, h1, h2, h3]

theorem Emits.one (s t : AsmState) (w : Word) (h1 : t.buffer = s.buffer) (h2 : t.cursor = s.cursor)
    (h3 : t.lineMap = s.lineMap) (h4 : t.line = s.line) : Emits [w] s (t.emit w) := by
  simp [Emits, AsmState.emit, h1, h2, h3, h4, List.range_succ]

/-- The word a value leaves before backpatching (R221). -/
def Value.word : Value → Word
  | .literal w => w
  | .label _ => 0

theorem AsmState.emitValue_emits (s t : AsmState) (v : Value) (h1 : t.buffer = s.buffer)
    (h2 : t.cursor = s.cursor) (h3 : t.lineMap = s.lineMap) (h4 : t.line = s.line) :
    Emits [v.word] s (t.emitValue v) := by
  cases v with
  | literal w => exact Emits.one s t w h1 h2 h3 h4
  | label name => exact Emits.one s (t.requestPatch name) 0 h1 h2 h3 h4

theorem AsmState.emitTwo_emits (s : AsmState) (w : Word) (v : Value) :
    Emits [w, v.word] s ((s.emit w).emitValue v) := by
  cases v <;> simp [Emits, AsmState.emitValue, AsmState.requestPatch, AsmState.emit, Value.word,
    List.range_succ]

open Safety in
/-- The first word and the value of an IRX argument or a jump, with the patch request of a label (R212,
R213, R221). -/
theorem AsmState.emitTwo_emitsTwo (s u : AsmState) (w : Word) (v : Value) (rs : List Reg) (k : LastKind)
    (h1 : u.buffer = s.buffer) (h2 : u.cursor = s.cursor) (h3 : u.patches = s.patches) :
    EmitsTwo w v s { ((u.emit w).emitValue v).refer rs with last := k } := by
  cases v with
  | literal x =>
    simp [EmitsTwo, AsmState.emitValue, AsmState.emit, AsmState.refer, h1, h2, h3]
  | label n =>
    simp [EmitsTwo, PatchRequested, AsmState.emitValue, AsmState.requestPatch, AsmState.emit,
      AsmState.refer, lookup_assign, h1, h2, h3]

/-- One item appends words, each mapped to the current line, or none (R216, R217). -/
theorem AsmState.pass1_emits (s : AsmState) (x : Lexeme) : ∃ ws, Emits ws s (s.pass1 x) := by
  cases x with
  | unknown => exact ⟨[], Emits.none _ _ rfl rfl rfl⟩
  | token t =>
    cases t with
    | ignore => exact ⟨[], Emits.none _ _ rfl rfl rfl⟩
    | label name => exact ⟨[], Emits.none _ _ rfl rfl rfl⟩
    | opening f p => exact ⟨[], Emits.none _ _ rfl rfl rfl⟩
    | newline => exact ⟨[], Emits.none _ _ rfl rfl rfl⟩
    | data text =>
      simp only [AsmState.pass1, AsmState.pass1Token, AsmState.encodeToken, AsmState.encodeData]
      split
      · rename_i name v _
        exact ⟨[v.word], AsmState.emitValue_emits s _ v rfl rfl rfl rfl⟩
      · exact ⟨[], Emits.none _ _ rfl rfl rfl⟩
    | jump text =>
      simp only [AsmState.pass1, AsmState.pass1Token, AsmState.encodeToken, AsmState.encodeJump]
      split
      · rename_i w v n _
        exact ⟨_, AsmState.emitTwo_emits (s.report _) (w ||| placeDA 0 (n.getD 0)) v⟩
      · exact ⟨[], Emits.none _ _ rfl rfl rfl⟩
    | arg f text =>
      simp only [AsmState.pass1, AsmState.pass1Token, AsmState.encodeToken, AsmState.encodeArg,
        AsmState.encodeOpenArg]
      split
      · cases f with
        | rrr =>
          simp only [AsmState.encodeRRR]
          split
          · rename_i d a b _
            have hn : ∀ (u : AsmState) (w : Word), (u.noteHalt w).buffer = u.buffer ∧
                (u.noteHalt w).cursor = u.cursor ∧ (u.noteHalt w).lineMap = u.lineMap ∧
                (u.noteHalt w).line = u.line := by
              intro u w; unfold AsmState.noteHalt; split <;> exact ⟨rfl, rfl, rfl, rfl⟩
            obtain ⟨h1, h2, h3, h4⟩ := hn (s.report (orderErrors s.last (.arg .rrr text)))
              (rrrWord s.held d a b)
            exact ⟨[_], Emits.one s _ _ h1 h2 h3 h4⟩
          · exact ⟨[], Emits.none _ _ rfl rfl rfl⟩
        | rr =>
          simp only [AsmState.encodeRR]
          split
          · exact ⟨[_], Emits.one s _ _ rfl rfl rfl rfl⟩
          · exact ⟨[], Emits.none _ _ rfl rfl rfl⟩
        | irx =>
          simp only [AsmState.encodeIRX]
          split
          · rename_i d v a _
            exact ⟨_, AsmState.emitTwo_emits (s.report _) (s.held ||| placeDA d a) v⟩
          · exact ⟨[], Emits.none _ _ rfl rfl rfl⟩
      · exact ⟨[], Emits.none _ _ rfl rfl rfl⟩

/-! ### The validator's state and the halt index -/

@[simp] theorem AsmState.pass1_last (s : AsmState) (t : Token) :
    (s.pass1 (.token t)).last = nextKind s.last t := rfl

@[simp] theorem AsmState.pass1_unknown_last (s : AsmState) : (s.pass1 .unknown).last = s.last := rfl

@[simp] theorem AsmState.emitValue_held (s : AsmState) (v : Value) : (s.emitValue v).held = s.held := by
  cases v <;> rfl

@[simp] theorem AsmState.emitValue_line (s : AsmState) (v : Value) : (s.emitValue v).line = s.line := by
  cases v <;> rfl

@[simp] theorem AsmState.emitValue_haltIndex (s : AsmState) (v : Value) :
    (s.emitValue v).haltIndex = s.haltIndex := by
  cases v <;> rfl

@[simp] theorem AsmState.emitValue_errors (s : AsmState) (v : Value) :
    (s.emitValue v).errors = s.errors := by
  cases v <;> rfl

@[simp] theorem AsmState.noteHalt_line (s : AsmState) (w : Word) : (s.noteHalt w).line = s.line := by
  unfold AsmState.noteHalt; split <;> rfl

@[simp] theorem AsmState.noteHalt_errors (s : AsmState) (w : Word) :
    (s.noteHalt w).errors = s.errors := by
  unfold AsmState.noteHalt; split <;> rfl

/-- Every token but a newline keeps the line (R216). -/
theorem AsmState.pass1_line (s : AsmState) (x : Lexeme) :
    (s.pass1 x).line = if x = .token .newline then s.line + 1 else s.line := by
  cases x with
  | unknown => rfl
  | token t =>
    simp only [AsmState.pass1, AsmState.pass1Token]
    cases t with
    | ignore => rfl
    | label name => rfl
    | opening f p => rfl
    | newline => rfl
    | data text =>
      simp only [AsmState.encodeToken, AsmState.encodeData]
      split
      · simp [AsmState.define]
      · rfl
    | jump text =>
      simp only [AsmState.encodeToken, AsmState.encodeJump]
      split
      · simp [AsmState.refer, AsmState.emit]
      · rfl
    | arg f text =>
      simp only [AsmState.encodeToken, AsmState.encodeArg, AsmState.encodeOpenArg]
      split
      · cases f with
        | rrr =>
          simp only [AsmState.encodeRRR]
          split
          · simp [AsmState.refer, AsmState.emit]
          · rfl
        | rr =>
          simp only [AsmState.encodeRR]
          split <;> rfl
        | irx =>
          simp only [AsmState.encodeIRX]
          split
          · simp [AsmState.refer, AsmState.emit]
          · rfl
      · rfl

/-- The line after pass 1: one more than the newlines (R201, R216). -/
theorem pass1All_line (l : List Lexeme) :
    (pass1All l).line = 1 + l.countP fun y => decide (y = .token .newline) := by
  induction l using List.reverseRecOn with
  | nil => rfl
  | append_singleton l x ih =>
    rw [pass1All_append, AsmState.pass1_line, ih, List.countP_append]
    by_cases h : x = .token .newline <;> simp [h, Nat.add_assoc]

/-- The encoder's own errors of one token: at most UnknownToken or MalformedJump, with the current line. -/
theorem AsmState.encodeToken_errors (s : AsmState) (t : Token) :
    ∃ es, (s.encodeToken t).errors = s.errors ++ es ∧
      ∀ e ∈ es, (e.kind = .unknownToken ∨ e.kind = .malformedJump) ∧ e.line = s.line := by
  have hu : ∃ es, (s.report [.unknownToken]).errors = s.errors ++ es ∧
      ∀ e ∈ es, (e.kind = .unknownToken ∨ e.kind = .malformedJump) ∧ e.line = s.line :=
    ⟨_, rfl, by simp⟩
  have hn : ∀ u : AsmState, u.errors = s.errors → ∃ es, u.errors = s.errors ++ es ∧
      ∀ e ∈ es, (e.kind = .unknownToken ∨ e.kind = .malformedJump) ∧ e.line = s.line :=
    fun u h => ⟨[], by simp [h], by simp⟩
  cases t with
  | ignore => exact hn _ rfl
  | label name => exact hn _ rfl
  | opening f p => exact hn _ rfl
  | newline => exact hn _ rfl
  | data text =>
    simp only [AsmState.encodeToken, AsmState.encodeData]
    split
    · exact hn _ (by simp [AsmState.define])
    · exact hu
  | jump text =>
    simp only [AsmState.encodeToken, AsmState.encodeJump]
    split
    · exact hn _ (by simp [AsmState.refer, AsmState.emit])
    · exact ⟨_, rfl, by simp⟩
  | arg f text =>
    simp only [AsmState.encodeToken, AsmState.encodeArg, AsmState.encodeOpenArg]
    split
    · cases f with
      | rrr =>
        simp only [AsmState.encodeRRR]
        split
        · exact hn _ (by simp [AsmState.refer, AsmState.emit])
        · exact hu
      | rr =>
        simp only [AsmState.encodeRR]
        split
        · exact hn _ rfl
        · exact hu
      | irx =>
        simp only [AsmState.encodeIRX]
        split
        · exact hn _ (by simp [AsmState.refer, AsmState.emit])
        · exact hu
    · cases argParses f text
      · exact hu
      · exact hn _ (List.append_nil _)

/-- An encoded RRR argument notes its word as the halt when it is the first (R210). -/
theorem AsmState.encodeRRR_haltIndex (s : AsmState) (text : Text) :
    (s.encodeRRR text).haltIndex =
      match parseRRR text with
      | some (d, a, b) =>
        if rrrWord s.held d a b = haltWord ∧ s.haltIndex = none then some s.cursor else s.haltIndex
      | none => s.haltIndex := by
  unfold AsmState.encodeRRR
  cases parseRRR text with
  | none => rfl
  | some o => exact apply_ite AsmState.haltIndex _ _ _

/-- What one item does to the halt index: an RRR argument after its opening notes the first halt word
(R210), and nothing else changes it. -/
theorem AsmState.pass1_haltIndex (s : AsmState) (x : Lexeme) :
    (s.pass1 x).haltIndex =
      match x with
      | .token (.arg .rrr text) =>
        match parseRRR text with
        | some (d, a, b) =>
          if s.last = .ins .rrr ∧ rrrWord s.held d a b = haltWord ∧ s.haltIndex = none then some s.cursor
          else s.haltIndex
        | none => s.haltIndex
      | _ => s.haltIndex := by
  cases x with
  | unknown => rfl
  | token t =>
    simp only [AsmState.pass1, AsmState.pass1Token]
    cases t with
    | ignore => rfl
    | label name => rfl
    | opening f p => rfl
    | newline => rfl
    | data text =>
      simp only [AsmState.encodeToken, AsmState.encodeData]
      split
      · simp [AsmState.define]
      · rfl
    | jump text =>
      simp only [AsmState.encodeToken, AsmState.encodeJump]
      split
      · simp [AsmState.refer, AsmState.emit]
      · rfl
    | arg f text =>
      simp only [AsmState.encodeToken, AsmState.encodeArg, AsmState.encodeOpenArg]
      cases f with
      | rr =>
        split
        · simp only [AsmState.encodeRR]
          split <;> rfl
        · rfl
      | irx =>
        split
        · simp only [AsmState.encodeIRX]
          split
          · simp [AsmState.refer, AsmState.emit]
          · rfl
        · rfl
      | rrr =>
        split
        · have hl : s.last = .ins .rrr := ‹_›
          rw [AsmState.encodeRRR_haltIndex]
          simp only [hl, true_and]
          rfl
        · have hl : ¬s.last = .ins .rrr := ‹_›
          simp only [hl, false_and, if_false]
          cases parseRRR text <;> rfl

/-- Every item but an opening token keeps the held partial word (R209). -/
theorem AsmState.pass1_held (s : AsmState) (x : Lexeme) :
    (x = .unknown ∨ x = .token .ignore) → (s.pass1 x).held = s.held ∧ (s.pass1 x).last = s.last := by
  rintro (rfl | rfl) <;> exact ⟨rfl, rfl⟩

open Safety in
/-- The validator waits for an argument of family f exactly after an opening token of it, and holds its
partial word (R203, R204, R209). -/
theorem pass1All_open (l : List Lexeme) (f : Family) (p : Word) :
    OpenAtEnd l f p ↔ (pass1All l).last = .ins f ∧ (pass1All l).held = p := by
  induction l using List.reverseRecOn with
  | nil =>
    constructor
    · rintro ⟨pre, between, h, -⟩; simp at h
    · intro h; cases h.1
  | append_singleton l x ih =>
    by_cases hx : x = .unknown ∨ x = .token .ignore
    · rw [pass1All_append, (AsmState.pass1_held _ x hx).1, (AsmState.pass1_held _ x hx).2, ← ih]
      constructor
      · rintro ⟨pre, between, h, hb⟩
        rcases List.eq_nil_or_concat between with rfl | ⟨b', y, rfl⟩
        · have := List.append_inj_right' h rfl
          rw [List.cons.injEq] at this
          rcases hx with hx | hx <;> simp [hx] at this
        · rw [List.concat_eq_append] at h hb
          rw [← List.cons_append, ← List.append_assoc] at h
          have h1 := List.append_inj_left' h rfl
          exact ⟨pre, b', h1, fun z hz => hb z (by simp [hz])⟩
      · rintro ⟨pre, between, rfl, hb⟩
        refine ⟨pre, between ++ [x], by simp, fun z hz => ?_⟩
        rcases List.mem_append.1 hz with hz | hz
        · exact hb z hz
        · rw [List.mem_singleton.1 hz]; exact hx
    · rw [pass1All_append]
      have key : OpenAtEnd (l ++ [x]) f p ↔ x = .token (.opening f p) := by
        constructor
        · rintro ⟨pre, between, h, hb⟩
          rcases List.eq_nil_or_concat between with rfl | ⟨b', y, rfl⟩
          · have := List.append_inj_right' h rfl
            exact (List.cons.injEq _ _ _ _ ▸ this).1
          · rw [List.concat_eq_append] at h hb
            rw [← List.cons_append, ← List.append_assoc] at h
            have h1 := List.append_inj_right' h rfl
            have : x = y := (List.cons.injEq _ _ _ _ ▸ h1).1
            exact absurd (hb y (by simp)) (this ▸ hx)
        · rintro rfl
          exact ⟨l, [], by simp, by simp⟩
      rw [key]
      cases x with
      | unknown => exact absurd (.inl rfl) hx
      | token t =>
        cases t with
        | ignore => exact absurd (.inr rfl) hx
        | opening f' p' =>
          constructor
          · intro h; cases h; exact ⟨rfl, rfl⟩
          · rintro ⟨h1, h2⟩
            rw [AsmState.pass1_last, nextKind, LastKind.ins.injEq] at h1
            have h2' : p' = p := h2
            rw [h1, h2']
        | _ => simp [nextKind]

end Sys2Proof.Asm
end

