-- ==== Sys2Proof/Laws/PerInstr.lean ====
section
/-! SUPPORT. Per-instruction families. -/

namespace Sys2Proof.Laws.RowMatch

/-- The first word of an instruction matches its row of spec/opcode_table.json, and the instruction has
as many words as the row gives it. -/
def Statement (i : Instr) : Prop :=
  i.row.matchesWord i.firstWord = true ∧ i.length = i.row.lengthWords

/-- The bits of a word under a mask of nibbles. -/
theorem packNibbles_and (op op' : BitVec 4) (d d' a a' b b' : Reg) :
    packNibbles op d a b &&& packNibbles op' d' a' b' =
      (op &&& op') ++ (BitVec.ofFin (w := 4) d &&& BitVec.ofFin (w := 4) d')
        ++ (BitVec.ofFin (w := 4) a &&& BitVec.ofFin (w := 4) a')
        ++ (BitVec.ofFin (w := 4) b &&& BitVec.ofFin (w := 4) b') := by
  unfold packNibbles
  rw [← BitVec.and_append, ← BitVec.and_append, ← BitVec.and_append]

theorem and_ones (x : BitVec 4) : x &&& 0xF#4 = x := BitVec.and_allOnes

theorem of_rrr {i : Instr} {op : BitVec 4} {d a b : Reg} (hw : i.firstWord = packNibbles op d a b)
    {v : Word} (hm : i.row.mask = 0xF000) (hv : i.row.value = v) (hp : v = packNibbles op 0 0 0)
    (hl : i.length = i.row.lengthWords) : Statement i := by
  refine ⟨?_, hl⟩
  rw [OpcodeRow.matchesWord, hw, hm, hv, hp, beq_iff_eq,
    show (0xF000 : Word) = packNibbles 0xF 0 0 0 by decide, packNibbles_and]
  exact congrArg₂ _ (congrArg₂ _ (congrArg₂ _ (and_ones _) BitVec.and_zero) BitVec.and_zero)
    BitVec.and_zero

theorem of_irx {i : Instr} {d a b : Reg} (hw : i.firstWord = packNibbles 0xF d a b)
    {v : Word} (hm : i.row.mask = 0xF00F) (hv : i.row.value = v) (hp : v = packNibbles 0xF 0 0 b)
    (hl : i.length = i.row.lengthWords) : Statement i := by
  refine ⟨?_, hl⟩
  rw [OpcodeRow.matchesWord, hw, hm, hv, hp, beq_iff_eq,
    show (0xF00F : Word) = packNibbles 0xF 0 0 0xF by decide, packNibbles_and]
  exact congrArg₂ _ (congrArg₂ _ (congrArg₂ _ (and_ones _) BitVec.and_zero) BitVec.and_zero)
    (and_ones _)

theorem add (d a b : Reg) : Statement (.add d a b) :=
  of_rrr (op := 0x0) (v := 0x0000) rfl rfl rfl (by decide) rfl

theorem sub (d a b : Reg) : Statement (.sub d a b) :=
  of_rrr (op := 0x1) (v := 0x1000) rfl rfl rfl (by decide) rfl

theorem mul (d a b : Reg) : Statement (.mul d a b) :=
  of_rrr (op := 0x2) (v := 0x2000) rfl rfl rfl (by decide) rfl

theorem div (d a b : Reg) : Statement (.div d a b) :=
  of_rrr (op := 0x3) (v := 0x3000) rfl rfl rfl (by decide) rfl

theorem cmp (a b : Reg) : Statement (.cmp a b) :=
  of_rrr (op := 0x4) (v := 0x4000) rfl rfl rfl (by decide) rfl

theorem addc (d a b : Reg) : Statement (.addc d a b) :=
  of_rrr (op := 0x5) (v := 0x5000) rfl rfl rfl (by decide) rfl

theorem muln (d a b : Reg) : Statement (.muln d a b) :=
  of_rrr (op := 0x6) (v := 0x6000) rfl rfl rfl (by decide) rfl

theorem divn (d a b : Reg) : Statement (.divn d a b) :=
  of_rrr (op := 0x7) (v := 0x7000) rfl rfl rfl (by decide) rfl

theorem trap (d a b : Reg) : Statement (.trap d a b) :=
  of_rrr (op := 0xC) (v := 0xC000) rfl rfl rfl (by decide) rfl

theorem lea (d a : Reg) (w2 : Word) : Statement (.lea d a w2) :=
  of_irx (b := 0) (v := 0xF000) rfl rfl rfl (by decide) rfl

theorem load (d a : Reg) (w2 : Word) : Statement (.load d a w2) :=
  of_irx (b := 1) (v := 0xF001) rfl rfl rfl (by decide) rfl

theorem store (d a : Reg) (w2 : Word) : Statement (.store d a w2) :=
  of_irx (b := 2) (v := 0xF002) rfl rfl rfl (by decide) rfl

theorem jump (a : Reg) (w2 : Word) : Statement (.jump a w2) :=
  of_irx (b := 3) (v := 0xF003) rfl rfl rfl (by decide) rfl

theorem jumplt (a : Reg) (w2 : Word) : Statement (.jumplt a w2) :=
  of_irx (b := 4) (v := 0xF004) rfl rfl rfl (by decide) rfl

theorem jumple (a : Reg) (w2 : Word) : Statement (.jumple a w2) :=
  of_irx (b := 5) (v := 0xF005) rfl rfl rfl (by decide) rfl

theorem jumpeq (a : Reg) (w2 : Word) : Statement (.jumpeq a w2) :=
  of_irx (b := 6) (v := 0xF006) rfl rfl rfl (by decide) rfl

theorem jumpne (a : Reg) (w2 : Word) : Statement (.jumpne a w2) :=
  of_irx (b := 7) (v := 0xF007) rfl rfl rfl (by decide) rfl

theorem jumpge (a : Reg) (w2 : Word) : Statement (.jumpge a w2) :=
  of_irx (b := 8) (v := 0xF008) rfl rfl rfl (by decide) rfl

theorem jumpgt (a : Reg) (w2 : Word) : Statement (.jumpgt a w2) :=
  of_irx (b := 9) (v := 0xF009) rfl rfl rfl (by decide) rfl

end Sys2Proof.Laws.RowMatch
end

