-- ==== Sys2Proof/Laws/Resolver.lean ====
section
/-! SUPPORT. What the symbol resolver does to the buffer and the patch requests, and the errors of the image. -/

namespace Sys2Proof.Asm

/-- Backpatch over a list of labels (45_assembler.md R241). -/
def AsmState.resolveAll (s : AsmState) (labels : List (Text × Nat × Nat)) : AsmState :=
  labels.foldl (fun s e => s.resolve e.1 e.2.1) s

theorem AsmState.backpatch_eq (s : AsmState) : s.backpatch = s.resolveAll s.labels := rfl

theorem AsmState.resolveAll_cons (s : AsmState) (e : Text × Nat × Nat) (l : List (Text × Nat × Nat)) :
    s.resolveAll (e :: l) = (s.resolve e.1 e.2.1).resolveAll l := rfl

/-- What backpatching never changes. -/
structure ResolveFrame (s t : AsmState) : Prop where
  length : t.buffer.length = s.buffer.length
  lineMap : t.lineMap = s.lineMap
  haltIndex : t.haltIndex = s.haltIndex
  errors : t.errors = s.errors
  labels : t.labels = s.labels
  line : t.line = s.line

/-- One label is resolved: its requests leave the pending ones. -/
theorem AsmState.resolve_spec (s : AsmState) (name : Text) (addr : Nat) :
    ResolveFrame s (s.resolve name addr) ∧
    (s.resolve name addr).patches = s.patches.filter fun e => e.1 != name := by
  unfold AsmState.resolve
  split
  · exact ⟨⟨patchAll_length _ _ _, rfl, rfl, rfl, rfl, rfl⟩, rfl⟩
  · rename_i h
    refine ⟨⟨rfl, rfl, rfl, rfl, rfl, rfl⟩, ?_⟩
    symm
    rw [List.filter_eq_self]
    intro e he
    rw [bne_iff_ne]
    rintro rfl
    have := List.lookup_eq_none_iff.1 h e he
    simp at this

/-- Every listed label is resolved: the requests of the others stay. -/
theorem AsmState.resolveAll_spec (l : List (Text × Nat × Nat)) : ∀ s : AsmState,
    ResolveFrame s (s.resolveAll l) ∧
    (s.resolveAll l).patches = s.patches.filter fun e => !(l.map Prod.fst).contains e.1 := by
  induction l with
  | nil => intro s; exact ⟨⟨rfl, rfl, rfl, rfl, rfl, rfl⟩, by simp [AsmState.resolveAll]⟩
  | cons x l ih =>
    intro s
    obtain ⟨h1, h2⟩ := ih (s.resolve x.1 x.2.1)
    obtain ⟨r1, r2⟩ := AsmState.resolve_spec s x.1 x.2.1
    rw [AsmState.resolveAll_cons]
    refine ⟨⟨h1.length.trans r1.length, h1.lineMap.trans r1.lineMap, h1.haltIndex.trans r1.haltIndex,
      h1.errors.trans r1.errors, h1.labels.trans r1.labels, h1.line.trans r1.line⟩, ?_⟩
    rw [h2, r2, List.filter_filter]
    congr 1
    funext e
    simp only [List.map_cons, List.contains_cons, Bool.not_or, bne, Bool.and_comm]

/-- A place in no pending list is unchanged. -/
theorem AsmState.resolveAll_keep (p : Nat) (l : List (Text × Nat × Nat)) : ∀ s : AsmState,
    p < s.buffer.length → (∀ e ∈ s.patches, p ∉ e.2) → (s.resolveAll l).buffer[p]? = s.buffer[p]? := by
  induction l with
  | nil => intro s _ _; rfl
  | cons x l ih =>
    intro s hp h
    obtain ⟨r1, r2⟩ := AsmState.resolve_spec s x.1 x.2.1
    rw [AsmState.resolveAll_cons, ih _ (by rw [r1.length]; exact hp)
      (by rw [r2]; intro e he; exact h e (List.mem_filter.1 he).1)]
    unfold AsmState.resolve
    split
    · rename_i ps hl
      simp only
      rw [patchAll_getElem? _ _ _ _ hp, if_neg (h _ (mem_of_lookup hl))]
    · rfl

/-- A recorded place of a listed label takes its address. -/
theorem AsmState.resolveAll_patch {p addr line : Nat} {name : Text} {ps : List Nat} (hpl : p ∈ ps)
    (l : List (Text × Nat × Nat)) : ∀ s : AsmState, p < s.buffer.length →
    s.patches.lookup name = some ps → (∀ e ∈ s.patches, p ∈ e.2 → e.1 = name) →
    (name, addr, line) ∈ l → (l.map Prod.fst).Nodup → (s.patches.map Prod.fst).Nodup →
    (s.resolveAll l).buffer[p]? = some (labelWord addr) := by
  induction l with
  | nil => simp
  | cons x l ih =>
    intro s hp hlk hd hm hn hk
    rw [List.map_cons, List.nodup_cons] at hn
    obtain ⟨r1, r2⟩ := AsmState.resolve_spec s x.1 x.2.1
    have hk' : ((s.resolve x.1 x.2.1).patches.map Prod.fst).Nodup := by
      rw [r2]; exact hk.sublist (List.Sublist.map _ List.filter_sublist)
    rw [AsmState.resolveAll_cons]
    by_cases hx : x.1 = name
    · have : x = (name, addr, line) := by
        rcases List.mem_cons.1 hm with h | h
        · exact h.symm
        · exact absurd (hx ▸ List.mem_map_of_mem (f := Prod.fst) h) hn.1
      subst this
      rw [AsmState.resolveAll_keep]
      · simp only [AsmState.resolve, hlk]
        rw [patchAll_getElem? _ _ _ _ hp, if_pos hpl]
      · rw [r1.length]; exact hp
      · rw [r2]
        intro e he hpe
        have := List.mem_filter.1 he
        simp [hd e this.1 hpe] at this
    · refine ih _ (by rw [r1.length]; exact hp) ?_ ?_ ?_ hn.2 hk'
      · refine lookup_of_mem hk' ?_
        rw [r2]
        exact List.mem_filter.2 ⟨mem_of_lookup hlk, by simpa using Ne.symm hx⟩
      · rw [r2]; intro e he; exact hd e (List.mem_filter.1 he).1
      · rcases List.mem_cons.1 hm with h | h
        · exact absurd (by rw [← h]) hx
        · exact h

/-- A key is in no entry of a table exactly when its lookup fails. -/
theorem lookup_eq_none_iff_keys {α : Type} (l : List (Text × α)) (k : Text) :
    l.lookup k = none ↔ k ∉ l.map Prod.fst := by
  rw [List.lookup_eq_none_iff]
  constructor
  · intro h hk
    obtain ⟨e, he, rfl⟩ := List.mem_map.1 hk
    simpa using h e he
  · intro h e he
    rw [bne_iff_ne]
    rintro rfl
    exact h (List.mem_map_of_mem he)

/-! ### The image -/

/-- The assembler's state before the unresolved labels are reported. -/
def resolved (l : List Lexeme) : AsmState := (pass1All l).endOfText.resolveAll (pass1All l).labels

theorem assembleLexemes_words (l : List Lexeme) : (assembleLexemes l).words = (resolved l).buffer := rfl

theorem assembleLexemes_lineMap (l : List Lexeme) :
    (assembleLexemes l).lineMap = (pass1All l).lineMap :=
  (AsmState.resolveAll_spec _ (pass1All l).endOfText).1.lineMap

theorem assembleLexemes_length (l : List Lexeme) :
    (assembleLexemes l).words.length = (pass1All l).buffer.length :=
  (AsmState.resolveAll_spec _ (pass1All l).endOfText).1.length

/-- The pending requests are those of the labels that are not defined. -/
theorem resolved_patches (l : List Lexeme) : (resolved l).patches =
    (pass1All l).patches.filter fun e => ((pass1All l).labels.lookup e.1).isNone := by
  rw [resolved, (AsmState.resolveAll_spec _ _).2]
  show (pass1All l).patches.filter _ = _
  congr 1
  funext e
  rw [Bool.eq_iff_iff, Option.isNone_iff_eq_none, lookup_eq_none_iff_keys]
  simp

/-- The errors of the image, in the order of R233. -/
theorem assembleLexemes_errors (l : List Lexeme) : (assembleLexemes l).errors =
    (pass1All l).errors
      ++ (errorWhen (pass1All l).last.isIns .instructionArgumentMismatch).map
          (fun k => ⟨k, (pass1All l).line⟩)
      ++ (resolved l).pendingAddresses.map
          (fun a => ⟨.unresolvedLabel, ((pass1All l).lineMap.lookup a).getD 0⟩)
      ++ (errorWhen ((pass1All l).haltIndex == none) .missingHalt).map
          (fun k => ⟨k, (pass1All l).line⟩) := by
  obtain ⟨r, -⟩ := AsmState.resolveAll_spec (pass1All l).labels (pass1All l).endOfText
  show (resolved l).errors ++ (resolved l).pendingAddresses.map
      (fun a => ⟨.unresolvedLabel, ((resolved l).lineMap.lookup a).getD 0⟩) ++
    (errorWhen ((resolved l).haltIndex == none) .missingHalt).map (fun k => ⟨k, (resolved l).line⟩) = _
  rw [resolved, r.errors, r.lineMap, r.haltIndex, r.line]
  rfl

/-! ### The order of the pending addresses -/

theorem lowest_le {ps : List Nat} {p : Nat} (h : p ∈ ps) : lowest ps ≤ p := by
  induction ps with
  | nil => simp at h
  | cons q ps ih =>
    cases ps with
    | nil => simp at h; simp [lowest, h]
    | cons q' ps =>
      simp only [lowest]
      rcases List.mem_cons.1 h with rfl | h
      · exact Nat.min_le_left _ _
      · exact le_trans (Nat.min_le_right _ _) (ih h)

theorem lowest_mem {ps : List Nat} (h : ps ≠ []) : lowest ps ∈ ps := by
  induction ps with
  | nil => exact absurd rfl h
  | cons q ps ih =>
    cases ps with
    | nil => simp [lowest]
    | cons q' ps =>
      simp only [lowest]
      rcases Nat.le_total q (lowest (q' :: ps)) with h' | h'
      · rw [Nat.min_eq_left h']; exact List.mem_cons_self
      · rw [Nat.min_eq_right h']; exact List.mem_cons_of_mem _ (ih (by simp))

theorem insertRising_perm (n : Nat) (l : List Nat) : (insertRising n l).Perm (n :: l) := by
  induction l with
  | nil => exact .refl _
  | cons m l ih =>
    simp only [insertRising]
    split
    · exact .refl _
    · exact (ih.cons m).trans (.swap n m l)

theorem insertRising_sorted (n : Nat) (l : List Nat) (h : l.Pairwise (· ≤ ·)) :
    (insertRising n l).Pairwise (· ≤ ·) := by
  induction l with
  | nil => simp [insertRising]
  | cons m l ih =>
    simp only [insertRising]
    rw [List.pairwise_cons] at h
    split
    · rename_i hn
      rw [List.pairwise_cons, List.pairwise_cons]
      refine ⟨fun x hx => ?_, h⟩
      rcases List.mem_cons.1 hx with rfl | hx
      · exact hn
      · exact le_trans hn (h.1 x hx)
    · rename_i hn
      rw [List.pairwise_cons]
      refine ⟨fun x hx => ?_, ih h.2⟩
      rcases List.mem_cons.1 ((insertRising_perm n l).mem_iff.1 hx) with rfl | hx
      · omega
      · exact h.1 x hx

/-- Sorting keeps the members. -/
theorem foldr_insertRising (l : List Nat) : (l.foldr insertRising []).Perm l ∧
    (l.foldr insertRising []).Pairwise (· ≤ ·) := by
  induction l with
  | nil => exact ⟨.refl _, .nil⟩
  | cons n l ih =>
    exact ⟨(insertRising_perm n _).trans (ih.1.cons n), insertRising_sorted n _ ih.2⟩

end Sys2Proof.Asm
end

