-- ==== Sys2Proof/Laws/Step.lean ====
section
/-! SUPPORT. The fetch, the step in terms of the decoded instruction, the trap and the fault reasons, and
what an instruction does to the run-state. -/

namespace Sys2Proof.Machine

open Safety

/-- A one-word instruction does not depend on the word after it (30_encoding.md R76). -/
theorem decode_one_word {ir w2 w2' : Word} (h : isTwoWords ir = false) :
    decode ir w2 = decode ir w2' := by
  have : (opField ir).toNat ≠ 15 := by
    intro h'
    rw [opField_toNat, ← isTwoWords_iff, h] at h'
    simp at h'
  unfold decode
  split <;> first | rfl | contradiction

/-- A decoded instruction's second word is the one fetched, for op 0xF. -/
theorem secondWord_of_decode {ir w2 : Word} {i : Instr} (h : decode ir w2 = .ok i) :
    i.secondWord = if isTwoWords ir then some w2 else none := by
  have hi := isTwoWords_iff ir
  rw [← opField_toNat] at hi
  unfold decode at h
  split at h
  all_goals first | (cases h; done) | skip
  all_goals rename_i heq
  all_goals rw [heq] at hi
  case h_10 =>
    rw [hi.2 rfl]
    unfold decodeIRX at h
    split at h <;> cases h <;> rfl
  all_goals
    have : isTwoWords ir = false := by
      rw [Bool.eq_false_iff]; intro h'; have := hi.1 h'; omega
    cases h
    rw [this]; rfl

/-- What the fetch of a step decodes is what stands at pc. -/
theorem decode_fetch (s : State) :
    decode s.resetAccessed.fetch.1 s.resetAccessed.fetch.2.1 =
      decode (s.word s.pc) (s.word (s.pc + 1)) := by
  cases h : isTwoWords (s.word s.pc)
  · rw [State.fetch_one _ (by simpa using h)]
    simpa using decode_one_word h
  · rw [State.fetch_two _ (by simpa using h)]
    simp

/-- An executing step on an instruction is that instruction on the state after the fetch. -/
theorem step_ok {s : State} {i : Instr} (hx : s.rs.executes = true)
    (hd : decode (s.word s.pc) (s.word (s.pc + 1)) = .ok i) :
    step s = exec i s.resetAccessed.fetch.2.2 := by
  unfold step
  rw [if_pos hx]
  simp only [(decode_fetch s).trans hd]

/-- An executing step on a reserved encoding raises Error after its fetches (60_exceptions.md R271). -/
theorem step_reserved {s : State} {r : Reserved} (hx : s.rs.executes = true)
    (hd : decode (s.word s.pc) (s.word (s.pc + 1)) = .error r) :
    step s = raiseError (reservedFault r) s.resetAccessed.fetch.2.2 := by
  unfold step
  rw [if_pos hx]
  simp only [(decode_fetch s).trans hd]

/-- The two ways an executing step goes. -/
theorem step_cases {s t : State} (hx : s.rs.executes = true) (h : step s = .next t) :
    (∃ r, decode (s.word s.pc) (s.word (s.pc + 1)) = .error r ∧
      t = (s.resetAccessed.fetch.2.2).setRs .error) ∨
    ∃ i, decode (s.word s.pc) (s.word (s.pc + 1)) = .ok i ∧
      exec i s.resetAccessed.fetch.2.2 = .next t := by
  cases hd : decode (s.word s.pc) (s.word (s.pc + 1)) with
  | error r => rw [step_reserved hx hd] at h; cases h; exact .inl ⟨r, rfl, rfl⟩
  | ok i => rw [step_ok hx hd] at h; exact .inr ⟨i, rfl, h⟩

/-- What the fetch of a step does (40_controller.md R102 to R104). -/
structure FetchSpec (s u : State) : Prop where
  reg : ∀ i, u.reg i = s.reg i
  regAltered : u.regAltered = s.regAltered
  rs : u.rs = s.rs
  mem : u.mem = s.mem
  pc : u.pc = nextPc s
  host : SameHostData s u
  accessed : ∀ n, n ∈ u.accessed ↔
    n = s.pc.toNat ∨ (isTwoWords (s.word s.pc) = true ∧ n = (s.pc + 1).toNat)
  used : ∀ n, n ∈ u.used ↔ n ∈ s.used ∨ n ∈ u.accessed

theorem fetch_spec (s : State) : FetchSpec s s.resetAccessed.fetch.2.2 := by
  cases h : isTwoWords (s.word s.pc)
  · rw [State.fetch_one _ (by simpa using h)]
    constructor <;> simp [nextPc, h]
    · constructor <;> rfl
    · intro n; tauto
  · rw [State.fetch_two _ (by simpa using h)]
    constructor <;> simp [nextPc, h]
    · constructor <;> rfl
    · intro n; tauto
    · intro n; tauto

/-- trap by its code (44_trap.md R181). -/
theorem exec_trap (d a b : Reg) (s : State) :
    exec (.trap d a b) s =
      if s.reg d = 0 then .next ((s.touchReg d).setRs .halted)
      else if s.reg d = 4 then .next ((s.touchReg d).setRs .breakpoint)
      else if 5 ≤ (s.reg d).toNat ∧ (s.reg d).toNat < 255 then .next ((s.touchReg d).setRs .error)
      else .next (s.touchReg d) := by
  simp only [exec, execTrap, trapCodeReg, Config.params, trapFault]
  by_cases h0 : s.reg d = 0
  · simp only [h0, if_true]
  by_cases h4 : s.reg d = 4
  · simp only [h4, if_true]
  by_cases h5 : 5 ≤ (s.reg d).toNat ∧ (s.reg d).toNat < 255
  · simp only [h0, h4, h5, if_false, raiseError]; simp
  · simp only [h0, h4, h5, if_false]

theorem instrFault_trap (d a b : Reg) (s : State) :
    instrFault (.trap d a b) s =
      if 5 ≤ (s.reg d).toNat ∧ (s.reg d).toNat < 255 then some .trapCode else none := rfl

theorem instrFault_divn (d a b : Reg) (s : State) :
    instrFault (.divn d a b) s = if s.reg b = 0 then some .divideByZero else none := rfl

theorem instrFault_div (d a b : Reg) (s : State) :
    instrFault (.div d a b) s =
      if s.reg b = 0 then some .divideByZero
      else if s.reg a = 0x8000 ∧ s.reg b = 0xFFFF then some .divideOverflow else none := by
  simp only [instrFault, divFault, zeroDivisorFault, Config.params]
  by_cases h : s.reg b = 0
  · simp only [h, if_true]
  · simp only [h, if_false]

/-- The reason for a fault depends on the registers only. -/
theorem instrFault_congr {s u : State} (i : Instr) (h : ∀ j, u.reg j = s.reg j) :
    instrFault i u = instrFault i s := by
  cases i <;> first | rfl | simp only [instrFault, h]

/-- What an instruction does to the run-state: nothing, Error when it faults, or what trap 0 and 4 do. -/
theorem exec_rs {i : Instr} {s t : State} (h : exec i s = .next t) :
    (t.rs = s.rs ∧ instrFault i s = none) ∨ (t.rs = .error ∧ instrFault i s ≠ none) ∨
    ∃ d a b, i = .trap d a b ∧
      ((t.rs = .halted ∧ s.reg d = 0) ∨ (t.rs = .breakpoint ∧ s.reg d = 4)) ∧
      instrFault i s = none := by
  cases i with
  | div d a b =>
    simp only [exec, execDiv] at h
    cases hf : divFault Config.params (s.reg a) (s.reg b) <;> rw [hf] at h <;> cases h
    · left; simp [instrFault, hf]; rfl
    · right; left; simp [instrFault, hf]
  | divn d a b =>
    simp only [exec, execDivn] at h
    cases hf : zeroDivisorFault Config.params (s.reg b) <;> rw [hf] at h <;> cases h
    · left; simp [instrFault, hf]; rfl
    · right; left; simp [instrFault, hf]
  | trap d a b =>
    rw [exec_trap] at h
    rw [instrFault_trap]
    split at h
    · cases h; rename_i h0; right; right
      refine ⟨d, a, b, rfl, .inl ⟨rfl, h0⟩, ?_⟩
      rw [h0]; rfl
    · split at h
      · cases h; rename_i h0; right; right
        refine ⟨d, a, b, rfl, .inr ⟨rfl, h0⟩, ?_⟩
        rw [h0]; rfl
      · split at h
        · cases h; right; left; rename_i h0; rw [if_pos h0]; exact ⟨rfl, by simp⟩
        · cases h; left; rename_i h0; rw [if_neg h0]; exact ⟨rfl, rfl⟩
  | jump => cases h; left; exact ⟨by simp [State.target], rfl⟩
  | jumplt => cases h; left; refine ⟨?_, rfl⟩; split <;> simp
  | jumple => cases h; left; refine ⟨?_, rfl⟩; split <;> simp
  | jumpeq => cases h; left; refine ⟨?_, rfl⟩; split <;> simp
  | jumpne => cases h; left; refine ⟨?_, rfl⟩; split <;> simp
  | jumpge => cases h; left; refine ⟨?_, rfl⟩; split <;> simp
  | jumpgt => cases h; left; refine ⟨?_, rfl⟩; split <;> simp
  | _ => cases h; left; exact ⟨by simp [State.touchSources, State.memRead, State.memWrite], rfl⟩

/-- An instruction that faults leaves registers, altered marks, memory, pc and host data as they were
(60_exceptions.md R274, R275). -/
theorem exec_of_fault {i : Instr} {s t : State} (h : exec i s = .next t)
    (hf : instrFault i s ≠ none) :
    (∀ j, t.reg j = s.reg j) ∧ t.regAltered = s.regAltered ∧ t.mem = s.mem ∧ t.pc = s.pc ∧
      SameHostData s t := by
  cases i with
  | div d a b =>
    simp only [exec, execDiv] at h
    cases hg : divFault Config.params (s.reg a) (s.reg b) <;> rw [hg] at h <;> cases h
    · simp [instrFault, hg] at hf
    · exact ⟨fun _ => rfl, rfl, rfl, rfl, ⟨rfl, rfl, rfl, rfl⟩⟩
  | divn d a b =>
    simp only [exec, execDivn] at h
    cases hg : zeroDivisorFault Config.params (s.reg b) <;> rw [hg] at h <;> cases h
    · simp [instrFault, hg] at hf
    · exact ⟨fun _ => rfl, rfl, rfl, rfl, ⟨rfl, rfl, rfl, rfl⟩⟩
  | trap d a b =>
    rw [exec_trap] at h
    split at h
    · cases h; exact ⟨fun _ => rfl, rfl, rfl, rfl, ⟨rfl, rfl, rfl, rfl⟩⟩
    · split at h
      · cases h; exact ⟨fun _ => rfl, rfl, rfl, rfl, ⟨rfl, rfl, rfl, rfl⟩⟩
      · split at h <;> cases h <;> exact ⟨fun _ => rfl, rfl, rfl, rfl, ⟨rfl, rfl, rfl, rfl⟩⟩
  | _ => simp [instrFault] at hf

end Sys2Proof.Machine
end

