-- ==== Sys2Proof/Tests/Slice0.lean ====
section
/-! SUPPORT. Tests, each one step or one call. Expected values are those of spec/95_test_vectors.md (named
"L1-n", "2.n" after its sections), or worked out from the spec's encodings. The witnesses show, for each
statement of Obligations.lean that has hypotheses, a state and operands that meet them. -/

namespace Sys2Proof.Tests

open Machine Safety

/-! ### Helpers -/

/-- The reset state, Running, with the given register values and the given words from address 0. -/
def machine (regs : List (Reg × Word)) (words : List Word) : State :=
  { (regs.foldl (fun s e => s.setReg e.1 e.2) State.reset) with
    rs := .running
    regAltered := Vector.replicate 16 false
    mem := Memory.ofWords 0 words }

/-- The state of an answer, if it is a next state. -/
def stateOf (r : Result) : Option State :=
  match r with
  | .next t => some t
  | .fault _ => none
  | .refused _ => none

/-- One view of the state after one step. -/
def stepView {α : Type} (view : State → α) (s : State) : Option α := (stateOf (step s)).map view

/-- Two registers after one step. -/
def regsAfter (i j : Reg) (s : State) : Option (Word × Word) := stepView (fun t => (t.reg i, t.reg j)) s

/-- pc and run-state after one step. -/
def controlAfter (s : State) : Option (Word × RunState) := stepView (fun t => (t.pc, t.rs)) s

/-- The words, the symbols and the errors (kind, line) of an assembled text. -/
def assembled (text : String) : List Word × List (Asm.ErrorKind × Nat) :=
  let image := Asm.assemble text.toList
  (image.words, image.errors.map fun e => (e.kind, e.line))

/-! ### Well-formedness: a term that each check refuses -/

theorem test_regIndex_refuses_16 : WellFormed.regIndex 16 = false := by decide
theorem test_regIndex_admits_15 : WellFormed.regIndex 15 = true := by decide
theorem test_literal_refuses_65536 : WellFormed.literal 65536 = false := by decide
theorem test_literal_admits_65535 : WellFormed.literal 65535 = true := by decide
theorem test_opcode_refuses_8 : WellFormed.opcode 0x8000 = false := by decide
theorem test_selector_refuses_A : WellFormed.selector 0xF00A = false := by decide
theorem test_unusedField_refuses_cmp_d : WellFormed.unusedField 0x4120 = false := by decide
theorem test_unusedField_refuses_jump_d : WellFormed.unusedField 0xF103 = false := by decide
theorem test_firstWord_refuses : WellFormed.firstWord 0x8000 = false ∧
    WellFormed.firstWord 0xF00A = false ∧ WellFormed.firstWord 0x4120 = false := by decide
theorem test_firstWord_admits : WellFormed.firstWord 0x4020 = true ∧
    WellFormed.firstWord 0xF1F2 = true ∧ WellFormed.firstWord 0xF0F9 = true := by decide

/-! ### Decoding: words written out from [op:4][d:4][a:4][b:4] (30_encoding.md R72 to R78) -/

theorem test_decode_add : decode 0b0000_0011_0001_0010 0 = .ok (.add 3 1 2) := by decide
theorem test_decode_sub : decode 0b0001_0001_0001_0011 0 = .ok (.sub 1 1 3) := by decide
theorem test_decode_mul : decode 0b0010_0100_0001_0001 0 = .ok (.mul 4 1 1) := by decide
theorem test_decode_div : decode 0b0011_1111_1110_1101 0 = .ok (.div 15 14 13) := by decide
theorem test_decode_cmp : decode 0b0100_0001_0010_0000 0 = .ok (.cmp 2 0) := by decide
theorem test_decode_addc : decode 0b0101_0011_0001_0010 0 = .ok (.addc 3 1 2) := by decide
theorem test_decode_muln : decode 0b0110_0100_0001_0010 0 = .ok (.muln 4 1 2) := by decide
theorem test_decode_divn : decode 0b0111_0000_1111_0000 0 = .ok (.divn 0 15 0) := by decide
theorem test_decode_trap : decode 0b1100_0010_0011_0100 0 = .ok (.trap 2 3 4) := by decide
theorem test_decode_lea : decode 0b1111_0001_0010_0000 5 = .ok (.lea 1 2 5) := by decide
theorem test_decode_load : decode 0b1111_0010_0001_0001 9 = .ok (.load 2 1 9) := by decide
theorem test_decode_store : decode 0b1111_0010_0001_0010 20 = .ok (.store 2 1 20) := by decide
theorem test_decode_jump : decode 0b1111_0000_0001_0011 0xFFFF = .ok (.jump 1 0xFFFF) := by decide
theorem test_decode_jumplt : decode 0b1111_0000_0010_0100 3 = .ok (.jumplt 2 3) := by decide
theorem test_decode_jumple : decode 0b1111_0000_0011_0101 3 = .ok (.jumple 3 3) := by decide
theorem test_decode_jumpeq : decode 0b1111_0000_0100_0110 3 = .ok (.jumpeq 4 3) := by decide
theorem test_decode_jumpne : decode 0b1111_0000_0011_0111 16 = .ok (.jumpne 3 16) := by decide
theorem test_decode_jumpge : decode 0b1111_0000_0110_1000 3 = .ok (.jumpge 6 3) := by decide
theorem test_decode_jumpgt : decode 0b1111_0000_0000_1001 6 = .ok (.jumpgt 0 6) := by decide
theorem test_decode_reserved : decode 0x8000 0 = .error (.opcode 0x8000) ∧
    decode 0xE123 0 = .error (.opcode 0xE123) ∧ decode 0xF00A 0 = .error (.irx 0xF00A) ∧
    decode 0xF00F 0 = .error (.irx 0xF00F) := by decide
theorem test_encode_words : encode (.div 15 14 13) = [0x3FED] ∧ encode (.cmp 1 2) = [0x4012] ∧
    encode (.store 2 0 0x000E) = [0xF202, 0x000E] ∧ encode (.jumpne 3 0x10) = [0xF037, 0x0010] := by
  decide
theorem test_decodeTableWord : decodeTableWord 32 0x000EF202 = some (.store 2 0 0x000E) ∧
    decodeTableWord 16 0xF202 = some (.store 2 0 0) ∧ decodeTableWord 16 0x0312 = some (.add 3 1 2) ∧
    decodeTableWord 16 0x8000 = none := by decide
theorem test_decodeWords_truncated : decodeWords [0xF100] = .error .truncated ∧
    decodeWords [] = .error .truncated ∧
    decodeWords [0xF100, 1, 2] = .ok (.lea 1 0 1, [2]) := by decide

/-! ### Arithmetic (2.1) -/

theorem test_add_carry : regsAfter 3 15 (machine [(1, 0xFFFF), (2, 0xFFFF)] [0x0312])
    = some (0xFFFE, 0x00CA) := by decide
theorem test_add_overflow : regsAfter 3 15 (machine [(1, 0x7FFF), (2, 1)] [0x0312])
    = some (0x8000, 0x002A) := by decide
theorem test_sub_borrow : regsAfter 3 15 (machine [(1, 0), (2, 1)] [0x1312])
    = some (0xFFFF, 0x004A) := by decide
theorem test_sub_overflow : regsAfter 3 15 (machine [(1, 0x7FFF), (2, 0xFFFF)] [0x1312])
    = some (0x8000, 0x006A) := by decide
theorem test_mul_high : regsAfter 3 15 (machine [(1, 0xFFFF), (2, 2)] [0x2312])
    = some (0xFFFE, 0x004A) := by decide
theorem test_mul_small : regsAfter 3 15 (machine [(1, 3), (2, 4)] [0x2312])
    = some (0x000C, 0x0003) := by decide
theorem test_div_negative : regsAfter 3 15 (machine [(1, 0xFFF9), (2, 2)] [0x3312])
    = some (0xFFFD, 0xFFFF) := by decide
theorem test_div_r15_takes_quotient : regsAfter 15 0 (machine [(1, 7), (2, 2)] [0x3F12])
    = some (3, 0) := by decide
theorem test_div_faults :
    controlAfter (machine [(1, 7)] [0x3312]) = some (1, .error) ∧
    controlAfter (machine [(1, 0x8000), (2, 0xFFFF)] [0x3312]) = some (1, .error) := by decide
theorem test_cmp_less_but_greater : regsAfter 15 0 (machine [(1, 0xFFFF), (2, 1)] [0x4012])
    = some (0x000A, 0) := by decide
theorem test_cmp_greater_but_less : regsAfter 15 0 (machine [(1, 0x7FFF), (2, 0x8000)] [0x4012])
    = some (0x0011, 0) := by decide
theorem test_addc_carry_in : regsAfter 3 15 (machine [(1, 1), (2, 2), (15, 0x0080)] [0x5312])
    = some (4, 0x0003) := by decide
theorem test_addc_wraps : regsAfter 3 15 (machine [(1, 0xFFFF), (15, 0x00FF)] [0x5312])
    = some (0, 0x00C4) := by decide
theorem test_muln_masked : regsAfter 3 15 (machine [(1, 2), (2, 3), (15, 0x1234)] [0x6312])
    = some (0x0006, 0xFFFD) := by decide
theorem test_muln_r15_takes_low : regsAfter 15 0 (machine [(1, 2), (2, 3)] [0x6F12])
    = some (0x0006, 0) := by decide
theorem test_divn_masked : regsAfter 3 15 (machine [(1, 0x10), (2, 0x10)] [0x7312])
    = some (0xF001, 0) := by decide
theorem test_divn_faults : stepView (fun t => (t.reg 3, t.reg 15, t.rs))
    (machine [(1, 5), (3, 8), (15, 9)] [0x7312]) = some (8, 9, .error) := by decide
theorem test_write_to_R0_is_discarded : stepView (fun t => (t.reg 0, t.reg 15, t.regAltered[0]))
    (machine [(1, 3), (2, 4)] [0x0012]) = some (0, 0x0003, false) := by decide

/-! ### lea, load, store (2.2) -/

theorem test_lea_wraps : regsAfter 1 15 (machine [(2, 0xFFFF)] [0xF120, 0x0001])
    = some (1, 0) := by decide
theorem test_load_reads : stepView (fun t => (t.reg 2, t.accessed))
    (machine [] [0xF201, 0x0009, 0, 0, 0, 0, 0, 0, 0, 5]) = some (5, [0, 1, 9]) := by decide
theorem test_load_wraps_to_its_second_word :
    stepView (fun t => (t.reg 2, t.accessed)) (machine [(1, 0xFFFF)] [0xF211, 0x0001])
      = some (1, [0, 1]) := by decide
theorem test_store_writes : stepView (fun t => (t.word 20, t.accessed, t.used))
    (machine [(2, 0x1234)] [0xF202, 0x0014]) = some (0x1234, [0, 1, 20], [0, 1, 20]) := by decide

/-! ### Jumps (2.3): T is 0x0010, and pc is 2 when the jump is not taken -/

/-- pc after a jump with the selector at address 0. -/
def pcAfterJump (f ir : Word) : Option Word := stepView State.pc (machine [(15, f)] [ir, 0x0010])

theorem test_jump : pcAfterJump 0 0xF003 = some 16 ∧
    stepView State.pc (machine [(1, 1)] [0xF013, 0xFFFF]) = some 1 := by decide
theorem test_jumplt : pcAfterJump 0x000A 0xF004 = some 16 ∧ pcAfterJump 0x0011 0xF004 = some 2 := by
  decide
theorem test_jumple : pcAfterJump 0x0004 0xF005 = some 16 ∧ pcAfterJump 0x0011 0xF005 = some 2 := by
  decide
theorem test_jumpeq : pcAfterJump 0x00C4 0xF006 = some 16 ∧ pcAfterJump 0x0008 0xF006 = some 2 := by
  decide
theorem test_jumpne : pcAfterJump 0x0000 0xF007 = some 16 ∧ pcAfterJump 0x00C4 0xF007 = some 2 := by
  decide
theorem test_jumpge : pcAfterJump 0x0004 0xF008 = some 16 ∧ pcAfterJump 0x000A 0xF008 = some 2 := by
  decide
theorem test_jumpgt : pcAfterJump 0x0011 0xF009 = some 16 ∧ pcAfterJump 0x0004 0xF009 = some 2 := by
  decide

/-! ### trap (2.4), controller and faults (2.5) -/

/-- pc and run-state after `trap R3,R0,R0` with the code in R3. -/
def trapAfter (code : Word) : Option (Word × RunState) := controlAfter (machine [(3, code)] [0xC300])

theorem test_trap_codes : trapAfter 0 = some (1, .halted) ∧ trapAfter 1 = some (1, .running) ∧
    trapAfter 3 = some (1, .running) ∧ trapAfter 4 = some (1, .breakpoint) ∧
    trapAfter 5 = some (1, .error) ∧ trapAfter 254 = some (1, .error) ∧
    trapAfter 255 = some (1, .running) ∧ trapAfter 0xFFFF = some (1, .running) := by decide
theorem test_trap_code_is_d :
    controlAfter (machine [(3, 4)] [0xC030]) = some (1, .halted) := by decide
theorem test_paused_step_does_nothing :
    stateOf (step { machine [(1, 2)] [0x0111] with rs := .paused }) =
      some { machine [(1, 2)] [0x0111] with rs := .paused } := by decide
theorem test_reserved_opcode : controlAfter (machine [] [0xE123]) = some (1, .error) := by decide
theorem test_reserved_selector : stepView (fun t => (t.pc, t.rs, t.accessed)) (machine [] [0xF00A])
    = some (2, .error, [0, 1]) := by decide
theorem test_fetch_wraps : stepView (fun t => (t.reg 1, t.pc))
    { ({ machine [] [0x0007] with pc := 0xFFFF }).pokeMem 0xFFFF 0xF100 with rs := .step }
    = some (7, 1) := by decide
theorem test_one_word_fetch_wraps : stepView (fun t => (t.reg 15, t.pc))
    { machine [] [] with pc := 0xFFFF } = some (0x0004, 0) := by decide
theorem test_cmp_ignores_d : regsAfter 15 1 (machine [(2, 5)] [0x4120]) = some (0x0003, 0) := by
  decide
theorem test_withFetchWord_runs : stepView (fun t => (t.reg 1, t.pc))
    (State.reset.withFetchWord 32 0x0005F100) = some (5, 2) := by decide
theorem test_host_write : (State.hostWrite { State.reset with rs := .halted } .running).rs = .halted ∧
    (State.hostWrite { State.reset with rs := .breakpoint } .step).rs = .step := by decide
theorem test_fault_reasons : stepFaultReason (machine [] [0x3312]) = some .divideByZero ∧
    stepFaultReason (machine [(1, 0x8000), (2, 0xFFFF)] [0x3312]) = some .divideOverflow ∧
    stepFaultReason (machine [] [0xF00A]) = some .reservedIRX ∧
    stepFaultReason (machine [] [0x8000]) = some .reservedOpcode ∧
    stepFaultReason (machine [(3, 5)] [0xC300]) = some .trapCode ∧
    stepFaultReason (machine [] [0x0312]) = none := by decide

/-! ### History (L1-6) -/

/-- The state before the step of L1-6. -/
def beforeStep : State := machine [(1, 2)] [0x0111]

theorem test_record_node :
    stepView (fun t => (State.record beforeStep t).history) beforeStep =
      some [{ rs := .running, pc := 0, regs := [(1, 2), (15, 0)], mem := [(0, 0x0111)] }] := by decide
theorem test_undo_restores :
    (stepView (fun t => (State.record beforeStep t).undo.1) beforeStep).map
      (fun u => (u.reg 1, u.reg 15, u.pc, u.rs, u.history)) = some (2, 0, 0, .running, []) := by
  decide
theorem test_undo_at_root : (beforeStep.undo).2 = .atRoot := by decide

/-! ### Assembler (1, 2.6) -/

theorem test_assemble_forward : assembled " jump target[R0]\n trap R0,R0,R0\ntarget data 5\n"
    = ([0xF003, 0x0003, 0xC000, 0x0005], []) := by decide
theorem test_assemble_backward : assembled "target data 5\n jump target[R0]\n trap R0,R0,R0\n"
    = ([0x0005, 0xF003, 0x0000, 0xC000], []) := by decide
theorem test_assemble_end_to_end :
    (Asm.assemble " lea R1,1[R0]\n loop data 0\n trap R0,R0,R0\n".toList) =
      { words := [0xF100, 0x0001, 0x0000, 0xC000], symbols := [("loop".toList, 2)],
        lineMap := [(0, 1), (1, 1), (2, 2), (3, 3)], errors := [], registers := [0, 1] } := by decide
theorem test_assemble_one_missing_halt : assembled " load R1,y[R0]\n add R1,R2,R16\n"
    = ([0xF101, 0x0000], [(.unknownToken, 2), (.unresolvedLabel, 1), (.missingHalt, 3)]) := by decide
theorem test_assemble_data_is_no_halt : assembled " x data $C000\n"
    = ([0xC000], [(.missingHalt, 2)]) := by decide
theorem test_assemble_malformed_jump : assembled " jump 5[R0]\n trap R0,R0,R0\n"
    = ([0xC000], [(.malformedJump, 1)]) := by decide
theorem test_assemble_jump_line_is_one_token : assembled " jump\n jump t [R1]\n trap R0,R0,R0\n"
    = ([0xC000], [(.malformedJump, 1), (.malformedJump, 2)]) := by decide
theorem test_assemble_stray_argument : assembled " R1,R2,R16\n R1,R2,R3\n trap R0,R0,R0\n"
    = ([0xC000], [(.instructionArgumentMismatch, 1), (.unknownToken, 1),
        (.instructionArgumentMismatch, 2)]) := by decide
theorem test_assemble_not_on_new_line :
    assembled " add R1,R2,R3 add R1,R2,R3\n trap R0,R0,R0\n"
      = ([0x0123, 0x0123, 0xC000], [(.instructionNotOnNewLine, 1)]) := by decide
theorem test_assemble_last_definition : assembled "a data 1\na data 2\n jump a[R0]\n trap R0,R0,R0\n"
    = ([0x0001, 0x0002, 0xF003, 0x0001, 0xC000], []) := by decide
theorem test_assemble_jumpne : assembled " jumpne $0010[R3]\n trap R0,R0,R0\n"
    = ([0xF037, 0x0010, 0xC000], []) := by decide
theorem test_validator_two_openings :
    (Asm.assembleLexemes [.token (.opening .rrr 0), .token (.opening .rrr 0x1000),
      .token (.arg .rrr "R1,R2,R3".toList)]).errors.map Asm.Error.kind =
      [.instructionArgumentMismatch, .instructionNotOnNewLine, .missingHalt] := by decide

/-! ### Witnesses: states and operands that meet the hypotheses of the statements -/

/-- Two sources with the given values in R1 and R2. -/
def sources (x y : Word) : State := machine [(1, x), (2, y)] []

theorem witness_DivGivesQuotientAndRemainder :
    ((sources 0x8000 1).reg 2 ≠ 0 ∧
      ¬((sources 0x8000 1).reg 1 = 0x8000 ∧ (sources 0x8000 1).reg 2 = 0xFFFF)) ∧
    ((sources 0x8001 0xFFFF).reg 2 ≠ 0 ∧
      ¬((sources 0x8001 0xFFFF).reg 1 = 0x8000 ∧ (sources 0x8001 0xFFFF).reg 2 = 0xFFFF)) := by
  decide

theorem witness_DivnDividesTheMaskedOperand : (sources 0 1).reg 2 ≠ 0 := by decide

theorem witness_DivisionFaultsWriteNothing : (sources 7 0).reg 2 = 0 ∧
    (sources 0x8000 0xFFFF).reg 1 = 0x8000 ∧ (sources 0x8000 0xFFFF).reg 2 = 0xFFFF := by decide

theorem witness_WideOperandIgnoresR15 :
    (1 : Reg) ≠ 15 ∧ (2 : Reg) ≠ 15 ∧ (sources 5 3).reg 2 ≠ 0 ∧
    ∃ t t' u u', exec (.muln 3 1 2) (sources 5 3) = .next t ∧
      exec (.muln 3 1 2) ((sources 5 3).setReg 15 7) = .next t' ∧
      exec (.divn 3 1 2) (sources 5 3) = .next u ∧
      exec (.divn 3 1 2) ((sources 5 3).setReg 15 7) = .next u' :=
  ⟨by decide, by decide, by decide, _, _, _, _, rfl, rfl, rfl, rfl⟩

theorem witness_AddressSumsWrapBySubtracting65535 :
    (0x8000 : Word).toNat + (0x7FFF : Word).toNat ≤ 65535 ∧
    65535 < (0x8000 : Word).toNat + (0x8000 : Word).toNat := by decide

theorem witness_StoreWritesTheAddressedWordOnly : (machine [] [1, 2]).mem.wf = true := by decide

theorem witness_StoreIsSeenByTheNextFetch : (sources 7 9).mem.wf = true ∧
    ∃ t, exec (.store 1 2 0xFFFF) (sources 7 9) = .next t := ⟨by decide, _, rfl⟩

theorem witness_JumpsAfterCmpDecideSignedOrder :
    ∃ t, exec (.cmp 1 2) (sources 0xFFFF 1) = .next t := ⟨_, rfl⟩

theorem witness_HaltOnlyByTrapCodeZero : (sources 0 0).reg 0 = 0 ∧
    (∃ t, step (machine [] [0xC000]) = .next t ∧ (machine [] [0xC000]).rs ≠ .halted ∧
      t.rs = .halted) ∧
    ({ State.reset with rs := .halted } : State).rs = .halted :=
  ⟨by decide, ⟨_, rfl, by decide, by decide⟩, rfl⟩

theorem witness_TrapCodeFourBreaks : (sources 4 0).reg 1 = 4 := by decide

theorem witness_TrapStubsAndUserTrapsDoNothing : (sources 1 0).reg 1 = 1 ∧ (sources 2 0).reg 1 = 2 ∧
    (sources 3 0).reg 1 = 3 ∧ 255 ≤ ((sources 255 0).reg 1).toNat ∧
    255 ≤ ((sources 0xFFFF 0).reg 1).toNat := by decide

theorem witness_TrapMidCodesFault : 5 ≤ ((sources 5 254).reg 1).toNat ∧
    ((sources 5 254).reg 1).toNat < 255 ∧ 5 ≤ ((sources 5 254).reg 2).toNat ∧
    ((sources 5 254).reg 2).toNat < 255 := by decide

/-- A running machine at an instruction of one word, and one at an instruction of two. -/
def oneWord : State := machine [] [0x0312]
def twoWords : State := { machine [] [0xF100, 0x0005] with rs := .step }

theorem witness_StepRunsTheDecodedInstruction :
    oneWord.rs = .running ∧ twoWords.rs = .step ∧
    decode (oneWord.word oneWord.pc) (oneWord.word (oneWord.pc + 1)) = .ok (.add 3 1 2) ∧
    (Instr.add 3 1 2).secondWord = none ∧
    decode (twoWords.word twoWords.pc) (twoWords.word (twoWords.pc + 1)) = .ok (.lea 1 0 5) ∧
    (Instr.lea 1 0 5).secondWord = some (twoWords.word (twoWords.pc + 1)) := by decide

theorem witness_StepOutsideRunningAndStepChangesNothing :
    State.reset.rs ≠ .running ∧ State.reset.rs ≠ .step := by decide

/-- The word at pc of a running machine. -/
def wordAtPc (w : Word) : Nat := ((machine [] [w]).word (machine [] [w]).pc).toNat

theorem witness_ReservedEncodingsEndInError : (machine [] [0x8000]).rs = .running ∧
    wordAtPc 0x8000 / 4096 ∈ [0x8, 0x9, 0xA, 0xB, 0xD, 0xE] ∧
    wordAtPc 0xEFFF / 4096 ∈ [0x8, 0x9, 0xA, 0xB, 0xD, 0xE] ∧
    wordAtPc 0xF00A / 4096 = 0xF ∧ 0xA ≤ wordAtPc 0xF00A % 16 ∧
    wordAtPc 0xF00F / 4096 = 0xF ∧ 0xA ≤ wordAtPc 0xF00F % 16 := by decide

theorem witness_StepFaultsExactlyInTheListedCases : oneWord.rs = .running ∧
    (∃ t, step oneWord = .next t) ∧
    ∃ t, step (machine [] [0xE000]) = .next t ∧ t.rs = .error :=
  ⟨rfl, ⟨_, rfl⟩, _, rfl, by decide⟩

theorem witness_FaultingStepMutatesNothingButPc : (machine [(1, 7)] [0x3312]).rs = .running ∧
    ∃ t, step (machine [(1, 7)] [0x3312]) = .next t ∧ t.rs = .error := ⟨rfl, _, rfl, by decide⟩

theorem witness_StepLeavesRunStateButForTrapsAndFaults : twoWords.rs = .step ∧
    ∃ t, step twoWords = .next t := ⟨rfl, _, rfl⟩

theorem witness_OnlyStoreWritesMemory :
    (∀ d a w2, (Instr.load 1 0 0xFFFF) ≠ .store d a w2) ∧
    ∃ t, exec (.load 1 0 0xFFFF) oneWord = .next t := ⟨by intros; nofun, _, rfl⟩

theorem witness_OnlyJumpsWritePc :
    ¬((Instr.store 1 0 9).op = 0xF ∧ 3 ≤ (bField (Instr.store 1 0 9).firstWord).val) ∧
    ∃ t, exec (.store 1 0 9) oneWord = .next t := ⟨by decide, _, rfl⟩

/-- A load, and a reserved encoding of two words. -/
theorem witness_StepRecordsExactlyItsAccesses : (machine [] [0xF201, 0x0009]).rs = .running ∧
    (∃ t, step (machine [] [0xF201, 0x0009]) = .next t ∧ t.accessed = [0, 1, 9]) ∧
    (machine [] [0xF00A]).rs = .running ∧
    ∃ t, step (machine [] [0xF00A]) = .next t ∧ t.accessed = [0, 1] :=
  ⟨rfl, ⟨_, rfl, by decide⟩, rfl, _, rfl, by decide⟩

theorem witness_StepTracksEveryChange :
    ∃ t, step beforeStep = .next t ∧ t.reg 1 ≠ beforeStep.reg 1 := ⟨_, rfl, by decide⟩

theorem witness_StepTracksEveryChange_word :
    ∃ t, step (machine [(2, 7)] [0xF202, 0x0014]) = .next t ∧
      t.word 20 ≠ (machine [(2, 7)] [0xF202, 0x0014]).word 20 := ⟨_, rfl, by decide⟩

theorem witness_MemoryReadsBackWhatWasWritten : (machine [] [5, 0, 6]).mem.wf = true := by decide

/-- Images: one that the host may load with its only error, one it may not, and one with no error. -/
def haltless : Asm.Image := Asm.assemble " add R1,R2,R3\n".toList
def unknownWord : Asm.Image := Asm.assemble " add R1,R2,R16\n".toList
def zeros (n : Nat) : Asm.Image :=
  { words := List.replicate n 0, symbols := [], lineMap := [], errors := [], registers := [] }

theorem witness_ResetLoadsTheImage :
    ((∀ e ∈ haltless.errors, e.kind = .missingHalt) ∧ haltless.errors ≠ [] ∧
      haltless.words.length ≤ 65536) ∧
    (∀ e ∈ (zeros 65536).errors, e.kind = .missingHalt) ∧ (zeros 65536).words.length ≤ 65536 :=
  ⟨by decide, by nofun, List.length_replicate.le⟩

theorem witness_ResetRefusesOtherImages : (∃ e ∈ unknownWord.errors, e.kind ≠ .missingHalt) ∧
    (∀ e ∈ (zeros 65537).errors, e.kind = .missingHalt) ∧ 65536 < (zeros 65537).words.length :=
  ⟨by decide, by nofun, by rw [zeros, List.length_replicate]; decide⟩

theorem witness_ResetStateIsTheEmptyImageReset : State.reset.freeCount = 0 := by decide

theorem witness_HostWritesRunStateOutsideHaltedAndError :
    (State.reset.rs ≠ .halted ∧ State.reset.rs ≠ .error) ∧
    ({ State.reset with rs := .halted } : State).rs = .halted ∧
    ({ State.reset with rs := .error } : State).rs = .error := by decide

theorem witness_OnlyResetAndUndoLeaveHaltedAndError :
    ({ State.reset with rs := .error } : State).rs = .error ∧
    (∃ t, transact { State.reset with rs := .error } .step = .next t) ∧
    ∃ t, transact { State.reset with rs := .halted } (.hostWrite .running) = .next t :=
  ⟨rfl, ⟨_, rfl⟩, _, rfl⟩

/-- The states of the tests meet the invariant. -/
theorem beforeStep_inv : Inv beforeStep :=
  ⟨by decide, by decide, by decide, by decide, by simp [beforeStep, machine, State.setReg, State.reset]⟩

theorem witness_StepKeepsInvariant : Inv beforeStep ∧ ∃ t, step beforeStep = .next t :=
  ⟨beforeStep_inv, _, rfl⟩

theorem witness_TransactionsKeepInvariant : Inv beforeStep ∧
    (∃ t, transact beforeStep .undo = .next t) ∧
    (∃ t, transact beforeStep (.record State.reset) = .next t) ∧
    ∃ t, transact beforeStep (.reset haltless Display.initial) = .next t :=
  ⟨beforeStep_inv, ⟨_, rfl⟩, ⟨_, rfl⟩, _, rfl⟩

theorem witness_StepRecordUndoRestoresTheState : Inv beforeStep ∧
    ∃ t, step beforeStep = .next t ∧ t.reg 1 ≠ beforeStep.reg 1 := ⟨beforeStep_inv, _, rfl, by decide⟩

/-- A recorded node with a register and a memory word. -/
def node : Snapshot := { rs := .step, pc := 7, regs := [(1, 9)], mem := [(65535, 4)] }

theorem witness_UndoWritesTheTopNodeBack :
    ({ beforeStep with history := [node] } : State).mem.wf = true ∧
    ({ beforeStep with history := [node] } : State).history = node :: [] ∧
    (node.regs.map Prod.fst).Nodup ∧ (node.mem.map Prod.fst).Nodup ∧
    (∀ e ∈ node.mem, e.1 < 65536) ∧ State.reset.history = [] := by decide

theorem witness_EncodeOfDecodeIsTheWord : WellFormed.firstWord 0x0FFF = true ∧
    WellFormed.firstWord 0x40FF = true ∧ WellFormed.firstWord 0xFFF2 = true ∧
    WellFormed.firstWord 0xF0F3 = true ∧ WellFormed.firstWord 0xF0F9 = true := by decide

theorem witness_DecoderRejectsExactlyTheReserved :
    WellFormed.opcode 0xD000 = false ∧ WellFormed.selector 0xF00A = false ∧
    decode 0xD000 0 = .error (.opcode 0xD000) := by decide

theorem witness_UnusedFieldsAreIgnored :
    (3 ≤ (3 : Reg).val ∧ (3 : Reg).val ≤ 9) ∧ 3 ≤ (9 : Reg).val ∧ (9 : Reg).val ≤ 9 := by decide

theorem witness_DecodedWordMatchesOneTableRow : decode 0xF0F9 1 = .ok (.jumpgt 15 1) ∧
    (Instr.jumpgt 0 0).row.matchesWord 0xF0F9 = true := by decide

/-- The items of L1-2's forward form. -/
def forwardItems : List Asm.Lexeme :=
  (Asm.lex " jump target[R0]\n trap R0,R0,R0\ntarget data 5\n".toList).map Asm.Item.lexeme

/-- An instruction and its halt word, then the same words as data. -/
def haltItems : List Asm.Lexeme :=
  [.token (.opening .rrr 0xC000), .token .ignore, .token (.arg .rrr "R0,R0,R0".toList)]

theorem witness_MissingHaltExactlyWhenNoHaltWord :
    HaltIn haltItems (haltItems.take 2) ∧ (Asm.pass1All haltItems).haltIndex = some 0 ∧
    (Asm.pass1All forwardItems).haltIndex = some 2 ∧
    (∀ before, ¬HaltIn [.token (.data "x data $C000".toList)] before) ∧
    (Asm.pass1All [.token (.data "x data $C000".toList)]).haltIndex = none := by
  refine ⟨⟨0xC000, _, 0, 0, 0, [], ⟨[], [.token .ignore], rfl, by simp⟩, rfl, by decide, by decide⟩,
    by decide, by decide, ?_, by decide⟩
  rintro before ⟨p, text, d, a, b, post, ⟨pre, between, rfl, -⟩, h, -⟩
  cases pre <;> simp at h

theorem witness_LineMapCoversTheImage : (∃ pre x post, forwardItems = pre ++ x :: post ∧
      (Asm.pass1All pre).buffer.length ≤ 2 ∧ 2 < (Asm.pass1All (pre ++ [x])).buffer.length) ∧
    (Asm.assemble " jump target[R0]\n trap R0,R0,R0\ntarget data 5\n".toList).lineMap.lookup 2 =
      some 2 :=
  ⟨⟨forwardItems.take 6, .token (.arg .rrr "R0,R0,R0".toList), forwardItems.drop 7, by decide,
    by decide, by decide⟩, by decide⟩

theorem witness_BackpatchWritesLabelAddresses :
    (Asm.pass1All forwardItems).labels.lookup "target".toList = some (3, 3) ∧
    (Asm.pass1All forwardItems).patches.lookup "target".toList = some [1] ∧ 1 ∈ [1] ∧ 3 < 65536 := by
  decide

theorem witness_UnresolvedOnlyForUndefinedReferences :
    (Asm.pass1All [.token (.jump "jump a".toList), .token (.jump "jump b".toList),
      .token (.label "c".toList)]).patches = [("a".toList, [1]), ("b".toList, [3])] ∧
    (errorsOf .unresolvedLabel (Asm.assemble " jump a\n jump b\nc\n".toList)).map
      (fun e => e.line) = [1, 2] := by decide

/-- The text may end with an instruction whose arguments have not come, and without one. -/
theorem witness_ValidatorReportsExactlyTheMisplaced :
    (∃ f, (Asm.pass1All [.token (.opening .rrr 0)]).last = .ins f) ∧
    (∀ f, (Asm.pass1All haltItems).last ≠ .ins f) :=
  ⟨⟨_, rfl⟩, fun f h => by cases (show Asm.LastKind.done = .ins f from h)⟩

theorem witness_AssembledInstructionsDecodeBack :
    ("add".toList, Asm.Family.rrr, (0 : Word)) ∈ Asm.mnemonics ∧
    ("trap".toList, Asm.Family.rrr, (0xC000 : Word)) ∈ Asm.mnemonics ∧
    ("cmp".toList, Asm.Family.rr, (0x4000 : Word)) ∈ Asm.mnemonics ∧
    ("store".toList, Asm.Family.irx, (0xF002 : Word)) ∈ Asm.mnemonics ∧
    Asm.parseValue "65535".toList = some (.literal 0xFFFF) ∧
    Asm.parseValue "y".toList = some (.label "y".toList) ∧
    ("jumpgt".toList, (0xF009 : Word)) ∈ Asm.jumpMnemonics ∧
    Asm.parseTarget "$FFFF".toList = some (.literal 0xFFFF) ∧
    Asm.parseTarget "y".toList = some (.label "y".toList) := by decide

theorem witness_DataDefinesItsNameAndEmitsOneWord :
    Asm.parseData "x data $FFEF".toList = some ("x".toList, .literal 0xFFEF) ∧
    Asm.parseData "ptr data skip".toList = some ("ptr".toList, .label "skip".toList) := by decide

theorem witness_LexerSpansCoverTheText : " add R1,R2,R3\n".toList ≠ [] := by decide

end Sys2Proof.Tests
end

section
/-! The state's invariant is kept by every step and every transaction, only a jump writes pc, and a step
outside Running and Step does nothing (10_state.md R22, R32, R34, R36, R37). -/

namespace Sys2Proof.Safety

open Machine

/-! ### The invariant -/

/-- The reset state meets the invariant (10_state.md R42). -/
theorem inv_reset : Inv State.reset where
  memory := reset_mem_wf
  used := rfl
  accessed := rfl
  slotZero := rfl
  history _ hn := nomatch hn

/-- The effect of an instruction or a fetch keeps the invariant. -/
theorem Inv.of_effect {s t : State} (h : Inv s) (e : Effect s t) : Inv t where
  memory := e.memWf h.memory
  used := e.usedWf h.used
  accessed := e.accessedWf h.accessed
  slotZero := e.slotZero.trans h.slotZero
  history := e.host.history.symm ▸ h.history

/-- `reset_accessed` keeps the invariant: the empty set is sorted (20_memory.md R54). -/
theorem Inv.resetAccessed {s : State} (h : Inv s) : Inv s.resetAccessed :=
  { h with accessed := rfl }

/-- A step keeps the invariant, executing or not (40_controller.md R101 to R105). -/
theorem Inv.step {s t : State} (h : Inv s) (ht : step s = .next t) : Inv t := by
  rcases step_effect ht with ⟨-, rfl⟩ | ⟨-, e⟩
  · exact h
  · exact h.resetAccessed.of_effect e

/-- A loaded image that fits gives a state that meets the invariant (70_reset_and_hazards.md R291). -/
theorem inv_ofImage {image : Asm.Image} (hfit : image.words.length ≤ 65536) (display : Display)
    (freeCount : Nat) : Inv (State.ofImage image display freeCount) :=
  { inv_reset with
    memory := Memory.ofWords_wf hfit
    used := AddrSet.range_wf hfit }

/-- What a reset that is not refused gives meets the invariant, whatever the state before (R290, R292). -/
theorem inv_of_resetWith {s t : State} {image : Asm.Image} {display : Display}
    (ht : s.resetWith image display = .next t) : Inv t := by
  unfold State.resetWith at ht
  split at ht
  · cases ht
  · split at ht
    · cases ht
    · rename_i hfit
      cases ht
      exact inv_ofImage (by simpa [imageFits] using hfit) display s.freeCount

/-- A host write of the run-state keeps the invariant, effective or not (40_controller.md R112). -/
theorem Inv.hostWrite {s : State} (h : Inv s) (r : HostRunState) : Inv (s.hostWrite r) := by
  unfold State.hostWrite
  split
  · exact h.of_effect (Effect.setRs s _)
  · exact h

/-- A node recorded after a state whose `accessed` set is in range restores existing addresses only
(46_history.md R261). -/
theorem snapshotWf_snapshot (pre : State) {post : State} (h : AddrSet.wf post.accessed = true) :
    SnapshotWf (snapshot pre post) := by
  intro e he
  obtain ⟨n, hn, rfl⟩ := List.mem_map.1 he
  exact AddrSet.lt_of_mem h hn

/-- Recording keeps the invariant, whatever state is given as the one before (46_history.md R261). -/
theorem Inv.record {s : State} (h : Inv s) (pre : State) : Inv (State.record pre s) :=
  { h with history := List.forall_mem_cons.2 ⟨snapshotWf_snapshot pre h.accessed, h.history⟩ }

/-- Writing a node over existing addresses back keeps the canonical form of memory (46_history.md R263). -/
theorem applySnapshot_mem_wf {s : State} {n : Snapshot} (h : s.mem.wf = true) (hn : SnapshotWf n) :
    (s.applySnapshot n).mem.wf = true := by
  obtain ⟨hmem, -⟩ := State.restoreRegs_frame n.regs s
  exact State.restoreMem_wf n.mem _ (hmem.symm ▸ h) hn

/-- Writing a node back leaves R0's slot alone (10_state.md R22). -/
theorem applySnapshot_slotZero (s : State) (n : Snapshot) :
    (s.applySnapshot n).regs[0] = s.regs[0] := by
  obtain ⟨hregs, -⟩ := State.restoreMem_frame n.mem (s.restoreRegs n.regs)
  calc (s.applySnapshot n).regs[0]
      = (s.restoreRegs n.regs).regs[0] := congrArg (·[0]) hregs
    _ = s.regs[0] := State.restoreRegs_other n.regs 0 s (.inr rfl)

/-- Undo keeps the invariant: the free sets are sorted and in range by their form (R263 to R265, log 6). -/
theorem Inv.undo {s : State} (h : Inv s) : Inv s.undo.1 := by
  unfold State.undo
  split
  · exact h
  · rename_i n rest heq
    obtain ⟨hn, hrest⟩ := List.forall_mem_cons.1 (heq ▸ h.history)
    exact {
      memory := applySnapshot_mem_wf h.memory hn
      used := AddrSet.ofWords_wf _
      accessed := AddrSet.ofWords_wf _
      slotZero := (applySnapshot_slotZero s n).trans h.slotZero
      history := hrest }

/-- Every transaction the host can make keeps the invariant (00_scope.md R17). -/
theorem Inv.transact {s t : State} {tr : Transaction} (h : Inv s)
    (ht : transact s tr = .next t) : Inv t := by
  cases tr with
  | step => exact h.step ht
  | reset image display => exact inv_of_resetWith ht
  | hostWrite r => cases ht; exact h.hostWrite r
  | resetAccessed => cases ht; exact h.resetAccessed
  | record pre => cases ht; exact h.record pre
  | undo => cases ht; exact h.undo
  | assemble text => cases ht; exact h

end Sys2Proof.Safety

namespace Sys2Proof.Machine

/-! ### Who writes pc -/

/-- Writing the results of add, sub, addc and mul, in a state with the pc of s, leaves that pc. -/
theorem State.writeRdThenR15_pc {s u t : State} {d : Reg} {o : RdR15}
    (h : u.writeRdThenR15 d o = .next t) (hu : u.pc = s.pc) : t.pc = s.pc := by
  cases h; simpa using hu

/-- Writing the results of div, divn and muln, in a state with the pc of s, leaves that pc. -/
theorem State.writeR15ThenRd_pc {s u t : State} {d : Reg} {o : RdR15}
    (h : u.writeR15ThenRd d o = .next t) (hu : u.pc = s.pc) : t.pc = s.pc := by
  cases h; simpa using hu

/-- An instruction leaves pc as the fetch left it, unless it is a jump: op 0xF with selector 3 or more
(10_state.md R32, 30_encoding.md R78). -/
theorem exec_pc {i : Instr} {s t : State} (h : exec i s = .next t) :
    t.pc = s.pc ∨ (i.op = 0xF ∧ 3 ≤ (bField i.firstWord).val) := by
  cases i with
  | add d a b | sub d a b | mul d a b | addc d a b => exact .inl (State.writeRdThenR15_pc h rfl)
  | muln d a b => exact .inl (State.writeR15ThenRd_pc h rfl)
  | div d a b =>
    simp only [exec, execDiv] at h
    split at h
    · cases h; exact .inl rfl
    · exact .inl (State.writeR15ThenRd_pc h rfl)
  | divn d a b =>
    simp only [exec, execDivn] at h
    split at h
    · cases h; exact .inl rfl
    · exact .inl (State.writeR15ThenRd_pc h rfl)
  | cmp a b => cases h; exact .inl (State.setReg_pc _ _ _)
  | trap d a b =>
    rw [exec_trap] at h
    split_ifs at h <;> cases h <;> exact .inl rfl
  | lea d a w2 | load d a w2 => cases h; exact .inl (State.setReg_pc _ _ _)
  | store d a w2 => cases h; exact .inl rfl
  | jump a w2 | jumplt a w2 | jumple a w2 | jumpeq a w2 | jumpne a w2 | jumpge a w2 | jumpgt a w2 =>
    exact .inr ⟨rfl, by simp [Instr.firstWord]⟩

/-- Outside Running and Step no instruction is executed (10_state.md R34). -/
theorem RunState.executes_eq_false {r : RunState} (hr : r ≠ .running) (hs : r ≠ .step) :
    r.executes = false := by
  cases r with
  | running => exact absurd rfl hr
  | step => exact absurd rfl hs
  | error | paused | breakpoint | halted | interrupted => rfl

/-- A step in a run-state that does not permit executing changes nothing (40_controller.md R101). -/
theorem step_of_not_executes {s : State} (h : s.rs.executes = false) : step s = .next s := by
  unfold step
  rw [if_neg (by simp [h])]

end Sys2Proof.Machine

namespace Sys2Proof.Safety

open Machine

/-! ### The statements about the state -/

/-- Settles O42: an executing step is an effect on the state with `accessed` emptied, and effects keep
the invariant. -/
theorem stepKeepsInvariant : Obligations.StepKeepsInvariant :=
  fun _ _ h ht => h.step ht

/-- Settles O43, one transaction at a time. -/
theorem transactionsKeepInvariant : Obligations.TransactionsKeepInvariant :=
  fun _ _ _ h ht => h.transact ht

/-- Settles O31: what `exec_pc` leaves once the jumps are excluded. -/
theorem onlyJumpsWritePc : Obligations.OnlyJumpsWritePc :=
  fun _ _ _ h hjump => (exec_pc h).resolve_right hjump

/-- Settles O24, by the run-states that permit executing. -/
theorem stepOutsideRunningAndStepChangesNothing :
    Obligations.StepOutsideRunningAndStepChangesNothing :=
  fun _ hr hs => step_of_not_executes (RunState.executes_eq_false hr hs)

/-- Settles O41. -/
theorem resetStateMeetsInvariant : Obligations.ResetStateMeetsInvariant := inv_reset

end Sys2Proof.Safety
end

section
/-! Memory accesses: what the primitives read, write and record, which instructions access memory, and
what a step records (20_memory.md R51 to R57, R66). -/

namespace Sys2Proof.Safety

open Machine

/-! ### Operations that leave memory and the tracking sets alone -/

theorem SameMemory.set {s t : State} (h : SameMemory s t) (i : Reg) (v : Word) :
    SameMemory s (t.setReg i v) where
  words a := by rw [State.word_setReg, h.words]
  used := by rw [State.setReg_used, h.used]
  accessed := by rw [State.setReg_accessed, h.accessed]

theorem SameMemory.setPc {s t : State} (h : SameMemory s t) (pc : Word) : SameMemory s (t.setPc pc) :=
  ⟨h.words, h.used, h.accessed⟩

theorem SameMemory.setRs {s t : State} (h : SameMemory s t) (r : RunState) :
    SameMemory s (t.setRs r) := ⟨h.words, h.used, h.accessed⟩

theorem SameMemory.touchSources (s : State) (a b : Reg) : SameMemory s (s.touchSources a b) :=
  ((SameMemory.refl s).touch a).touch b

theorem SameMemory.of_writeRdThenR15 {s t u : State} {d : Reg} {o : RdR15} (h : SameMemory s u)
    (ht : u.writeRdThenR15 d o = .next t) : SameMemory s t := by
  cases ht
  exact (h.set d _).set 15 _

theorem SameMemory.of_writeR15ThenRd {s t u : State} {d : Reg} {o : RdR15} (h : SameMemory s u)
    (ht : u.writeR15ThenRd d o = .next t) : SameMemory s t := by
  cases ht
  exact (h.set 15 _).set d _

theorem SameMemory.of_raiseError {s t u : State} {r : Fault} (h : SameMemory s u)
    (ht : raiseError r u = .next t) : SameMemory s t := by
  cases ht
  exact h.setRs .error

theorem SameMemory.of_jumpWhen {s t u : State} {taken : Bool} {a : Reg} {w2 : Word}
    (h : SameMemory s u) (ht : u.jumpWhen taken a w2 = .next t) : SameMemory s t := by
  cases ht
  cases taken with
  | false => exact h.touch a
  | true => exact (h.touch a).setPc _

/-! ### Accesses -/

/-- Accessing `a` from a state with the tracking sets of `s` records exactly `a` (20_memory.md R53). -/
theorem Recorded.touchMem {s u : State} (a : Word) (hacc : u.accessed = s.accessed)
    (hused : u.used = s.used) : Recorded a s (u.touchMem a) where
  accessed n := by rw [State.touchMem_accessed, hacc, AddrSet.mem_insert, or_comm]
  used n := by rw [State.touchMem_used, hused, AddrSet.mem_insert, or_comm]

/-- A register write after an access leaves the record (20_memory.md R53). -/
theorem Recorded.set {a : Word} {s t : State} (h : Recorded a s t) (i : Reg) (v : Word) :
    Recorded a s (t.setReg i v) where
  accessed n := by rw [State.setReg_accessed, h.accessed]
  used n := by rw [State.setReg_used, h.used]

theorem recorded_memRead (s : State) (a : Word) : Recorded a s (s.memRead a).2 :=
  Recorded.touchMem a rfl rfl

theorem recorded_memWrite (s : State) (a v : Word) : Recorded a s (s.memWrite a v) :=
  Recorded.touchMem a rfl rfl

end Sys2Proof.Safety

namespace Sys2Proof.Machine

open Safety

/-- Read after write of a word, in a canonical memory (20_memory.md R51, R52). -/
theorem State.word_memWrite (s : State) (a v b : Word) (h : s.mem.wf = true) :
    (s.memWrite a v).word b = if b = a then v else s.word b := by
  by_cases hb : b = a
  · rw [if_pos hb, hb, s.word_memWrite_same a v h]
  · rw [if_neg hb, s.word_memWrite_other a v hb]

/-- The first word of a fetch is the word at pc, whatever the instruction's length (40_controller.md R103). -/
theorem State.fetch_firstWord (s : State) : s.fetch.1 = s.word s.pc := by
  cases h : isTwoWords (s.word s.pc) with
  | false => rw [s.fetch_one h]
  | true => rw [s.fetch_two h]

/-! ### Which instructions access memory -/

/-- An instruction accesses no memory, or is a load, which writes none, or is a store; a load or a store
accesses its effective address only (42_load_store.md R152, R153, 20_memory.md R57). -/
theorem exec_memory {i : Instr} {s t : State} (h : exec i s = .next t) :
    (SameMemory s t ∧ (∀ d a w2, i ≠ .load d a w2) ∧ ∀ d a w2, i ≠ .store d a w2) ∨
    (∃ d a w2, i = .load d a w2 ∧ (∀ x, t.word x = s.word x) ∧ Recorded (s.ea a w2) s t) ∨
    ∃ d a w2, i = .store d a w2 ∧ Recorded (s.ea a w2) s t := by
  cases i with
  | load d a w2 =>
    cases h
    have hrec : Recorded (s.ea a w2) s ((s.touchReg a).memRead (s.ea a w2)).2 :=
      Recorded.touchMem _ rfl rfl
    exact .inr (.inl ⟨d, a, w2, rfl, State.word_setReg _ d _, hrec.set d _⟩)
  | store d a w2 => cases h; exact .inr (.inr ⟨d, a, w2, rfl, Recorded.touchMem _ rfl rfl⟩)
  | add d a b | sub d a b | mul d a b =>
    exact .inl ⟨(SameMemory.touchSources s a b).of_writeRdThenR15 h, nofun, nofun⟩
  | addc d a b =>
    exact .inl ⟨((SameMemory.touchSources s a b).touch 15).of_writeRdThenR15 h, nofun, nofun⟩
  | muln d a b =>
    exact .inl ⟨((SameMemory.touchSources s a b).touch 15).of_writeR15ThenRd h, nofun, nofun⟩
  | div d a b =>
    refine .inl ⟨?_, nofun, nofun⟩
    simp only [exec, execDiv] at h
    split at h
    · exact (SameMemory.touchSources s a b).of_raiseError h
    · exact (SameMemory.touchSources s a b).of_writeR15ThenRd h
  | divn d a b =>
    refine .inl ⟨?_, nofun, nofun⟩
    simp only [exec, execDivn] at h
    split at h
    · exact ((SameMemory.touchSources s a b).touch 15).of_raiseError h
    · exact ((SameMemory.touchSources s a b).touch 15).of_writeR15ThenRd h
  | cmp a b => cases h; exact .inl ⟨(SameMemory.touchSources s a b).set 15 _, nofun, nofun⟩
  | trap d a b =>
    have hread := (SameMemory.refl s).touch d
    refine .inl ⟨?_, nofun, nofun⟩
    rw [exec_trap] at h
    split_ifs at h <;> cases h
    · exact hread.setRs .halted
    · exact hread.setRs .breakpoint
    · exact hread.setRs .error
    · exact hread
  | lea d a w2 => cases h; exact .inl ⟨((SameMemory.refl s).touch a).set d _, nofun, nofun⟩
  | jump a w2 => exact .inl ⟨(SameMemory.refl s).of_jumpWhen h, nofun, nofun⟩
  | jumplt a w2 | jumple a w2 | jumpeq a w2 | jumpne a w2 | jumpge a w2 | jumpgt a w2 =>
    exact .inl ⟨((SameMemory.refl s).touch 15).of_jumpWhen h, nofun, nofun⟩

/-- `n` is the address that the instruction, a load or a store, accesses (42_load_store.md R152, R153). -/
def IsDataAddress (i : Instr) (s : State) (n : Nat) : Prop :=
  ∃ (d a : Reg) (w2 : Word), (i = .load d a w2 ∨ i = .store d a w2) ∧ n = (s.ea a w2).toNat

theorem isDataAddress_load {d a : Reg} {w2 : Word} {s : State} {n : Nat} :
    IsDataAddress (.load d a w2) s n ↔ n = (s.ea a w2).toNat := by
  simp [IsDataAddress]

theorem isDataAddress_store {d a : Reg} {w2 : Word} {s : State} {n : Nat} :
    IsDataAddress (.store d a w2) s n ↔ n = (s.ea a w2).toNat := by
  simp [IsDataAddress]

theorem not_isDataAddress {i : Instr} (hl : ∀ d a w2, i ≠ .load d a w2)
    (hs : ∀ d a w2, i ≠ .store d a w2) (s : State) (n : Nat) : ¬IsDataAddress i s n := by
  rintro ⟨d, a, w2, h | h, -⟩
  · exact hl d a w2 h
  · exact hs d a w2 h

/-- The data addresses depend on the registers only. -/
theorem isDataAddress_congr {s u : State} (h : ∀ j, u.reg j = s.reg j) (i : Instr) (n : Nat) :
    IsDataAddress i u n ↔ IsDataAddress i s n := by
  simp only [IsDataAddress, State.ea, h]

/-- Both tracking sets gain exactly the instruction's data address (20_memory.md R53). -/
theorem exec_records {i : Instr} {s t : State} (h : exec i s = .next t) (n : Nat) :
    (n ∈ t.accessed ↔ n ∈ s.accessed ∨ IsDataAddress i s n) ∧
      (n ∈ t.used ↔ n ∈ s.used ∨ IsDataAddress i s n) := by
  rcases exec_memory h with ⟨hsame, hl, hs⟩ | ⟨d, a, w2, rfl, -, hrec⟩ | ⟨d, a, w2, rfl, hrec⟩
  · simp [hsame.accessed, hsame.used, not_isDataAddress hl hs]
  · rw [isDataAddress_load]
    exact ⟨hrec.accessed n, hrec.used n⟩
  · rw [isDataAddress_store]
    exact ⟨hrec.accessed n, hrec.used n⟩

/-- `n` is the address of the first or, for op 0xF, the second word of the instruction at pc (R103, R104). -/
def IsFetchAddress (s : State) (n : Nat) : Prop :=
  n = s.pc.toNat ∨ (isTwoWords (s.word s.pc) = true ∧ n = (s.pc + 1).toNat)

/-- A load or a store stands at pc and `n` is its effective address, in the registers before the step. -/
def IsStepDataAddress (s : State) (n : Nat) : Prop :=
  ∃ (d a : Reg) (w2 : Word), (decode (s.word s.pc) (s.word (s.pc + 1)) = .ok (.load d a w2) ∨
      decode (s.word s.pc) (s.word (s.pc + 1)) = .ok (.store d a w2)) ∧
    n = (s.ea a w2).toNat

theorem isStepDataAddress_of_ok {s : State} {i : Instr}
    (hd : decode (s.word s.pc) (s.word (s.pc + 1)) = .ok i) (n : Nat) :
    IsStepDataAddress s n ↔ IsDataAddress i s n := by
  simp only [IsStepDataAddress, IsDataAddress, hd, Except.ok.injEq]

theorem not_isStepDataAddress_of_error {s : State} {r : Reserved}
    (hd : decode (s.word s.pc) (s.word (s.pc + 1)) = .error r) (n : Nat) :
    ¬IsStepDataAddress s n := by
  rintro ⟨d, a, w2, hi | hi, -⟩ <;> cases hd.symm.trans hi

/-- `accessed` after an executing step: the fetched words and the data address (40_controller.md R102). -/
theorem step_accessed {s t : State} (hx : s.rs.executes = true) (h : step s = .next t) (n : Nat) :
    n ∈ t.accessed ↔ IsFetchAddress s n ∨ IsStepDataAddress s n := by
  have hfetch := fetch_spec s
  rcases step_cases hx h with ⟨r, hd, rfl⟩ | ⟨i, hd, he⟩
  · rw [or_iff_left (not_isStepDataAddress_of_error hd n)]
    exact hfetch.accessed n
  · rw [(exec_records he n).1, isDataAddress_congr hfetch.reg, isStepDataAddress_of_ok hd]
    exact or_congr_left (hfetch.accessed n)

/-- `used` after an executing step: what the step accessed has joined it (20_memory.md R53). -/
theorem step_used {s t : State} (hx : s.rs.executes = true) (h : step s = .next t) (n : Nat) :
    n ∈ t.used ↔ n ∈ s.used ∨ n ∈ t.accessed := by
  have hfetch := fetch_spec s
  rcases step_cases hx h with ⟨r, -, rfl⟩ | ⟨i, -, he⟩
  · exact hfetch.used n
  · obtain ⟨hacc, hused⟩ := exec_records he n
    rw [hused, hacc, hfetch.used, or_assoc]

/-- Running and Step permit executing (10_state.md R34). -/
theorem RunState.executes_of_running_or_step {r : RunState} (h : r = .running ∨ r = .step) :
    r.executes = true := by
  rcases h with rfl | rfl <;> rfl

end Sys2Proof.Machine

namespace Sys2Proof.Safety

open Machine

/-! ### The statements about memory -/

/-- Settles O34, from the read-after-write law and the record of each primitive. -/
theorem memoryReadsBackWhatWasWritten : Obligations.MemoryReadsBackWhatWasWritten :=
  fun s a v b h => ⟨⟨rfl, recorded_memRead s a, fun _ _ => rfl⟩, s.word_memWrite a v b h,
    recorded_memWrite s a v, fun _ _ _ => rfl⟩

/-- Settles O15: the next fetch reads the word at pc, which is the word just written. -/
theorem storeIsSeenByTheNextFetch : Obligations.StoreIsSeenByTheNextFetch := by
  intro d a w2 s t hwf h
  cases h
  rw [State.fetch_firstWord]
  exact State.word_memWrite_same ((s.touchReg a).touchReg d) (s.ea a w2) (s.reg d) hwf

/-- Settles O30: an instruction that is no store accesses no memory or is a load. -/
theorem onlyStoreWritesMemory : Obligations.OnlyStoreWritesMemory := by
  intro i s t h hstore
  rcases exec_memory h with ⟨hsame, -, -⟩ | ⟨-, -, -, -, hwords, -⟩ | ⟨d, a, w2, hi, -⟩
  · exact hsame.words
  · exact hwords
  · exact absurd hi (hstore d a w2)

/-- Settles O32: the fetch records the words at pc, and the instruction its data address. -/
theorem stepRecordsExactlyItsAccesses : Obligations.StepRecordsExactlyItsAccesses := by
  intro s t hrs h
  have hx := RunState.executes_of_running_or_step hrs
  exact ⟨fun n => (step_accessed hx h n).trans or_assoc, step_used hx h⟩

/-- Settles O35: by the definition, an update of that field alone. -/
theorem resetAccessedEmptiesOnlyThatSet : Obligations.ResetAccessedEmptiesOnlyThatSet :=
  fun _ => ⟨rfl, fun _ => rfl⟩

end Sys2Proof.Safety
end

section
/-! The encoding: which first words are reserved, the fields a decoded word shares with its instruction's own
first word, and the round trips of decode and encode (30_encoding.md R70 to R81, R92). -/

namespace Sys2Proof

open Machine

/-! ### The well-formedness checks in terms of the fields -/

/-- The reserved primary opcodes (R77, R81). -/
theorem opcode_eq_false_iff (ir : Word) :
    WellFormed.opcode ir = false ↔ ir.toNat / 4096 ∈ [0x8, 0x9, 0xA, 0xB, 0xD, 0xE] := by
  have := ir.isLt
  simp only [WellFormed.opcode, Bool.or_eq_false_iff, decide_eq_false_iff_not, beq_eq_false_iff_ne,
    List.mem_cons, List.not_mem_nil, or_false]
  omega

/-- The reserved selectors (R78, R81). -/
theorem selector_eq_false_iff (ir : Word) :
    WellFormed.selector ir = false ↔ ir.toNat / 4096 = 0xF ∧ 0xA ≤ ir.toNat % 16 := by
  simp [WellFormed.selector]

/-- Where the d field is unused it is 0 (R80). -/
theorem unusedField_iff (ir : Word) :
    WellFormed.unusedField ir = true ↔
      ((opField ir).toNat = 4 ∨ ((opField ir).toNat = 15 ∧ 3 ≤ (bField ir).val) → dField ir = 0) := by
  simp only [WellFormed.unusedField, Bool.not_or, Bool.not_and, Bool.or_eq_true, Bool.and_eq_true,
    Bool.not_eq_eq_eq_not, Bool.not_true, beq_eq_false_iff_ne, decide_eq_false_iff_not, beq_iff_eq,
    opField_toNat, bField_val, dField_val, Fin.ext_iff, Fin.coe_ofNat_eq_mod, Nat.zero_mod]
  omega

/-! ### Decoding the words of an instruction -/

/-- Decoding a packed word of op 0xF: its b nibble selects the instruction (R78). -/
theorem decode_packIRX (d a b : Reg) (w2 : Word) :
    decode (packNibbles 0xF d a b) w2 =
      match b.val with
      | 0x0 => .ok (.lea d a w2)
      | 0x1 => .ok (.load d a w2)
      | 0x2 => .ok (.store d a w2)
      | 0x3 => .ok (.jump a w2)
      | 0x4 => .ok (.jumplt a w2)
      | 0x5 => .ok (.jumple a w2)
      | 0x6 => .ok (.jumpeq a w2)
      | 0x7 => .ok (.jumpne a w2)
      | 0x8 => .ok (.jumpge a w2)
      | 0x9 => .ok (.jumpgt a w2)
      | _ => .error (.irx (packNibbles 0xF d a b)) := by
  have h := decodeIRX.eq_1 (packNibbles 0xF d a b) w2
  rw [dField_packNibbles, aField_packNibbles, bField_packNibbles] at h
  exact (decode_packNibbles 0xF d a b w2).trans h

/-- An instruction's first word, with its second one, decodes to it (R92). -/
theorem decode_firstWord (i : Instr) (w : Word) :
    decode i.firstWord (i.secondWord.getD w) = .ok i := by
  cases i with
  | add d a b | sub d a b | mul d a b | div d a b | addc d a b | muln d a b | divn d a b | trap d a b =>
    exact decode_packNibbles _ d a b _
  | cmp a b => exact decode_packNibbles 0x4 0 a b _
  | lea d a w2 | load d a w2 | store d a w2 => exact decode_packIRX d a _ w2
  | jump a w2 | jumplt a w2 | jumple a w2 | jumpeq a w2 | jumpne a w2 | jumpge a w2 | jumpgt a w2 =>
    exact decode_packIRX 0 a _ w2

/-- The head of a word list that needs no second word (R76). -/
theorem decodeWords_one {ir : Word} {i : Instr} (rest : List Word) (h : isTwoWords ir = false)
    (hd : decode ir 0 = .ok i) : decodeWords (ir :: rest) = .ok (i, rest) := by
  simp only [decodeWords, h, hd]

/-- The head of a word list that needs a second word (R76). -/
theorem decodeWords_two {ir w2 : Word} {i : Instr} (rest : List Word) (h : isTwoWords ir = true)
    (hd : decode ir w2 = .ok i) : decodeWords (ir :: w2 :: rest) = .ok (i, rest) := by
  simp only [decodeWords, h, hd]

/-- An instruction's words are its first word and, where a word that decodes to it has op 0xF, the second
word (R76). -/
theorem encode_of_decode {ir w2 : Word} {i : Instr} (h : decode ir w2 = .ok i) :
    encode i = if isTwoWords ir then [i.firstWord, w2] else [i.firstWord] := by
  rw [encode, secondWord_of_decode h]
  split <;> rfl

/-! ### What decoding a word tells about it -/

/-- The fields that a word shares with the first word of the instruction it decodes to: all but an unused d
field (R80). -/
structure SharesFields (ir : Word) (i : Instr) : Prop where
  op : opField ir = i.op
  a : aField ir = aField i.firstWord
  b : bField ir = bField i.firstWord
  d : WellFormed.unusedField ir = true → dField ir = dField i.firstWord

/-- The IRX map takes the base and, but for the jumps, the d field from the word (R78). -/
theorem sharesFields_of_decodeIRX {ir w2 : Word} {i : Instr} (hop : opField ir = 0xF)
    (h : decodeIRX ir w2 = .ok i) : SharesFields ir i := by
  unfold decodeIRX at h
  split at h <;> cases h
  all_goals
    rename_i hsel
    constructor
    · exact hop
    · simp [Instr.firstWord]
    · simp [Instr.firstWord, Fin.ext_iff, hsel]
    · simp [Instr.firstWord, unusedField_iff, hop, hsel]

/-- The operands of a decoded instruction are the word's fields (R79). -/
theorem sharesFields_of_decode {ir w2 : Word} {i : Instr} (h : decode ir w2 = .ok i) :
    SharesFields ir i := by
  unfold decode at h
  split at h
  case h_10 hop => exact sharesFields_of_decodeIRX (BitVec.eq_of_toNat_eq hop) h
  all_goals cases h
  all_goals
    rename_i hop
    constructor
    · exact BitVec.eq_of_toNat_eq hop
    · simp [Instr.firstWord]
    · simp [Instr.firstWord]
    · simp [Instr.firstWord, unusedField_iff, hop]

/-- The IRX map rejects the selectors from 0xA up (R78, R81). -/
theorem reserved_of_decodeIRX {ir w2 : Word} {r : Reserved} (h : decodeIRX ir w2 = .error r) :
    r = .irx ir ∧ 0xA ≤ (bField ir).val := by
  unfold decodeIRX at h
  split at h <;> cases h
  refine ⟨rfl, ?_⟩
  simp only [imp_false] at *
  omega

/-- Why the decoder rejects a word, each reason by its name (R79, R81). -/
theorem reserved_of_decode {ir w2 : Word} {r : Reserved} (h : decode ir w2 = .error r) :
    (r = .opcode ir ∧ WellFormed.opcode ir = false) ∨
      (r = .irx ir ∧ WellFormed.selector ir = false) := by
  rw [opcode_eq_false_iff, selector_eq_false_iff, ← opField_toNat, ← bField_val]
  unfold decode at h
  split at h
  case h_10 hop =>
    obtain ⟨hr, hb⟩ := reserved_of_decodeIRX h
    exact .inr ⟨hr, hop, hb⟩
  case h_11 =>
    cases h
    have := (opField ir).isLt
    refine .inl ⟨rfl, ?_⟩
    simp only [List.mem_cons, List.not_mem_nil, or_false, imp_false] at *
    omega
  all_goals cases h

theorem opField_firstWord (i : Instr) : opField i.firstWord = i.op := by
  cases i <;> exact opField_packNibbles _ _ _ _

/-- A word with no unused field set is the first word of the instruction it decodes to. -/
theorem SharesFields.firstWord_eq {ir : Word} {i : Instr} (h : SharesFields ir i)
    (hd : WellFormed.unusedField ir = true) : i.firstWord = ir := by
  rw [← packNibbles_fields ir, h.op, h.a, h.b, h.d hd, ← opField_firstWord, packNibbles_fields]

/-- A word that decodes has a known opcode and a known selector (R77, R78). -/
theorem wellFormed_of_decode {ir w2 : Word} {i : Instr} (h : decode ir w2 = .ok i) :
    WellFormed.opcode ir = true ∧ WellFormed.selector ir = true := by
  have hf := sharesFields_of_decode h
  have hop : ir.toNat / 4096 = i.op.toNat := by rw [← opField_toNat, hf.op]
  have hb : ir.toNat % 16 = (bField i.firstWord).val := by rw [← bField_val, hf.b]
  cases i <;> simp [WellFormed.opcode, WellFormed.selector, hop, hb, Instr.op, Instr.firstWord]


/-- The two reserved kinds exclude each other: a reserved selector stands under op 0xF, which is known. -/
theorem opcode_or_selector (ir : Word) :
    WellFormed.opcode ir = true ∨ WellFormed.selector ir = true := by
  rw [← Bool.not_eq_false, ← Bool.not_eq_false, ← not_and_or, opcode_eq_false_iff,
    selector_eq_false_iff]
  rintro ⟨hop, hF, -⟩
  rw [hF] at hop
  revert hop
  decide

/-- The decoder's three answers, told apart by the checks of opcode and selector (R79, R81). -/
theorem decode_cases (ir w2 : Word) :
    (∃ i, decode ir w2 = .ok i ∧ WellFormed.opcode ir = true ∧ WellFormed.selector ir = true) ∨
    (decode ir w2 = .error (.opcode ir) ∧ WellFormed.opcode ir = false ∧
      WellFormed.selector ir = true) ∨
    (decode ir w2 = .error (.irx ir) ∧ WellFormed.opcode ir = true ∧
      WellFormed.selector ir = false) := by
  have hone := opcode_or_selector ir
  cases h : decode ir w2 with
  | ok i => exact .inl ⟨i, rfl, wellFormed_of_decode h⟩
  | error r =>
    rcases reserved_of_decode h with ⟨rfl, hop⟩ | ⟨rfl, hsel⟩
    · exact .inr (.inl ⟨rfl, hop, hone.resolve_left (by simp [hop])⟩)
    · exact .inr (.inr ⟨rfl, hone.resolve_right (by simp [hsel]), hsel⟩)

/-! ### The statements -/

/-- Settles O47: the first word tells whether the second word belongs to the instruction, and with it
decodes to the instruction. -/
theorem decodeOfEncodeIsTheInstruction : Obligations.DecodeOfEncodeIsTheInstruction := by
  intro i rest
  have hd := decode_firstWord i 0
  have hs := secondWord_of_decode hd
  cases h : isTwoWords i.firstWord with
  | false =>
    simp only [h, Bool.false_eq_true, if_false] at hs
    rw [hs] at hd
    rw [encode, hs]
    exact decodeWords_one rest h hd
  | true =>
    simp only [h, if_true] at hs
    rw [encode, hs]
    exact decodeWords_two rest h hd

/-- Settles O48: a word whose checks pass decodes, and shares every field with its instruction's first word. -/
theorem encodeOfDecodeIsTheWord : Obligations.EncodeOfDecodeIsTheWord := by
  intro ir w2 hwf
  simp only [WellFormed.firstWord, Bool.and_eq_true] at hwf
  obtain ⟨⟨hop, hsel⟩, hd⟩ := hwf
  rcases decode_cases ir w2 with ⟨i, h, -, -⟩ | ⟨-, hop', -⟩ | ⟨-, -, hsel'⟩
  · exact ⟨i, h, by rw [encode_of_decode h, (sharesFields_of_decode h).firstWord_eq hd]⟩
  · rw [hop] at hop'; cases hop'
  · rw [hsel] at hsel'; cases hsel'

/-- Settles O49, one answer of the decoder at a time. -/
theorem decoderRejectsExactlyTheReserved : Obligations.DecoderRejectsExactlyTheReserved := by
  intro ir w2
  rcases decode_cases ir w2 with ⟨i, h, hop, hsel⟩ | ⟨h, hop, hsel⟩ | ⟨h, hop, hsel⟩
  · simp [h, hop, hsel]
  · simp [h, hop, hsel]
  · simp [h, hop, hsel]

/-- Settles O25: a reserved first word does not decode, and then the step raises Error. -/
theorem reservedEncodingsEndInError : Obligations.ReservedEncodingsEndInError := by
  intro s hrs ir hres
  have hx := RunState.executes_of_running_or_step hrs
  rw [← opcode_eq_false_iff, ← selector_eq_false_iff] at hres
  rcases decode_cases (s.word s.pc) (s.word (s.pc + 1)) with ⟨i, -, hop, hsel⟩ | ⟨h, -⟩ | ⟨h, -⟩
  · simp [hop, hsel] at hres
  · exact ⟨_, step_reserved hx h, rfl⟩
  · exact ⟨_, step_reserved hx h, rfl⟩

/-- The d field of a jump's word changes nothing in what is decoded (R80). -/
theorem decode_jump_d (d d' a b : Reg) (w2 : Word) (h3 : 3 ≤ b.val) (h9 : b.val ≤ 9) :
    decode (packNibbles 0xF d a b) w2 = decode (packNibbles 0xF d' a b) w2 := by
  rw [decode_packIRX, decode_packIRX]
  split
  case h_1 | h_2 | h_3 => omega
  case h_11 => simp only [imp_false] at *; omega
  all_goals rfl

/-- Settles O50: the decoder's rows of cmp and the jumps have no d, and trap's meaning has no a and b. -/
theorem unusedFieldsAreIgnored : Obligations.UnusedFieldsAreIgnored := by
  refine ⟨fun d d' a b w2 => ?_, decode_jump_d, fun d a a' b b' s => ?_⟩
  · rw [decode_packNibbles, decode_packNibbles]
    rfl
  · rw [exec_trap, exec_trap]

/-- Settles O52, by running the decoder on the seven words. -/
theorem sampleWordsDecode : Obligations.SampleWordsDecode := by
  unfold Obligations.SampleWordsDecode
  decide

end Sys2Proof
end

section
/-! The opcode table's rows: which words match an instruction's row (spec/opcode_table.json, 30_encoding.md
R77, R78). -/

namespace Sys2Proof

open Laws.RowMatch (Statement packNibbles_and and_ones)

/-- A packed word has one set of fields (R71). -/
theorem packNibbles_inj {op op' : BitVec 4} {d d' a a' b b' : Reg} :
    packNibbles op d a b = packNibbles op' d' a' b' ↔ op = op' ∧ d = d' ∧ a = a' ∧ b = b' := by
  constructor
  · intro h
    exact ⟨by simpa using congrArg opField h, by simpa using congrArg dField h,
      by simpa using congrArg aField h, by simpa using congrArg bField h⟩
  · rintro ⟨rfl, rfl, rfl, rfl⟩
    rfl

/-- The mask of the one-word rows keeps the opcode. -/
theorem and_opcodeMask (ir : Word) : ir &&& 0xF000 = packNibbles (opField ir) 0 0 0 := by
  conv_lhs => rw [← packNibbles_fields ir]
  rw [show (0xF000 : Word) = packNibbles 0xF 0 0 0 by decide, packNibbles_and]
  exact congrArg₂ _ (congrArg₂ _ (congrArg₂ _ (and_ones _) BitVec.and_zero) BitVec.and_zero)
    BitVec.and_zero

/-- The mask of the two-word rows keeps the opcode and the selector. -/
theorem and_selectorMask (ir : Word) : ir &&& 0xF00F = packNibbles (opField ir) 0 0 (bField ir) := by
  conv_lhs => rw [← packNibbles_fields ir]
  rw [show (0xF00F : Word) = packNibbles 0xF 0 0 0xF by decide, packNibbles_and]
  exact congrArg₂ _ (congrArg₂ _ (congrArg₂ _ (and_ones _) BitVec.and_zero) BitVec.and_zero)
    (and_ones _)

/-- A row's mask keeps the opcode and, for op 0xF, the selector. -/
theorem row_mask (i : Instr) : i.row.mask = if i.op = 0xF then 0xF00F else 0xF000 := by
  cases i <;> rfl

/-- The rows' certificates of all instructions together. -/
theorem rowMatch : ∀ i : Instr, Statement i
  | .add d a b => Laws.RowMatch.add d a b
  | .sub d a b => Laws.RowMatch.sub d a b
  | .mul d a b => Laws.RowMatch.mul d a b
  | .div d a b => Laws.RowMatch.div d a b
  | .cmp a b => Laws.RowMatch.cmp a b
  | .addc d a b => Laws.RowMatch.addc d a b
  | .muln d a b => Laws.RowMatch.muln d a b
  | .divn d a b => Laws.RowMatch.divn d a b
  | .trap d a b => Laws.RowMatch.trap d a b
  | .lea d a w2 => Laws.RowMatch.lea d a w2
  | .load d a w2 => Laws.RowMatch.load d a w2
  | .store d a w2 => Laws.RowMatch.store d a w2
  | .jump a w2 => Laws.RowMatch.jump a w2
  | .jumplt a w2 => Laws.RowMatch.jumplt a w2
  | .jumple a w2 => Laws.RowMatch.jumple a w2
  | .jumpeq a w2 => Laws.RowMatch.jumpeq a w2
  | .jumpne a w2 => Laws.RowMatch.jumpne a w2
  | .jumpge a w2 => Laws.RowMatch.jumpge a w2
  | .jumpgt a w2 => Laws.RowMatch.jumpgt a w2

/-- Which words an instruction's row matches: those with its opcode and, for op 0xF, its selector. -/
theorem row_matchesWord_iff (i : Instr) (ir : Word) :
    i.row.matchesWord ir = true ↔
      opField ir = i.op ∧ (i.op = 0xF → bField ir = bField i.firstWord) := by
  have hv : i.firstWord &&& i.row.mask = i.row.value := beq_iff_eq.1 (rowMatch i).1
  rw [OpcodeRow.matchesWord, beq_iff_eq, ← hv, row_mask]
  by_cases h : i.op = 0xF
  · rw [if_pos h, and_selectorMask, and_selectorMask, packNibbles_inj, opField_firstWord]
    simp only [h, true_and, true_implies]
  · rw [if_neg h, and_opcodeMask, and_opcodeMask, packNibbles_inj, opField_firstWord]
    simp only [h, and_true, false_implies]

/-- A word that an instruction's row matches decodes to an instruction of that row. -/
theorem decode_of_row_matches {j : Instr} {ir : Word} (w2 : Word) (h : j.row.matchesWord ir = true) :
    ∃ i, decode ir w2 = .ok i ∧ i.row = j.row := by
  rw [row_matchesWord_iff] at h
  obtain ⟨hop, hsel⟩ := h
  rw [← packNibbles_fields ir, hop]
  cases j with
  | add | sub | mul | div | cmp | addc | muln | divn | trap =>
    exact ⟨_, decode_packNibbles _ _ _ _ _, rfl⟩
  | lea | load | store | jump | jumplt | jumple | jumpeq | jumpne | jumpge | jumpgt =>
    rw [hsel rfl, Instr.firstWord, bField_packNibbles]
    exact ⟨_, decode_packIRX _ _ _ _, rfl⟩

/-- Settles O51: a decoded word has its instruction's opcode and selector, and a row that matches it is the
row of what it decodes to. -/
theorem decodedWordMatchesOneTableRow : Obligations.DecodedWordMatchesOneTableRow := by
  intro ir w2 i h
  have hf := sharesFields_of_decode h
  refine ⟨(row_matchesWord_iff i ir).2 ⟨hf.op, fun _ => hf.b⟩, ?_, fun j hj => ?_⟩
  · rw [← (rowMatch i).2, Instr.length, encode_of_decode h]
    split <;> rfl
  · obtain ⟨i', h', hrow⟩ := decode_of_row_matches w2 hj
    cases h.symm.trans h'
    exact hrow.symm

end Sys2Proof
end

section
/-! What the assembler emits for an instruction decodes to it (30_encoding.md R91, R92, 45_assembler.md R209 to
R213). -/

namespace Sys2Proof.Asm

open Safety

/-- An RRR mnemonic has one instruction for its operands, whose opcode the partial word holds (R210). -/
theorem mnemonics_rrr {mn : Text} {p : Word} (h : (mn, Family.rrr, p) ∈ mnemonics) :
    ∃ (op : BitVec 4) (instr : Reg → Reg → Reg → Instr), p = packNibbles op 0 0 0 ∧
      ∀ d a b, (instr d a b).op = op ∧ (instr d a b).firstWord = packNibbles op d a b ∧
        (instr d a b).secondWord = none ∧ (instr d a b).row.mnemonic.toList = mn := by
  simp only [mnemonics, List.mem_cons, Prod.mk.injEq, reduceCtorEq, false_and, and_false, true_and,
    List.not_mem_nil, or_false, false_or] at h
  rcases h with ⟨rfl, rfl⟩ | ⟨rfl, rfl⟩ | ⟨rfl, rfl⟩ | ⟨rfl, rfl⟩ | ⟨rfl, rfl⟩ | ⟨rfl, rfl⟩ |
    ⟨rfl, rfl⟩ | ⟨rfl, rfl⟩
  · exact ⟨0x0, .add, by decide, fun _ _ _ => ⟨rfl, rfl, rfl, rfl⟩⟩
  · exact ⟨0x1, .sub, by decide, fun _ _ _ => ⟨rfl, rfl, rfl, rfl⟩⟩
  · exact ⟨0x2, .mul, by decide, fun _ _ _ => ⟨rfl, rfl, rfl, rfl⟩⟩
  · exact ⟨0x3, .div, by decide, fun _ _ _ => ⟨rfl, rfl, rfl, rfl⟩⟩
  · exact ⟨0x5, .addc, by decide, fun _ _ _ => ⟨rfl, rfl, rfl, rfl⟩⟩
  · exact ⟨0x6, .muln, by decide, fun _ _ _ => ⟨rfl, rfl, rfl, rfl⟩⟩
  · exact ⟨0x7, .divn, by decide, fun _ _ _ => ⟨rfl, rfl, rfl, rfl⟩⟩
  · exact ⟨0xC, .trap, by decide, fun _ _ _ => ⟨rfl, rfl, rfl, rfl⟩⟩

/-- cmp is the one RR mnemonic (R211). -/
theorem mnemonics_rr {mn : Text} {p : Word} (h : (mn, Family.rr, p) ∈ mnemonics) :
    mn = "cmp".toList ∧ p = packNibbles 0x4 0 0 0 := by
  simp only [mnemonics, List.mem_cons, Prod.mk.injEq, reduceCtorEq, false_and, and_false, true_and,
    List.not_mem_nil, or_false, false_or] at h
  obtain ⟨rfl, rfl⟩ := h
  exact ⟨rfl, by decide⟩

/-- `w` is the first word of an instruction with the mnemonic `mn` for every second word (R74, R75). -/
def TwoWordInstr (mn : Text) (w : Word) : Prop :=
  ∃ instr : Word → Instr, ∀ w2, (instr w2).firstWord = w ∧ (instr w2).secondWord = some w2 ∧
    (instr w2).row.mnemonic.toList = mn

/-- An IRX mnemonic's partial word holds op 0xF and the selector (R212). -/
theorem mnemonics_irx {mn : Text} {p : Word} (h : (mn, Family.irx, p) ∈ mnemonics) :
    ∃ sel : Reg, p = packNibbles 0xF 0 0 sel ∧ ∀ d a, TwoWordInstr mn (packNibbles 0xF d a sel) := by
  simp only [mnemonics, List.mem_cons, Prod.mk.injEq, reduceCtorEq, false_and, and_false, true_and,
    List.not_mem_nil, or_false, false_or] at h
  rcases h with ⟨rfl, rfl⟩ | ⟨rfl, rfl⟩ | ⟨rfl, rfl⟩
  · exact ⟨0x0, by decide, fun d a => ⟨.lea d a, fun _ => ⟨rfl, rfl, rfl⟩⟩⟩
  · exact ⟨0x1, by decide, fun d a => ⟨.load d a, fun _ => ⟨rfl, rfl, rfl⟩⟩⟩
  · exact ⟨0x2, by decide, fun d a => ⟨.store d a, fun _ => ⟨rfl, rfl, rfl⟩⟩⟩

/-- A jump mnemonic's first word holds op 0xF and the selector, and 0 as d (R213). -/
theorem jumpMnemonics_irx {mn : Text} {p : Word} (h : (mn, p) ∈ jumpMnemonics) :
    ∃ sel : Reg, p = packNibbles 0xF 0 0 sel ∧ ∀ a, TwoWordInstr mn (packNibbles 0xF 0 a sel) := by
  simp only [jumpMnemonics, List.mem_cons, Prod.mk.injEq, List.not_mem_nil, or_false] at h
  rcases h with ⟨rfl, rfl⟩ | ⟨rfl, rfl⟩ | ⟨rfl, rfl⟩ | ⟨rfl, rfl⟩ | ⟨rfl, rfl⟩ | ⟨rfl, rfl⟩ |
    ⟨rfl, rfl⟩
  · exact ⟨0x3, by decide, fun a => ⟨.jump a, fun _ => ⟨rfl, rfl, rfl⟩⟩⟩
  · exact ⟨0x4, by decide, fun a => ⟨.jumplt a, fun _ => ⟨rfl, rfl, rfl⟩⟩⟩
  · exact ⟨0x5, by decide, fun a => ⟨.jumple a, fun _ => ⟨rfl, rfl, rfl⟩⟩⟩
  · exact ⟨0x6, by decide, fun a => ⟨.jumpeq a, fun _ => ⟨rfl, rfl, rfl⟩⟩⟩
  · exact ⟨0x7, by decide, fun a => ⟨.jumpne a, fun _ => ⟨rfl, rfl, rfl⟩⟩⟩
  · exact ⟨0x8, by decide, fun a => ⟨.jumpge a, fun _ => ⟨rfl, rfl, rfl⟩⟩⟩
  · exact ⟨0x9, by decide, fun a => ⟨.jumpgt a, fun _ => ⟨rfl, rfl, rfl⟩⟩⟩

/-- The words of a two-word instruction decode to it. -/
theorem TwoWordInstr.decodes {mn : Text} {w : Word} (h : TwoWordInstr mn w) (w2 : Word) :
    ∃ i : Instr, decode w w2 = .ok i ∧ encode i = [w, w2] ∧ i.row.mnemonic.toList = mn := by
  obtain ⟨instr, hi⟩ := h
  obtain ⟨hw, hw2, hmn⟩ := hi w2
  have hd := decode_firstWord (instr w2) w2
  rw [hw, hw2] at hd
  exact ⟨instr w2, hd, by rw [encode, hw, hw2]; rfl, hmn⟩

/-- A first word's registers are placed beside its opcode and selector (R212, R213). -/
theorem or_placeDA (op : BitVec 4) (d a sel : Reg) :
    packNibbles op 0 0 sel ||| placeDA d a = packNibbles op d a sel := by
  rw [placeDA_eq, packNibbles_or op sel d a 0 (.inr rfl)]
  by_cases h : sel = 0 <;> simp [h]

/-- The word of an RRR or RR argument whose partial word holds an opcode (R210, R211). -/
theorem rrrWord_packNibbles (op : BitVec 4) (d a b : Reg) :
    rrrWord (packNibbles op 0 0 0) d a b = packNibbles op d a b := by
  rw [rrrWord_eq, packNibbles_or op 0 d a b (.inl rfl), if_pos rfl]

/-! ### What an opening token and its argument emit -/

/-- The argument of an opened instruction is in order and is encoded with the opening's partial word (R209). -/
theorem AsmState.pass1_arg_of_opening (s : AsmState) (f : Family) (p : Word) (text : Text) :
    ∃ u : AsmState, u.buffer = s.buffer ∧ u.cursor = s.cursor ∧ u.patches = s.patches ∧ u.held = p ∧
      (s.pass1 (.token (.opening f p))).pass1 (.token (.arg f text)) =
        { u.encodeOpenArg f text with last := .done } := by
  refine ⟨(s.pass1 (.token (.opening f p))).report [], rfl, rfl, rfl, rfl, ?_⟩
  simp [AsmState.pass1, AsmState.pass1Token, AsmState.encodeToken, AsmState.encodeArg, orderErrors,
    errorWhen, nextKind]

/-- Noting the halt emits nothing (R210). -/
theorem AsmState.noteHalt_frame (s : AsmState) (w : Word) : (s.noteHalt w).buffer = s.buffer ∧
    (s.noteHalt w).cursor = s.cursor ∧ (s.noteHalt w).patches = s.patches := by
  unfold AsmState.noteHalt
  split <;> exact ⟨rfl, rfl, rfl⟩

/-- An RRR instruction emits its word (R210). -/
theorem AsmState.pass1_rrr (s : AsmState) (op : BitVec 4) (d a b : Reg) :
    let t := (s.pass1 (.token (.opening .rrr (packNibbles op 0 0 0)))).pass1
      (.token (.arg .rrr (regText d ++ ',' :: regText a ++ ',' :: regText b)))
    t.buffer = s.buffer ++ [packNibbles op d a b] ∧ t.patches = s.patches ∧
      t.cursor = s.cursor + 1 := by
  obtain ⟨u, hb, hc, hp, hh, ht⟩ := s.pass1_arg_of_opening .rrr (packNibbles op 0 0 0)
    (regText d ++ ',' :: regText a ++ ',' :: regText b)
  obtain ⟨hnb, hnc, hnp⟩ := u.noteHalt_frame (packNibbles op d a b)
  rw [ht]
  simp only [AsmState.encodeOpenArg, AsmState.encodeRRR, parseRRR_text, hh, rrrWord_packNibbles,
    AsmState.refer, AsmState.emit, hnb, hnc, hnp, hb, hc, hp, and_self]

/-- An RR instruction emits its word, with d 0 (R211). -/
theorem AsmState.pass1_rr (s : AsmState) (op : BitVec 4) (a b : Reg) :
    let t := (s.pass1 (.token (.opening .rr (packNibbles op 0 0 0)))).pass1
      (.token (.arg .rr (regText a ++ ',' :: regText b)))
    t.buffer = s.buffer ++ [packNibbles op 0 a b] ∧ t.patches = s.patches ∧
      t.cursor = s.cursor + 1 := by
  obtain ⟨u, hb, hc, hp, hh, ht⟩ := s.pass1_arg_of_opening .rr (packNibbles op 0 0 0)
    (regText a ++ ',' :: regText b)
  rw [ht]
  simp only [AsmState.encodeOpenArg, AsmState.encodeRR, parseRR_text, hh, rrrWord_packNibbles,
    AsmState.refer, AsmState.emit, hb, hc, hp, and_self]

/-- An IRX instruction emits its first word and its displacement (R212). -/
theorem AsmState.pass1_irx (s : AsmState) (op : BitVec 4) (sel d a : Reg) {disp : Text} {v : Value}
    (hv : parseValue disp = some v) :
    EmitsTwo (packNibbles op d a sel) v s
      ((s.pass1 (.token (.opening .irx (packNibbles op 0 0 sel)))).pass1
        (.token (.arg .irx (regText d ++ ',' :: disp ++ bracketText (some a))))) := by
  obtain ⟨u, hb, hc, hp, hh, ht⟩ := s.pass1_arg_of_opening .irx (packNibbles op 0 0 sel)
    (regText d ++ ',' :: disp ++ bracketText (some a))
  rw [ht]
  simp only [AsmState.encodeOpenArg, AsmState.encodeIRX, parseIRX_text d a hv, hh, or_placeDA]
  exact AsmState.emitTwo_emitsTwo s u _ v _ _ hb hc hp

/-- A jump emits its first word and its target (R213). -/
theorem AsmState.pass1_jump (s : AsmState) {op : BitVec 4} {sel : Reg} (n : Option Reg)
    {mn target : Text} {v : Value} (hmn : (mn, packNibbles op 0 0 sel) ∈ jumpMnemonics)
    (hv : parseTarget target = some v) :
    EmitsTwo (packNibbles op 0 (n.getD 0) sel) v s
      (s.pass1 (.token (.jump (mn ++ ' ' :: target ++ bracketText n)))) := by
  simp only [AsmState.pass1, AsmState.pass1Token, AsmState.encodeToken, AsmState.encodeJump,
    parseJump_text n hmn hv, or_placeDA]
  exact AsmState.emitTwo_emitsTwo s _ _ v _ _ rfl rfl rfl

/-- Settles O58, one kind of mnemonic at a time: the words emitted are those of the mnemonic's instruction,
which decode to it. -/
theorem assembledInstructionsDecodeBack : Obligations.AssembledInstructionsDecodeBack := by
  refine ⟨?_, ?_, ?_, ?_⟩
  · intro s mn p d a b hmn
    obtain ⟨op, instr, rfl, hi⟩ := mnemonics_rrr hmn
    obtain ⟨hop, hw, hw2, hrow⟩ := hi d a b
    obtain ⟨hb, hp, hc⟩ := s.pass1_rrr op d a b
    have hd := decode_firstWord (instr d a b) 0
    rw [hw, hw2] at hd
    refine ⟨instr d a b, ?_⟩
    rw [hop]
    exact ⟨hb, hp, hc, hd, hrow, hw⟩
  · intro s mn p a b hmn
    obtain ⟨rfl, rfl⟩ := mnemonics_rr hmn
    obtain ⟨hb, hp, hc⟩ := s.pass1_rr 0x4 a b
    refine ⟨hb, hp, hc, fun w hw => ?_, rfl⟩
    rw [List.mem_singleton.1 hw]
    exact decode_firstWord (.cmp a b) 0
  · intro s mn disp p d a v hmn hv
    obtain ⟨sel, rfl, hi⟩ := mnemonics_irx hmn
    exact ⟨packNibbles 0xF d a sel, s.pass1_irx 0xF sel d a hv, dField_packNibbles ..,
      aField_packNibbles .., (hi d a).decodes⟩
  · intro s mn target p n v hmn hv
    obtain ⟨sel, rfl, hi⟩ := jumpMnemonics_irx hmn
    exact ⟨packNibbles 0xF 0 (n.getD 0) sel, s.pass1_jump n hmn hv,
      dField_packNibbles .., aField_packNibbles .., (hi _).decodes⟩

end Sys2Proof.Asm
end

section
/-! The controller: what a step runs after its fetch, what it does to the run-state, and which host
transactions write the run-state (40_controller.md R100 to R113). -/

namespace Sys2Proof.Machine

open Safety

/-! ### The state after the fetch of a step -/

/-- An executing step on a one-word instruction gives it this state (R102, R103). -/
theorem State.resetAccessed_fetch_one {s : State} (h : isTwoWords (s.word s.pc) = false) :
    s.resetAccessed.fetch.2.2 =
      { s with
        pc := s.pc + 1
        accessed := [s.pc.toNat]
        used := AddrSet.insert s.pc.toNat s.used } := by
  rw [State.fetch_one s.resetAccessed h]
  rfl

/-- An executing step on a two-word instruction gives it this state (R102 to R104). -/
theorem State.resetAccessed_fetch_two {s : State} (h : isTwoWords (s.word s.pc) = true) :
    s.resetAccessed.fetch.2.2 =
      { s with
        pc := s.pc + 2
        accessed := AddrSet.insert (s.pc + 1).toNat [s.pc.toNat]
        used := AddrSet.insert (s.pc + 1).toNat (AddrSet.insert s.pc.toNat s.used) } := by
  have hpc : s.pc + 2 = s.pc + 1 + 1 := (BitVec.add_assoc s.pc 1 1).symm
  rw [State.fetch_two s.resetAccessed h, hpc]
  rfl

/-! ### The fault cases of the word at pc -/

/-- A reserved encoding at pc is a fault case: R270's first two rows (60_exceptions.md R271). -/
theorem faultCase_of_reserved {s : State} {r : Reserved}
    (hd : decode (s.word s.pc) (s.word (s.pc + 1)) = .error r) : FaultCase s := by
  rcases reserved_of_decode hd with ⟨-, hop⟩ | ⟨-, hsel⟩
  · rw [opcode_eq_false_iff] at hop
    exact .inl (by simpa using hop)
  · exact .inr (.inl ((selector_eq_false_iff _).1 hsel))

/-- div faults on a zero divisor and on -32768 by -1 (60_exceptions.md R272). -/
theorem instrFault_div_ne_none (d a b : Reg) (s : State) :
    instrFault (.div d a b) s ≠ none ↔
      s.reg b = 0 ∨ (s.reg a = 0x8000 ∧ s.reg b = 0xFFFF) := by
  rw [instrFault_div]
  split_ifs with hzero hmin
  · exact iff_of_true nofun (.inl hzero)
  · exact iff_of_true nofun (.inr hmin)
  · exact iff_of_false (· rfl) (not_or.2 ⟨hzero, hmin⟩)

/-- An instruction at pc is a fault case exactly when it faults: R270's last three rows, on the registers
that the word's fields name (60_exceptions.md R272, R273). -/
theorem faultCase_iff_instrFault {s : State} {i : Instr}
    (hd : decode (s.word s.pc) (s.word (s.pc + 1)) = .ok i) :
    FaultCase s ↔ instrFault i s ≠ none := by
  have hshare := sharesFields_of_decode hd
  have hop : (s.word s.pc).toNat / 4096 = i.op.toNat := by rw [← opField_toNat, hshare.op]
  have hsel : ¬(i.op.toNat = 0xF ∧ 0xA ≤ (s.word s.pc).toNat % 16) := by
    rw [← hop, ← selector_eq_false_iff, (wellFormed_of_decode hd).2, Bool.not_eq_false]
  simp only [FaultCase, hop, hsel, false_or, hshare.a, hshare.b]
  cases i with
  | div d a b =>
    rw [instrFault_div_ne_none]
    simp [Instr.op, Instr.firstWord]
  | divn d a b => simp [Instr.op, Instr.firstWord, instrFault_divn]
  | trap d a b =>
    have hused : WellFormed.unusedField (s.word s.pc) = true := by
      simp [unusedField_iff, hshare.op, Instr.op]
    simp [hshare.d hused, Instr.op, Instr.firstWord, instrFault_trap]
  | _ => simp [Instr.op, instrFault]

/-! ### Transactions in Halted and Error -/

/-- The host's write of the run-state is refused in exactly Halted and Error (R112). -/
theorem RunState.acceptsHostWrite_eq_false_iff (r : RunState) :
    r.acceptsHostWrite = false ↔ r = .halted ∨ r = .error := by
  cases r <;> simp [RunState.acceptsHostWrite]

/-- A refused host write has no effect (R112). -/
theorem State.hostWrite_of_refused {s : State} (h : s.rs.acceptsHostWrite = false) (r : HostRunState) :
    s.hostWrite r = s := by
  rw [State.hostWrite, if_neg (Bool.eq_false_iff.1 h)]

/-- An accepted host write sets the run-state (R112). -/
theorem State.hostWrite_of_accepted {s : State} (h : s.rs.acceptsHostWrite = true) (r : HostRunState) :
    s.hostWrite r = s.setRs r.toRunState := by
  rw [State.hostWrite, if_pos h]

/-- Halted and Error are terminal for stepping (R110). -/
theorem step_of_halted_or_error {s : State} (h : s.rs = .halted ∨ s.rs = .error) :
    step s = .next s := by
  apply step_of_not_executes
  rcases h with h | h <;> rw [h] <;> rfl

end Sys2Proof.Machine

namespace Sys2Proof.Safety

open Machine

/-! ### The statements about the controller -/

/-- Settles O29: a reserved encoding and a faulting instruction are fault cases, and every other
instruction leaves the run-state but for trap 0 and trap 4, whose code the fetch leaves. -/
theorem stepLeavesRunStateButForTrapsAndFaults :
    Obligations.StepLeavesRunStateButForTrapsAndFaults := by
  intro s t hrs h
  have hfetch := fetch_spec s
  rcases step_cases (RunState.executes_of_running_or_step hrs) h with ⟨r, hd, rfl⟩ | ⟨i, hd, he⟩
  · exact .inr (.inl ⟨rfl, faultCase_of_reserved hd⟩)
  rcases exec_rs he with ⟨hsame, -⟩ | ⟨herr, hf⟩ | ⟨d, a, b, rfl, hcode, -⟩
  · exact .inl (hsame.trans hfetch.rs)
  · rw [instrFault_congr i hfetch.reg] at hf
    exact .inr (.inl ⟨herr, (faultCase_iff_instrFault hd).2 hf⟩)
  · rw [hfetch.reg] at hcode
    exact .inr (.inr ⟨d, a, b, hd, hcode⟩)

/-- Settles O40, one transaction at a time. -/
theorem onlyResetAndUndoLeaveHaltedAndError : Obligations.OnlyResetAndUndoLeaveHaltedAndError := by
  intro s t tr hrs ht
  cases tr with
  | step =>
    cases (step_of_halted_or_error hrs).symm.trans ht
    exact ⟨fun _ => rfl, fun _ _ => rfl⟩
  | reset image display => exact ⟨nofun, fun hreset _ => absurd rfl (hreset image display)⟩
  | hostWrite r =>
    have hrefused := (RunState.acceptsHostWrite_eq_false_iff s.rs).2 hrs
    cases ht
    exact ⟨nofun, fun _ _ => by rw [State.hostWrite_of_refused hrefused]⟩
  | undo => exact ⟨nofun, fun _ hundo => absurd rfl hundo⟩
  | resetAccessed | record pre | assemble text => cases ht; exact ⟨nofun, fun _ _ => rfl⟩

/-- Settles O23: the length of the word at pc tells the fetch and the instruction's second word. -/
theorem stepRunsTheDecodedInstruction : Obligations.StepRunsTheDecodedInstruction := by
  intro s i hrs hd
  have hsecond := secondWord_of_decode hd
  rw [step_ok (RunState.executes_of_running_or_step hrs) hd]
  cases h : isTwoWords (s.word s.pc) with
  | false =>
    have hnone : i.secondWord = none := by simpa [h] using hsecond
    exact ⟨fun _ => by rw [State.resetAccessed_fetch_one h], by simp [hnone], .inl hnone⟩
  | true =>
    have hsome : i.secondWord = some (s.word (s.pc + 1)) := by simpa [h] using hsecond
    exact ⟨by simp [hsome], fun _ => by rw [State.resetAccessed_fetch_two h], .inr hsome⟩

/-- Settles O39: Halted and Error are the run-states that refuse a host write. -/
theorem hostWritesRunStateOutsideHaltedAndError :
    Obligations.HostWritesRunStateOutsideHaltedAndError := by
  intro s r
  have hrefused := RunState.acceptsHostWrite_eq_false_iff s.rs
  constructor
  · intro hhalted herror
    have haccepts : s.rs.acceptsHostWrite = true := by
      rw [← Bool.not_eq_false, hrefused, not_or]
      exact ⟨hhalted, herror⟩
    exact congrArg _ (State.hostWrite_of_accepted haccepts r)
  · intro h
    exact congrArg _ (State.hostWrite_of_refused (hrefused.2 h) r)

end Sys2Proof.Safety
end

section
/-! Arithmetic and compare: what add, sub, mul, div, cmp, addc, muln and divn answer, and what they leave
unchanged (41_arithmetic.md R120 to R129). -/

namespace Sys2Proof.Machine

open Safety

/-! ### The words the operand computations give -/

/-- The two words of add, sub, mul and addc for a result that is `n` modulo 2^16: the result, and its flag
word with the given overflow and carry conditions (R121, 10_state.md R30). -/
structure ArithOf (o : RdR15) (n : Nat) (ovS ovU cy : Prop) : Prop where
  rd : o.rd = BitVec.ofNat 16 n
  r15 : ArithFlagsAre o.r15 (BitVec.ofNat 16 n) ovS ovU cy

/-- add and addc (R122, R127). -/
theorem addValue_spec (x y : Word) (cin : Bool) :
    ArithOf (addValue Config.params x y cin) (x.toNat + y.toNat + cin.toNat)
      (OutsideSigned (x.toInt + y.toInt + cin.toNat))
      (65535 < x.toNat + y.toNat + cin.toNat) (65535 < x.toNat + y.toNat + cin.toNat) where
  rd := trunc16_natCast _
  r15 := by
    simpa only [addValue, trunc16_natCast, overflowsSigned_iff, decide_eq_true_eq] using
      arithFlags_spec (trunc16 (x.toNat + y.toNat + cin.toNat : Nat))
        (overflowsSigned (x.toInt + y.toInt + cin.toNat))
        (decide (65535 < x.toNat + y.toNat + cin.toNat))
        (decide (65535 < x.toNat + y.toNat + cin.toNat))

/-- A difference of words modulo 2^16, read as a difference of naturals that cannot fall below 0 (R123). -/
theorem trunc16_toNat_sub (x y : Word) :
    trunc16 ((x.toNat : Int) - y.toNat) = BitVec.ofNat 16 (65536 + x.toNat - y.toNat) := by
  have hy := y.isLt
  apply BitVec.eq_of_toNat_eq
  rw [trunc16, BitVec.toNat_ofInt, BitVec.toNat_ofNat]
  omega

/-- sub (R123). -/
theorem subValue_spec (x y : Word) :
    ArithOf (subValue Config.params x y) (65536 + x.toNat - y.toNat)
      (OutsideSigned (x.toInt - y.toInt)) (x.toNat < y.toNat) False where
  rd := trunc16_toNat_sub x y
  r15 := by
    simpa only [subValue, subCarryOut, Config.params, trunc16_toNat_sub, overflowsSigned_iff,
        decide_eq_true_eq, Bool.false_eq_true] using
      arithFlags_spec (trunc16 ((x.toNat : Int) - y.toNat)) (overflowsSigned (x.toInt - y.toInt))
        (decide (x.toNat < y.toNat)) false

/-- mul (R124). -/
theorem mulValue_spec (x y : Word) :
    ArithOf (mulValue Config.params x y) (x.toNat * y.toNat) False
      (x.toNat * y.toNat / 65536 ≠ 0) False where
  rd := trunc16_natCast _
  r15 := by
    simpa only [mulValue, Config.params, trunc16_natCast, decide_eq_true_eq, Bool.false_eq_true]
      using arithFlags_spec (trunc16 (x.toNat * y.toNat : Nat)) false
        (decide (x.toNat * y.toNat / 65536 ≠ 0)) false

/-- div: off -32768 by -1 the quotient and the remainder are those of signed words, so both fit (R125). -/
theorem divValue_toInt {x y : Word} (h : ¬(x = 0x8000 ∧ y = 0xFFFF)) :
    (divValue Config.params x y).rd.toInt = x.toInt.tdiv y.toInt ∧
      (divValue Config.params x y).r15.toInt =
        x.toInt - x.toInt.tdiv y.toInt * y.toInt := by
  have hq : (x.sdiv y).toInt = x.toInt.tdiv y.toInt :=
    BitVec.toInt_sdiv_of_ne_or_ne x y (not_and_or.1 h)
  have hr : (x.srem y).toInt = x.toInt - x.toInt.tdiv y.toInt * y.toInt := by
    rw [BitVec.toInt_srem, Int.tmod_def, mul_comm]
  have hvalue : divValue Config.params x y = ⟨x.sdiv y, x.srem y⟩ := by
    show RdR15.mk (trunc16 _) (trunc16 _) = _
    rw [← hr, ← hq, trunc16, trunc16, BitVec.ofInt_toInt, BitVec.ofInt_toInt]
  rw [hvalue]
  exact ⟨hq, hr⟩

/-- The wide operand is 0xFFFF above the source word: the mask covers what R15 holds (R128, R129). -/
theorem wideOperand_eq (h x : Word) : wideOperand Config.params h x = 0xFFFF#16 ++ x := by
  have hhigh : h.setWidth 32 <<< 16 = h ++ 0#16 := by
    have hh := h.isLt
    apply BitVec.eq_of_toNat_eq
    rw [BitVec.toNat_shiftLeft, BitVec.toNat_setWidth_of_le (by decide), BitVec.toNat_append,
      Nat.shiftLeft_eq, Nat.mod_eq_of_lt (by omega)]
    exact (Nat.or_zero _).symm
  have hlow : x.setWidth 32 = 0#16 ++ x := BitVec.setWidth_eq_append (by decide)
  have hmask : 0xFFFF0000#32 = BitVec.allOnes 16 ++ 0#16 := rfl
  show h.setWidth 32 <<< 16 ||| (x.setWidth 32 ||| 0xFFFF0000#32) = BitVec.allOnes 16 ++ x
  rw [hhigh, hlow, hmask, BitVec.or_append, BitVec.or_append, BitVec.or_allOnes,
    BitVec.or_allOnes, BitVec.or_zero, BitVec.zero_or]

/-- The wide operand as a number (R128, R129). -/
theorem wideOperand_toNat (h x : Word) :
    (wideOperand Config.params h x).toNat = 0xFFFF0000 + x.toNat := by
  rw [wideOperand_eq, BitVec.toNat_append, ← Nat.shiftLeft_add_eq_or_of_lt x.isLt]
  rfl

/-- muln: the halves of the product modulo 2^32 (R128). -/
theorem mulnValue_toNat (h x y : Word) :
    (mulnValue Config.params h x y).rd.toNat =
        (0xFFFF0000 + x.toNat) * y.toNat % 4294967296 % 65536 ∧
      (mulnValue Config.params h x y).r15.toNat =
        (0xFFFF0000 + x.toNat) * y.toNat % 4294967296 / 65536 := by
  have hy := y.isLt
  have hp : (wideOperand Config.params h x * y.setWidth 32).toNat =
      (0xFFFF0000 + x.toNat) * y.toNat % 4294967296 := by
    rw [BitVec.toNat_mul, wideOperand_toNat, BitVec.toNat_setWidth_of_le (by decide)]
  simp only [mulnValue, BitVec.extractLsb'_toNat, hp, Nat.shiftRight_eq_div_pow]
  omega

/-- divn: the remainder is below the divisor, so it fits (R129). -/
theorem divnValue_toNat {h x y : Word} (hy : y ≠ 0) :
    (divnValue Config.params h x y).rd.toNat = (0xFFFF0000 + x.toNat) / y.toNat % 65536 ∧
      (divnValue Config.params h x y).r15.toNat = (0xFFFF0000 + x.toNat) % y.toNat := by
  have hlt : (0xFFFF0000 + x.toNat) % y.toNat < y.toNat :=
    Nat.mod_lt _ (Nat.pos_of_ne_zero fun h0 => hy (BitVec.eq_of_toNat_eq h0))
  simp only [divnValue, wideOperand_toNat, trunc16_natCast, BitVec.toNat_ofNat, true_and]
  exact Nat.mod_eq_of_lt (hlt.trans y.isLt)

/-- The old R15 has no effect on what muln computes (R128: "H has no effect"). -/
theorem mulnValue_ignores_r15 (h h' x y : Word) :
    mulnValue Config.params h x y = mulnValue Config.params h' x y := by
  simp only [mulnValue, wideOperand_eq]

/-- Nor on what divn computes (R129). -/
theorem divnValue_ignores_r15 (h h' x y : Word) :
    divnValue Config.params h x y = divnValue Config.params h' x y := by
  simp only [divnValue, wideOperand_eq]

end Sys2Proof.Machine

namespace Sys2Proof.Safety

open Machine

/-! ### Changes of registers only -/

/-- The operand reads keep everything but the read marks (R120, 10_state.md R26). -/
theorem registerOnly_touchSources (s : State) (a b : Reg) :
    RegisterOnly [a, b] [] s (s.touchSources a b) :=
  ⟨s.touchSources_frame a b, SameMemory.touchSources s a b,
    ((SameHostData.refl s).touch a).touch b, rfl, rfl⟩

/-- So do the operand reads with the implicit read of R15. -/
theorem registerOnly_touchSourcesR15 (s : State) (a b : Reg) :
    RegisterOnly [a, b, 15] [] s ((s.touchSources a b).touchReg 15) :=
  ⟨s.touchSourcesR15_frame a b, (SameMemory.touchSources s a b).touch 15,
    (((SameHostData.refl s).touch a).touch b).touch 15, rfl, rfl⟩

/-- A register write leaves the host's data (R120). -/
theorem SameHostData.set {s t : State} (h : SameHostData s t) (i : Reg) (v : Word) :
    SameHostData s (t.setReg i v) where
  symbols := by rw [State.setReg_symbols, h.symbols]
  display := by rw [State.setReg_display, h.display]
  history := by rw [State.setReg_history, h.history]
  freeCount := by rw [State.setReg_freeCount, h.freeCount]

/-- A register write after a register-only change. -/
theorem RegisterOnly.set {reads writes : List Reg} {s u : State} (h : RegisterOnly reads writes s u)
    (i : Reg) (v : Word) : RegisterOnly reads (i :: writes) s (u.setReg i v) where
  regs := h.regs.set i v
  memory := h.memory.set i v
  host := h.host.set i v
  pc := by rw [State.setReg_pc, h.pc]
  rs := by rw [State.setReg_rs, h.rs]

end Sys2Proof.Safety

namespace Sys2Proof.Machine

open Safety

/-! ### The registers after the two writes -/

/-- add, sub, mul and addc: the result in Rd unless it is R0 or R15, the flag word in R15 (R121). -/
theorem State.writeRdThenR15_arith {reads : List Reg} {s u : State} (d : Reg) {o : RdR15} {n : Nat}
    {ovS ovU cy : Prop} (hu : RegisterOnly reads [] s u) (ho : ArithOf o n ovS ovU cy) :
    ∃ t, u.writeRdThenR15 d o = .next t ∧ RegisterOnly reads [d, 15] s t ∧
      (d ≠ 0 → d ≠ 15 → (t.reg d).toNat = n % 65536) ∧
      ArithFlagsAre (t.reg 15) (BitVec.ofNat 16 n) ovS ovU cy := by
  obtain ⟨t, ht, hframe, h15, hd⟩ :=
    State.writeRdThenR15_spec d o hu.regs hu.memory hu.host hu.pc hu.rs
  refine ⟨t, ht, hframe, fun h0 hne => ?_, h15 ▸ ho.r15⟩
  rw [hd h0 hne, ho.rd, BitVec.toNat_ofNat]

/-- div, divn and muln: Rd takes its value even for d = 15, R15 the other unless d = 15 (R121). -/
theorem State.writeR15ThenRd_of_registerOnly {reads : List Reg} {s u : State} (d : Reg) (o : RdR15)
    (hu : RegisterOnly reads [] s u) :
    ∃ t, u.writeR15ThenRd d o = .next t ∧ RegisterOnly reads [d, 15] s t ∧
      (d ≠ 0 → t.reg d = o.rd) ∧ (d ≠ 15 → t.reg 15 = o.r15) :=
  State.writeR15ThenRd_spec d o hu.regs hu.memory hu.host hu.pc hu.rs

/-- Every register after the two writes: Rd is written last, so it wins over R15 (R121). -/
theorem State.writeR15ThenRd_reg {u t : State} {d : Reg} {o : RdR15}
    (h : u.writeR15ThenRd d o = .next t) (i : Reg) :
    t.reg i = if i = d ∧ d ≠ 0 then o.rd else if i = 15 then o.r15 else u.reg i := by
  cases h
  simp [State.reg_setReg]

/-- R15 is overwritten, so what it held before decides no register after the two writes (R121). -/
theorem State.writeR15ThenRd_reg_congr {u u' t t' : State} {d : Reg} {o : RdR15}
    (hu : ∀ i : Reg, i ≠ 15 → u.reg i = u'.reg i) (h : u.writeR15ThenRd d o = .next t)
    (h' : u'.writeR15ThenRd d o = .next t') (i : Reg) : t.reg i = t'.reg i := by
  rw [State.writeR15ThenRd_reg h, State.writeR15ThenRd_reg h']
  split_ifs with hd h15
  · rfl
  · rfl
  · exact hu i h15

/-! ### The instructions that write R15 first, off their faults -/

/-- muln has no fault (R128). -/
theorem exec_muln (d a b : Reg) (s : State) :
    exec (.muln d a b) s = ((s.touchSources a b).touchReg 15).writeR15ThenRd d
      (mulnValue Config.params (s.reg 15) (s.reg a) (s.reg b)) := rfl

/-- div without a fault writes its two values (R125). -/
theorem exec_div_of_no_fault {d a b : Reg} {s : State} (hb : s.reg b ≠ 0)
    (hmin : ¬(s.reg a = 0x8000 ∧ s.reg b = 0xFFFF)) :
    exec (.div d a b) s = (s.touchSources a b).writeR15ThenRd d
      (divValue Config.params (s.reg a) (s.reg b)) := by
  have hf : divFault Config.params (s.reg a) (s.reg b) = none :=
    (instrFault_div d a b s).trans (by rw [if_neg hb, if_neg hmin])
  simp only [exec, execDiv, hf]

/-- divn without a fault writes its two values (R129). -/
theorem exec_divn_of_no_fault {d a b : Reg} {s : State} (hb : s.reg b ≠ 0) :
    exec (.divn d a b) s = ((s.touchSources a b).touchReg 15).writeR15ThenRd d
      (divnValue Config.params (s.reg 15) (s.reg a) (s.reg b)) := by
  have hf : zeroDivisorFault Config.params (s.reg b) = none := if_neg hb
  simp only [exec, execDivn, hf]

end Sys2Proof.Machine

namespace Sys2Proof.Safety

open Machine

/-! ### The statements about arithmetic and compare -/

/-- Settles O1: the addition without a carry in. -/
theorem addGivesSumAndFlags : Obligations.AddGivesSumAndFlags := by
  intro d a b w2 s
  have h := addValue_spec (s.reg a) (s.reg b) false
  simp only [Bool.toNat_false, Nat.cast_zero, add_zero] at h
  exact ⟨decode_packNibbles 0x0 d a b w2,
    State.writeRdThenR15_arith d (registerOnly_touchSources s a b) h⟩

/-- Settles O2, by `subValue_spec`: the difference, with the borrow in V. -/
theorem subGivesDifferenceAndFlags : Obligations.SubGivesDifferenceAndFlags :=
  fun d a b w2 s => ⟨decode_packNibbles 0x1 d a b w2,
    State.writeRdThenR15_arith d (registerOnly_touchSources s a b) (subValue_spec _ _)⟩

/-- Settles O3, by `mulValue_spec`: the low half, with the nonzero high half in V. -/
theorem mulGivesLowHalfAndOverflow : Obligations.MulGivesLowHalfAndOverflow :=
  fun d a b w2 s => ⟨decode_packNibbles 0x2 d a b w2,
    State.writeRdThenR15_arith d (registerOnly_touchSources s a b) (mulValue_spec _ _)⟩

/-- Settles O4: off the faults both results fit 16 signed bits, and Rd is written after R15. -/
theorem divGivesQuotientAndRemainder : Obligations.DivGivesQuotientAndRemainder := by
  intro d a b w2 s
  refine ⟨decode_packNibbles 0x3 d a b w2, fun hb hmin => ?_⟩
  obtain ⟨t, ht, hframe, hd, h15⟩ := State.writeR15ThenRd_of_registerOnly d
    (divValue Config.params (s.reg a) (s.reg b)) (registerOnly_touchSources s a b)
  obtain ⟨hq, hr⟩ := divValue_toInt hmin
  exact ⟨t, (exec_div_of_no_fault hb hmin).trans ht, hframe,
    fun h0 => by rw [hd h0, hq], fun hne => by rw [h15 hne, hr]⟩

/-- Settles O5: one write of R15, after the operand reads. -/
theorem cmpSetsBothPairs : Obligations.CmpSetsBothPairs := by
  intro d a b w2 s
  refine ⟨decode_packNibbles 0x4 d a b w2, _, rfl, (registerOnly_touchSources s a b).set 15 _, ?_⟩
  rw [State.reg_setReg, if_pos ⟨rfl, by decide⟩]
  exact cmpFlags_spec _ _

/-- Settles O6: the addition whose carry in is bit 7 of the old R15. -/
theorem addcAddsTheCarryBit : Obligations.AddcAddsTheCarryBit := by
  intro d a b w2 s
  refine ⟨decode_packNibbles 0x5 d a b w2, ?_⟩
  have h := State.writeRdThenR15_arith d (registerOnly_touchSourcesR15 s a b)
    (addValue_spec (s.reg a) (s.reg b) (carryOf (s.reg 15)))
  have hcin : (carryOf (s.reg 15)).toNat = if (s.reg 15).getLsbD 7 then 1 else 0 :=
    Bool.cond_eq_ite ..
  rw [hcin] at h
  exact h

/-- Settles O7: the mask hides R15, so the wide operand is 0xFFFF0000 + x[a]. -/
theorem mulnMultipliesTheMaskedOperand : Obligations.MulnMultipliesTheMaskedOperand := by
  intro d a b w2 s
  obtain ⟨t, ht, hframe, hd, h15⟩ := State.writeR15ThenRd_of_registerOnly d
    (mulnValue Config.params (s.reg 15) (s.reg a) (s.reg b)) (registerOnly_touchSourcesR15 s a b)
  obtain ⟨hlow, hhigh⟩ := mulnValue_toNat (s.reg 15) (s.reg a) (s.reg b)
  exact ⟨decode_packNibbles 0x6 d a b w2, t, ht, hframe,
    fun h0 => by rw [hd h0, hlow], fun hne => by rw [h15 hne, hhigh]⟩

/-- Settles O8: the wide operand of O7, divided by a divisor above its remainder. -/
theorem divnDividesTheMaskedOperand : Obligations.DivnDividesTheMaskedOperand := by
  intro d a b w2 s
  refine ⟨decode_packNibbles 0x7 d a b w2, fun hb => ?_⟩
  obtain ⟨t, ht, hframe, hd, h15⟩ := State.writeR15ThenRd_of_registerOnly d
    (divnValue Config.params (s.reg 15) (s.reg a) (s.reg b)) (registerOnly_touchSourcesR15 s a b)
  obtain ⟨hq, hr⟩ := divnValue_toNat (h := s.reg 15) (x := s.reg a) hb
  exact ⟨t, (exec_divn_of_no_fault hb).trans ht, hframe,
    fun h0 => by rw [hd h0, hq], fun hne => by rw [h15 hne, hr]⟩

/-- Settles O10: no value computed depends on the old R15, and R15 itself is overwritten. -/
theorem wideOperandIgnoresR15 : Obligations.WideOperandIgnoresR15 := by
  intro d a b v s t t' u u' ha hb hzero ht ht' hu hu'
  have hoff : ∀ i : Reg, i ≠ 15 → (s.setReg 15 v).reg i = s.reg i :=
    fun i hi => by rw [State.reg_setReg, if_neg fun h => hi h.1]
  have hsources : ∀ i : Reg, i ≠ 15 → ((s.touchSources a b).touchReg 15).reg i =
      (((s.setReg 15 v).touchSources a b).touchReg 15).reg i := fun i hi => (hoff i hi).symm
  rw [exec_muln] at ht
  rw [exec_muln, hoff a ha, hoff b hb, mulnValue_ignores_r15 _ (s.reg 15)] at ht'
  rw [exec_divn_of_no_fault hzero] at hu
  rw [exec_divn_of_no_fault (by rwa [hoff b hb]), hoff a ha, hoff b hb,
    divnValue_ignores_r15 _ (s.reg 15)] at hu'
  exact ⟨State.writeR15ThenRd_reg_congr hsources ht ht',
    State.writeR15ThenRd_reg_congr hsources hu hu'⟩

end Sys2Proof.Safety
end

section
/-! lea, load and store: the effective address, and what each instruction answers and leaves unchanged
(42_load_store.md R150 to R153). -/

namespace Sys2Proof.Machine

open Safety

/-! ### Addresses -/

/-- A sum that wraps is above 65535, so what is left of it is not address 0 (R150). -/
theorem addressIs_wrapped_ne_zero {base w2 e : Word} (h : AddressIs base w2 e)
    (hwrap : 65535 < base.toNat + w2.toNat) : e ≠ 0 := by
  obtain ⟨-, hsub⟩ := h
  have hpos : 0 < e.toNat := by
    rw [hsub hwrap]
    exact Nat.sub_pos_of_lt hwrap
  rintro rfl
  exact Nat.lt_irrefl 0 hpos

/-- The effective address of an instruction is the address sum of its base register (R150). -/
theorem State.ea_addressIs (s : State) (a : Reg) (w2 : Word) :
    AddressIs (s.reg a) w2 (s.ea a w2) := effectiveAddress_spec (s.reg a) w2

/-! ### Register writes and memory accesses -/

/-- A register other than R0 holds what was written to it (10_state.md R22). -/
theorem State.reg_setReg_same (s : State) {i : Reg} (v : Word) (hi : i ≠ 0) :
    (s.setReg i v).reg i = v := by
  rw [State.reg_setReg, if_pos ⟨rfl, hi⟩]

end Sys2Proof.Machine

namespace Sys2Proof.Safety

open Machine

/-- The read of one operand keeps everything but its read mark (10_state.md R26). -/
theorem registerOnly_touchReg (s : State) (a : Reg) : RegisterOnly [a] [] s (s.touchReg a) :=
  ⟨(RegsFrame.refl s).touch a, (SameMemory.refl s).touch a, (SameHostData.refl s).touch a, rfl, rfl⟩

/-- A memory read leaves the registers and their marks (20_memory.md R51). -/
theorem RegsFrame.memRead {reads writes : List Reg} {s t : State} (h : RegsFrame reads writes s t)
    (x : Word) : RegsFrame reads writes s (t.memRead x).2 :=
  h.trans_regs (fun _ => rfl) rfl rfl

/-- So does a memory write (20_memory.md R52). -/
theorem RegsFrame.memWrite {reads writes : List Reg} {s t : State} (h : RegsFrame reads writes s t)
    (x v : Word) : RegsFrame reads writes s (t.memWrite x v) :=
  h.trans_regs (fun _ => rfl) rfl rfl

end Sys2Proof.Safety

namespace Sys2Proof.Machine

/-! ### What lea, load and store answer -/

/-- lea writes the address to Rd (R151). -/
theorem exec_lea (d a : Reg) (w2 : Word) (s : State) :
    exec (.lea d a w2) s = .next ((s.touchReg a).setReg d (s.ea a w2)) := rfl

/-- load reads the word at the address, then writes it to Rd (R152). -/
theorem exec_load (d a : Reg) (w2 : Word) (s : State) :
    exec (.load d a w2) s =
      .next (((s.touchReg a).memRead (s.ea a w2)).2.setReg d (s.word (s.ea a w2))) := rfl

/-- store reads its base and its data register, then writes the word at the address (R153). -/
theorem exec_store (d a : Reg) (w2 : Word) (s : State) :
    exec (.store d a w2) s = .next ((s.touchSources a d).memWrite (s.ea a w2) (s.reg d)) := rfl

end Sys2Proof.Machine

namespace Sys2Proof.Safety

open Machine

/-! ### The statements about addresses, lea, load and store -/

/-- Settles O11: both sums are the effective address, which is the address sum. -/
theorem addressSumsWrapBySubtracting65535 : Obligations.AddressSumsWrapBySubtracting65535 :=
  fun base w2 => ⟨effectiveAddress_spec base w2, jumpTarget_eq base w2,
    addressIs_wrapped_ne_zero (effectiveAddress_spec base w2)⟩

/-- Settles O12: one register write after the read of the base. -/
theorem leaGivesTheAddress : Obligations.LeaGivesTheAddress :=
  fun d a w2 s => ⟨decode_packIRX d a 0 w2, _, exec_lea d a w2 s,
    (registerOnly_touchReg s a).set d _, s.ea_addressIs a w2, State.reg_setReg_same _ _⟩

/-- Settles O13: the access records its address and leaves every word, and then Rd is written. -/
theorem loadReadsTheAddressedWord : Obligations.LoadReadsTheAddressedWord := by
  intro d a w2 s
  have hregs := (registerOnly_touchReg s a).regs
  have hread : Recorded (s.ea a w2) s ((s.touchReg a).memRead (s.ea a w2)).2 :=
    Recorded.touchMem _ rfl rfl
  exact ⟨decode_packIRX d a 1 w2, _, exec_load d a w2 s, (hregs.memRead _).set d _,
    s.ea_addressIs a w2, State.reg_setReg_same _ _, State.word_setReg _ d _, hread.set d _,
    (exec_effect (exec_load d a w2 s)).host, State.setReg_pc _ d _, State.setReg_rs _ d _⟩

/-- Settles O14: the last operation is the access that writes x[d], and no register is written. -/
theorem storeWritesTheAddressedWordOnly : Obligations.StoreWritesTheAddressedWordOnly := by
  intro d a w2 s hwf
  have hregs := s.touchSources_frame a d
  exact ⟨decode_packIRX d a 2 w2, _, exec_store d a w2 s, hregs.memWrite _ _, s.ea_addressIs a w2,
    State.word_memWrite_same _ _ _ hwf, fun _ hx => State.word_memWrite_other _ _ _ hx,
    Recorded.touchMem _ rfl rfl, (exec_effect (exec_store d a w2 s)).host, rfl, rfl⟩

end Sys2Proof.Safety
end

section
/-! The jumps: the bits their masks test, what each answers and leaves unchanged, and what they decide after
a cmp (43_jumps.md R160 to R168). -/

namespace Sys2Proof.Machine

open Safety

/-! ### The bits a mask tests -/

/-- A mask of one bit tests that bit (R162). -/
theorem anySet_twoPow_iff (f : Word) {i : Nat} (hi : i < 16) :
    anySet (BitVec.twoPow 16 i) f = true ↔ f.getLsbD i = true := by
  have hne : BitVec.twoPow 16 i ≠ 0#16 := fun h => by
    simpa [BitVec.getLsbD_twoPow, hi] using congrArg (·.getLsbD i) h
  rw [anySet, bne_iff_ne, BitVec.and_twoPow]
  split
  · exact iff_of_true hne ‹_›
  · exact iff_of_false (fun h => h rfl) ‹_›

/-- A mask of two parts tests the bits of either (R162). -/
theorem anySet_or_iff (m n f : Word) :
    anySet (m ||| n) f = true ↔ anySet m f = true ∨ anySet n f = true := by
  simp only [anySet, bne_iff_ne, BitVec.and_or_distrib_left]
  rw [← not_and_or]
  exact not_congr BitVec.or_eq_zero_iff

/-- The flag g (R168, 10_state.md R28). -/
theorem anySet_g_iff (f : Word) : anySet 0x0001 f = true ↔ f.getLsbD 0 = true :=
  anySet_twoPow_iff f (i := 0) (by decide)

/-- The flag eq (R165, 10_state.md R28). -/
theorem anySet_eq_iff (f : Word) : anySet 0x0004 f = true ↔ f.getLsbD 2 = true :=
  anySet_twoPow_iff f (i := 2) (by decide)

/-- The flag L (R163, 10_state.md R28). -/
theorem anySet_l_iff (f : Word) : anySet 0x0008 f = true ↔ f.getLsbD 3 = true :=
  anySet_twoPow_iff f (i := 3) (by decide)

/-- L or eq (R164). -/
theorem anySet_l_or_eq_iff (f : Word) :
    anySet 0x000C f = true ↔ f.getLsbD 3 = true ∨ f.getLsbD 2 = true :=
  (anySet_or_iff 0x0008 0x0004 f).trans (or_congr (anySet_l_iff f) (anySet_eq_iff f))

/-- g or eq (R167). -/
theorem anySet_g_or_eq_iff (f : Word) :
    anySet 0x0005 f = true ↔ f.getLsbD 0 = true ∨ f.getLsbD 2 = true :=
  (anySet_or_iff 0x0001 0x0004 f).trans (or_congr (anySet_g_iff f) (anySet_eq_iff f))

/-- Not eq (R166). -/
theorem not_anySet_eq_iff (f : Word) : (!anySet 0x0004 f) = true ↔ ¬f.getLsbD 2 = true := by
  rw [← anySet_eq_iff, Bool.not_eq_true', Bool.not_eq_true]

/-! ### What the jumps answer -/

/-- The target of a jump is the address sum of its base register (R160). -/
theorem State.target_addressIs (s : State) (a : Reg) (w2 : Word) :
    AddressIs (s.reg a) w2 (s.target a w2) := by
  rw [State.target, jumpTarget_eq]
  exact effectiveAddress_spec (s.reg a) w2

/-- An instruction that is a conditional jump on a test of R15 jumps when the test holds (R162). -/
theorem State.jumpsWhen_of_jumpOn {i : Instr} {a : Reg} {w2 : Word} {s : State} {test : Word → Bool}
    {taken : Prop} (hexec : exec i s = s.jumpOn test a w2) (htest : test (s.reg 15) = true ↔ taken) :
    JumpsWhen i a w2 s taken := by
  obtain ⟨hregs, hmemory, hhost, hpc, hrs⟩ := registerOnly_touchReg s 15
  obtain ⟨t, ht, hframe, htarget⟩ :=
    State.jumpWhen_spec (test (s.reg 15)) a w2 hregs hmemory hhost hpc hrs
  have hreads : RegsFrame [15, a] [] s t :=
    hframe.regs.congr (fun i => by simp [Bool.or_comm]) fun _ => rfl
  exact ⟨t, hexec.trans ht, ⟨hreads, hframe.memory, hframe.host, hframe.rs⟩,
    fun h => htarget.trans (if_pos (htest.2 h)), fun h => htarget.trans (if_neg (mt htest.1 h))⟩

end Sys2Proof.Machine

namespace Sys2Proof.Safety

open Machine

/-! ### The statements about jumps -/

/-- What decides a jump may be said by any equivalent condition. -/
theorem JumpsWhen.congr {i : Instr} {a : Reg} {w2 : Word} {s : State} {p q : Prop}
    (h : JumpsWhen i a w2 s p) (hpq : p ↔ q) : JumpsWhen i a w2 s q := propext hpq ▸ h

/-- Settles O16: the jump is taken whatever R15 holds, so its only read is the base. -/
theorem jumpAlwaysGoesToTheTarget : Obligations.JumpAlwaysGoesToTheTarget := by
  intro d a w2 s
  obtain ⟨t, ht, hframe, hpc⟩ := State.jumpWhen_spec true a w2 (RegsFrame.refl s)
    (SameMemory.refl s) (SameHostData.refl s) rfl rfl
  have htarget : t.pc = s.target a w2 := hpc
  exact ⟨decode_packIRX d a 3 w2, t, ht, hframe, htarget, htarget ▸ s.target_addressIs a w2⟩

/-- Settles O17: each jump is `jumpOn` with the mask of its flags. -/
theorem conditionalJumpsTestTheirFlags : Obligations.ConditionalJumpsTestTheirFlags :=
  fun d a w2 s => ⟨s.target_addressIs a w2,
    ⟨decode_packIRX d a 4 w2, State.jumpsWhen_of_jumpOn rfl (anySet_l_iff _)⟩,
    ⟨decode_packIRX d a 5 w2, State.jumpsWhen_of_jumpOn rfl (anySet_l_or_eq_iff _)⟩,
    ⟨decode_packIRX d a 6 w2, State.jumpsWhen_of_jumpOn rfl (anySet_eq_iff _)⟩,
    ⟨decode_packIRX d a 7 w2,
      State.jumpsWhen_of_jumpOn (test := fun f => !anySet 0x0004 f) rfl (not_anySet_eq_iff _)⟩,
    ⟨decode_packIRX d a 8 w2, State.jumpsWhen_of_jumpOn rfl (anySet_g_or_eq_iff _)⟩,
    ⟨decode_packIRX d a 9 w2, State.jumpsWhen_of_jumpOn rfl (anySet_g_iff _)⟩⟩

/-- Settles O18: the flags the jumps test (O17) are the relations cmp put into them (O5). -/
theorem jumpsAfterCmpDecideSignedOrder : Obligations.JumpsAfterCmpDecideSignedOrder := by
  intro x y a w2 s t hcmp m n
  obtain ⟨-, u, hu, -, hflags⟩ := cmpSetsBothPairs 0 x y w2 s
  obtain rfl : t = u := Host.Outcome.next.inj (hcmp.symm.trans hu)
  have hg : (t.reg 15).getLsbD 0 = true ↔ n < m := hflags.g
  have hl : (t.reg 15).getLsbD 3 = true ↔ m < n := hflags.l
  have heq : (t.reg 15).getLsbD 2 = true ↔ m = n := hflags.eq.trans BitVec.toInt_inj.symm
  have hle : (t.reg 15).getLsbD 3 = true ∨ (t.reg 15).getLsbD 2 = true ↔ m ≤ n :=
    (or_congr hl heq).trans le_iff_lt_or_eq.symm
  have hge : (t.reg 15).getLsbD 0 = true ∨ (t.reg 15).getLsbD 2 = true ↔ n ≤ m :=
    (or_congr hg (heq.trans eq_comm)).trans le_iff_lt_or_eq.symm
  obtain ⟨-, ⟨-, jlt⟩, ⟨-, jle⟩, ⟨-, jeq⟩, ⟨-, jne⟩, ⟨-, jge⟩, -, jgt⟩ :=
    conditionalJumpsTestTheirFlags 0 a w2 t
  exact ⟨JumpsWhen.congr jlt hl, JumpsWhen.congr jle hle, JumpsWhen.congr jeq heq,
    JumpsWhen.congr jne (not_congr heq), JumpsWhen.congr jge hge, JumpsWhen.congr jgt hg⟩

end Sys2Proof.Safety
end

section
/-! trap: what each range of codes answers, what a trap leaves unchanged, and which step halts
(44_trap.md R180 to R186). -/

namespace Sys2Proof.Machine

/-! ### What trap answers, by its code -/

/-- Code 0 halts (R182). -/
theorem exec_trap_of_halt {d : Reg} {s : State} (h : s.reg d = 0) (a b : Reg) :
    exec (.trap d a b) s = .next ((s.touchReg d).setRs .halted) := by
  rw [exec_trap, if_pos h]

/-- Code 4 is the breakpoint (R183). -/
theorem exec_trap_of_breakpoint {d : Reg} {s : State} (h : s.reg d = 4) (a b : Reg) :
    exec (.trap d a b) s = .next ((s.touchReg d).setRs .breakpoint) := by
  have hhalt : s.reg d ≠ 0 := by rw [h]; decide
  rw [exec_trap, if_neg hhalt, if_pos h]

/-- Codes 5 to 254 raise Error (R186). -/
theorem exec_trap_of_mid {d : Reg} {s : State} (h : 5 ≤ (s.reg d).toNat ∧ (s.reg d).toNat < 255)
    (a b : Reg) : exec (.trap d a b) s = raiseError .trapCode (s.touchReg d) := by
  have hhalt : s.reg d ≠ 0 := by bv_omega
  have hbreak : s.reg d ≠ 4 := by bv_omega
  rw [exec_trap, if_neg hhalt, if_neg hbreak, if_pos h, raiseError]

/-- The I/O stubs and the user traps only read their code (R184, R185). -/
theorem exec_trap_of_no_effect {d : Reg} {s : State}
    (h : s.reg d = 1 ∨ s.reg d = 2 ∨ s.reg d = 3 ∨ 255 ≤ (s.reg d).toNat) (a b : Reg) :
    exec (.trap d a b) s = .next (s.touchReg d) := by
  have hhalt : s.reg d ≠ 0 := by bv_omega
  have hbreak : s.reg d ≠ 4 := by bv_omega
  have hmid : ¬(5 ≤ (s.reg d).toNat ∧ (s.reg d).toNat < 255) := by bv_omega
  rw [exec_trap, if_neg hhalt, if_neg hbreak, if_neg hmid]

end Sys2Proof.Machine

namespace Sys2Proof.Safety

open Machine

/-! ### What a trap leaves unchanged -/

/-- The read of the code writes nothing, so it keeps all a trap keeps (R181). -/
theorem runStateOnly_touchReg (s : State) (d : Reg) : RunStateOnly [d] s (s.touchReg d) := by
  obtain ⟨hregs, hmemory, hhost, hpc, -⟩ := registerOnly_touchReg s d
  exact ⟨hregs, hmemory, hhost, hpc⟩

/-- Writing the run-state stays within the frame of a trap (R181). -/
theorem RunStateOnly.setRs {reads : List Reg} {s u : State} (h : RunStateOnly reads s u)
    (r : RunState) : RunStateOnly reads s (u.setRs r) where
  regs := h.regs.trans_regs (fun _ => rfl) rfl rfl
  memory := h.memory.setRs r
  host := ⟨h.host.symbols, h.host.display, h.host.history, h.host.freeCount⟩
  pc := h.pc

/-! ### The step that halts -/

/-- Only an executing step changes the run-state to Halted, and of the ways such a step writes the
run-state (O29) only code 0 gives Halted (R182, 40_controller.md R109). -/
theorem trap_zero_of_step_halted {s t : State} (h : step s = .next t) (hs : s.rs ≠ .halted)
    (ht : t.rs = .halted) :
    ∃ d a b : Reg, decode (s.word s.pc) (s.word (s.pc + 1)) = .ok (.trap d a b) ∧ s.reg d = 0 := by
  by_cases hrs : s.rs = .running ∨ s.rs = .step
  · rcases stepLeavesRunStateButForTrapsAndFaults s t hrs h with
      hsame | ⟨herr, -⟩ | ⟨d, a, b, hd, ⟨-, hcode⟩ | ⟨hbreak, -⟩⟩
    · exact absurd (hsame.symm.trans ht) hs
    · exact absurd (herr.symm.trans ht) nofun
    · exact ⟨d, a, b, hd, hcode⟩
    · exact absurd (hbreak.symm.trans ht) nofun
  · obtain ⟨hrunning, hstep⟩ := not_or.1 hrs
    have hidle : step s = .next s := stepOutsideRunningAndStepChangesNothing s hrunning hstep
    obtain rfl : s = t := Host.Outcome.next.inj (hidle.symm.trans h)
    exact absurd ht hs

/-! ### The statements about trap -/

/-- Settles O19, from what code 0 answers, the step that halts, and Halted being terminal. -/
theorem haltOnlyByTrapCodeZero : Obligations.HaltOnlyByTrapCodeZero :=
  ⟨fun d a b s hcode =>
      ⟨_, exec_trap_of_halt hcode a b, (runStateOnly_touchReg s d).setRs .halted, rfl⟩,
    fun _ _ => trap_zero_of_step_halted,
    fun _ hs => step_of_halted_or_error (.inl hs)⟩

/-- Settles O20: the code is read, then the run-state written. -/
theorem trapCodeFourBreaks : Obligations.TrapCodeFourBreaks :=
  fun d a b w2 s => ⟨decode_packNibbles 0xC d a b w2, fun hcode =>
    ⟨_, exec_trap_of_breakpoint hcode a b, (runStateOnly_touchReg s d).setRs .breakpoint, rfl⟩⟩

/-- Settles O21: the read of the code is all such a trap does. -/
theorem trapStubsAndUserTrapsDoNothing : Obligations.TrapStubsAndUserTrapsDoNothing :=
  fun d a b s hcode => ⟨_, exec_trap_of_no_effect hcode a b, runStateOnly_touchReg s d, rfl⟩

/-- Settles O22: the code is read, then Error raised. -/
theorem trapMidCodesFault : Obligations.TrapMidCodesFault := by
  intro d a b s hlow hhigh
  obtain ⟨hregs, hmemory, hhost, hpc⟩ := runStateOnly_touchReg s d
  obtain ⟨t, ht, hframe⟩ := raiseError_spec .trapCode hregs hmemory hhost hpc
  exact ⟨(instrFault_trap d a b s).trans (if_pos ⟨hlow, hhigh⟩), t,
    (exec_trap_of_mid ⟨hlow, hhigh⟩ a b).trans ht, hframe⟩

end Sys2Proof.Safety
end

section
/-! The lexer loses nothing: every item consumes the characters at the head of its text, and the spans follow
one another (30_encoding.md R86, 45_assembler.md R200). -/

namespace Sys2Proof.Asm

/-- The byte length counts the characters one by one. -/
theorem byteLength_eq_sum (t : Text) : byteLength t = (t.map Char.utf8Size).sum := by
  rw [byteLength, List.sum_eq_foldl, List.foldl_map]

@[simp] theorem byteLength_append (u v : Text) :
    byteLength (u ++ v) = byteLength u + byteLength v := by
  simp [byteLength_eq_sum]

/-- A token consumes its word and the rest of the statement, or its word alone (log 10, 11). -/
theorem lexWord_text (w rest : Text) :
    (lexWord w rest).2 = (w ++ (takeStatement rest).1, (takeStatement rest).2) ∨
      (lexWord w rest).2 = (w, rest) := by
  unfold lexWord
  dsimp only
  split
  · exact .inl rfl
  split
  · exact .inl rfl
  split
  · split <;> exact .inr rfl
  · exact .inr rfl
  · split <;> exact .inr rfl

theorem lexWord_append (w rest : Text) :
    (lexWord w rest).2.1 ++ (lexWord w rest).2.2 = w ++ rest := by
  rcases lexWord_text w rest with h | h
  · rw [h, List.append_assoc, takeStatement_append]
  · rw [h]

/-- What an item consumes and what it leaves are the text. -/
theorem lexOne_append (c : Char) (cs : Text) :
    (lexOne c cs).2.1 ++ (lexOne c cs).2.2 = c :: cs := by
  unfold lexOne
  split
  · rfl
  split
  · exact takeLine_append _
  split
  · exact takeBlanks_append _
  · exact (lexWord_append _ _).trans (takeWord_append _)

/-- A token consumes its word at least. -/
theorem lexWord_consumes {w : Text} (hw : w ≠ []) (rest : Text) : (lexWord w rest).2.1 ≠ [] := by
  rcases lexWord_text w rest with h | h
  · rw [h]
    exact List.append_ne_nil_of_left_ne_nil hw _
  · rwa [h]

/-- A line ends with a newline, or with a carriage return before one (R90). -/
theorem eq_of_atLineEnd {c : Char} {cs : Text} (h : atLineEnd (c :: cs) = true) :
    c = '\n' ∨ c = '\r' := by
  unfold atLineEnd at h
  split at h
  · exact .inl (List.cons.inj ‹_›).1
  · exact .inr (List.cons.inj ‹_›).1
  · cases h

/-- What ends a word, but for a newline and a comment, is white space (R90). -/
theorem takeBlanks_consumes {c : Char} {cs : Text} (hend : atWordEnd (c :: cs) = true)
    (hnewline : c ≠ '\n') (hcomment : c ≠ ';') : (takeBlanks (c :: cs)).1 ≠ [] := by
  have hspace : isBlank c = true ∨ (c = '\r' ∧ atLineEnd (c :: cs) = true) := by
    simp only [atWordEnd, Bool.or_eq_true, beq_iff_eq, hcomment, or_false] at hend
    exact hend.imp_right fun hline => ⟨(eq_of_atLineEnd hline).resolve_left hnewline, hline⟩
  simp [takeBlanks, hspace]

/-- Every item consumes a character. -/
theorem lexOne_consumes (c : Char) (cs : Text) : (lexOne c cs).2.1 ≠ [] := by
  unfold lexOne
  split
  · exact List.cons_ne_nil _ _
  rename_i hnewline
  split
  · simp [takeLine, hnewline]
  rename_i hcomment
  split
  · rename_i hend
    exact takeBlanks_consumes hend (by simpa using hnewline) (by simpa using hcomment)
  · rename_i hword
    exact lexWord_consumes (by simp [takeWord, hword]) _

/-- The text after an item is shorter. -/
theorem lexOne_rest_length (c : Char) (cs : Text) : (lexOne c cs).2.2.length ≤ cs.length := by
  have hlength := congrArg List.length (lexOne_append c cs)
  have hpos := List.length_pos_iff.2 (lexOne_consumes c cs)
  rw [List.length_append, List.length_cons] at hlength
  omega

/-- The first item starts where its text does. -/
theorem lexFrom_head (fuel start : Nat) (t : Text) :
    ∀ x ∈ (lexFrom fuel start t).head?, x.start = start := by
  cases fuel with
  | zero => simp [lexFrom]
  | succ fuel => cases t <;> simp [lexFrom]

/-- Every item starts where the one before it stops. -/
theorem lexFrom_isChain (fuel start : Nat) (t : Text) :
    (lexFrom fuel start t).IsChain fun x y => x.stop = y.start := by
  induction fuel generalizing start t with
  | zero => exact .nil
  | succ fuel ih =>
    cases t with
    | nil => exact .nil
    | cons c cs => exact (ih _ _).cons fun y hy => (lexFrom_head _ _ _ y hy).symm

/-- With fuel for every character, the last item stops where the text does. -/
theorem lexFrom_getLast {fuel : Nat} (start : Nat) {t : Text} (hfuel : t.length ≤ fuel) (ht : t ≠ []) :
    ∃ y, (lexFrom fuel start t).getLast? = some y ∧ y.stop = start + byteLength t := by
  induction fuel generalizing start t with
  | zero => exact absurd (List.length_eq_zero_iff.1 (Nat.le_zero.1 hfuel)) ht
  | succ fuel ih =>
    obtain ⟨c, cs, rfl⟩ := List.exists_cons_of_ne_nil ht
    have hbytes := congrArg byteLength (lexOne_append c cs)
    rw [byteLength_append] at hbytes
    by_cases hrest : (lexOne c cs).2.2 = []
    · refine ⟨⟨(lexOne c cs).1, start, start + byteLength (lexOne c cs).2.1⟩, ?_, ?_⟩
      · rw [lexFrom, hrest]
        cases fuel <;> rfl
      · rw [← hbytes, hrest]
        rfl
    · have hshort : (lexOne c cs).2.2.length ≤ fuel :=
        (lexOne_rest_length c cs).trans (Nat.le_of_succ_le_succ hfuel)
      obtain ⟨y, hlast, hstop⟩ := ih (start + byteLength (lexOne c cs).2.1) hshort hrest
      refine ⟨y, ?_, by rw [hstop, ← hbytes, Nat.add_assoc]⟩
      rw [lexFrom, List.getLast?_cons, hlast]
      rfl

/-- Settles O60: every item consumes a character, so the text's length is fuel enough. -/
theorem lexerSpansCoverTheText : Obligations.LexerSpansCoverTheText := by
  intro t ht
  obtain ⟨y, hlast, hstop⟩ := lexFrom_getLast 0 (le_refl t.length) ht
  obtain ⟨c, cs, rfl⟩ := List.exists_cons_of_ne_nil ht
  exact ⟨lexFrom_isChain _ _ _, ⟨_, rfl, rfl⟩, y, hlast, hstop.trans (Nat.zero_add _)⟩

end Sys2Proof.Asm
end

section
/-! The data directive, and the errors of the ordering rule and of the finalization (45_assembler.md R203 to R207,
R214, R233, R243, R244). -/

namespace Sys2Proof.Asm

open Safety

/-! ### The data directive -/

/-- A data directive defines its name, then emits its value (R214). -/
theorem AsmState.encodeToken_data (s : AsmState) {text name : Text} {v : Value}
    (h : parseData text = some (name, v)) :
    s.encodeToken (.data text) = (s.define name).emitValue v := by
  rw [AsmState.encodeToken, AsmState.encodeData, h]

@[simp] theorem AsmState.emitValue_labels (s : AsmState) (v : Value) :
    (s.emitValue v).labels = s.labels := by
  cases v <;> rfl

@[simp] theorem AsmState.emitValue_cursor (s : AsmState) (v : Value) :
    (s.emitValue v).cursor = s.cursor + 1 := by
  cases v <;> rfl

/-- A definition gives its name the cursor and the line, and leaves every other label (R207). -/
theorem AsmState.lookup_define (s : AsmState) (name other : Text) :
    (s.define name).labels.lookup other =
      if other = name then some (s.cursor, s.line) else s.labels.lookup other :=
  lookup_assign name other _ _

/-- Settles O59: the definition, then the emitted value. -/
theorem dataDefinesItsNameAndEmitsOneWord : Obligations.DataDefinesItsNameAndEmitsOneWord := by
  intro s text name v hparse
  rw [s.encodeToken_data hparse]
  refine ⟨?_, fun other hother => ?_, AsmState.emitValue_cursor _ v, ?_⟩
  · rw [AsmState.emitValue_labels, AsmState.lookup_define, if_pos rfl]
  · rw [AsmState.emitValue_labels, AsmState.lookup_define, if_neg hother]
  · cases v with
    | literal w => exact ⟨rfl, rfl⟩
    | label x =>
      obtain ⟨hbuffer, -, hpatches⟩ := (s.define name).emitValue_label x
      exact ⟨hbuffer, hpatches⟩

/-! ### The ordering rule -/

@[simp] theorem mem_errorWhen {failed : Bool} {k k' : ErrorKind} :
    k ∈ errorWhen failed k' ↔ failed = true ∧ k = k' := by
  cases failed <;> simp [errorWhen]

theorem errorWhen_sublist (failed : Bool) (k : ErrorKind) : (errorWhen failed k).Sublist [k] := by
  cases failed
  · exact List.nil_sublist _
  · exact List.Sublist.refl _

@[simp] theorem LastKind.isIns_iff {last : LastKind} : last.isIns = true ↔ ∃ f, last = .ins f := by
  cases last <;> simp [LastKind.isIns]

@[simp] theorem LastKind.startsLine_eq_false_iff {last : LastKind} :
    last.startsLine = false ↔ last ≠ .nl ∧ last ≠ .lbl true := by
  cases last with
  | lbl afterNl => cases afterNl <;> simp [LastKind.startsLine]
  | _ => simp [LastKind.startsLine]

/-- The label row of R204. -/
theorem misplacedLabel_mem_orderErrors (last : LastKind) (t : Token) :
    .misplacedLabel ∈ orderErrors last t ↔ (∃ n, t = .label n) ∧ last ≠ .nl := by
  cases t <;> simp [orderErrors]

/-- The rows of R204 for the tokens that begin an instruction or a directive. -/
theorem instructionNotOnNewLine_mem_orderErrors (last : LastKind) (t : Token) :
    .instructionNotOnNewLine ∈ orderErrors last t ↔
      ((∃ f p, t = .opening f p) ∨ (∃ x, t = .data x) ∨ ∃ x, t = .jump x) ∧
        last ≠ .nl ∧ last ≠ .lbl true := by
  cases t <;> simp [orderErrors]

/-- R204: an argument without its opening token, or an opening token without its argument. -/
theorem instructionArgumentMismatch_mem_orderErrors (last : LastKind) (t : Token) :
    .instructionArgumentMismatch ∈ orderErrors last t ↔
      ((∃ f x, t = .arg f x ∧ last ≠ .ins f) ∨
        ((∀ f x, t ≠ .arg f x) ∧ t ≠ .ignore ∧ ∃ f, last = .ins f)) := by
  cases t <;> simp [orderErrors]

/-- The errors of a token stand in the order of R204's rows, each at most once. -/
theorem orderErrors_sublist (last : LastKind) (t : Token) : (orderErrors last t).Sublist
    [.instructionArgumentMismatch, .misplacedLabel, .instructionNotOnNewLine] := by
  have hmismatch : ∀ failed, (errorWhen failed .instructionArgumentMismatch).Sublist
      [.instructionArgumentMismatch, .misplacedLabel, .instructionNotOnNewLine] :=
    fun failed => (errorWhen_sublist failed _).trans (by decide)
  have hmisplaced : ∀ failed, (errorWhen failed .misplacedLabel).Sublist
      [.misplacedLabel, .instructionNotOnNewLine] :=
    fun failed => (errorWhen_sublist failed _).trans (by decide)
  have hnotNew : ∀ failed, (errorWhen failed .instructionNotOnNewLine).Sublist
      [.misplacedLabel, .instructionNotOnNewLine] :=
    fun failed => (errorWhen_sublist failed _).trans (by decide)
  cases t with
  | ignore => exact List.nil_sublist _
  | newline => exact hmismatch _
  | arg f x => exact hmismatch _
  | label n => exact (errorWhen_sublist _ _).append (hmisplaced _)
  | opening f p => exact (errorWhen_sublist _ _).append (hnotNew _)
  | data x => exact (errorWhen_sublist _ _).append (hnotNew _)
  | jump x => exact (errorWhen_sublist _ _).append (hnotNew _)

/-- The errors of a token: those of the ordering rule, then the encoder's own (R202). -/
theorem AsmState.pass1_errors (s : AsmState) (t : Token) : ∃ encoder, (s.pass1 (.token t)).errors =
      s.errors ++ ((orderErrors s.last t).map fun k => ⟨k, s.line⟩) ++ encoder ∧
    ∀ e ∈ encoder, (e.kind = .unknownToken ∨ e.kind = .malformedJump) ∧ e.line = s.line :=
  (s.report (orderErrors s.last t)).encodeToken_errors t

/-! ### The errors of the finalization -/

/-- The errors that follow the ordering rule's at the end of the text (R243, R244). -/
def resolverErrors (l : List Lexeme) : List Error :=
  ((resolved l).pendingAddresses.map
      fun a => ⟨.unresolvedLabel, ((pass1All l).lineMap.lookup a).getD 0⟩)
    ++ (errorWhen ((pass1All l).haltIndex == none) .missingHalt).map fun k => ⟨k, (pass1All l).line⟩

theorem resolverErrors_kinds (l : List Lexeme) :
    ∀ e ∈ resolverErrors l, e.kind = .unresolvedLabel ∨ e.kind = .missingHalt := by
  intro e he
  rcases List.mem_append.1 he with he | he
  · obtain ⟨a, -, rfl⟩ := List.mem_map.1 he
    exact .inl rfl
  · obtain ⟨k, hk, rfl⟩ := List.mem_map.1 he
    exact .inr (mem_errorWhen.1 hk).2

/-- R205 and R233: the errors of pass 1, those of an instruction without its arguments, the resolver's. -/
theorem assembleLexemes_errors_eq (l : List Lexeme) : (assembleLexemes l).errors =
    (pass1All l).errors ++ (errorWhen (pass1All l).last.isIns .instructionArgumentMismatch).map
      (fun k => ⟨k, (pass1All l).line⟩) ++ resolverErrors l := by
  rw [assembleLexemes_errors, resolverErrors, List.append_assoc]

/-- Settles O53: the rows of R204 one by one, one token of pass 1, an unknown span, the end of the text. -/
theorem validatorReportsExactlyTheMisplaced : Obligations.ValidatorReportsExactlyTheMisplaced := by
  refine ⟨fun last t => ⟨misplacedLabel_mem_orderErrors last t,
      instructionNotOnNewLine_mem_orderErrors last t,
      instructionArgumentMismatch_mem_orderErrors last t, orderErrors_sublist last t⟩,
    fun s t => ⟨s.pass1_errors t, ?_⟩, fun s => ⟨rfl, rfl⟩, fun l => ?_⟩
  · rw [AsmState.pass1_last]
    refine ⟨?_, ?_, ?_, ?_, ?_⟩
    · rintro rfl; rfl
    · rintro rfl; rfl
    · rintro n rfl; rfl
    · rintro f p rfl; rfl
    · rintro (⟨f, x, rfl⟩ | ⟨x, rfl⟩ | ⟨x, rfl⟩) <;> rfl
  · refine ⟨resolverErrors l, resolverErrors_kinds l, fun hlast => ?_, fun ⟨f, hlast⟩ => ?_⟩
    · have hins : (pass1All l).last.isIns = false :=
        Bool.eq_false_iff.2 fun h => not_exists.2 hlast (LastKind.isIns_iff.1 h)
      simp [assembleLexemes_errors_eq, hins, errorWhen]
    · simp [assembleLexemes_errors_eq, hlast, LastKind.isIns, errorWhen]

/-- Pass 1 reports no error of the two kinds that the finalization reports (R233). -/
theorem pass1All_errors_filter (l : List Lexeme) {k : ErrorKind} (hk : k = .missingHalt ∨ k = .unresolvedLabel) :
    (pass1All l).errors.filter (fun e => e.kind == k) = [] := by
  refine List.filter_eq_nil_iff.2 fun e he hkind => ?_
  obtain ⟨hhalt, hlabel⟩ := (pass1All_inv l).kinds e he
  rcases hk with rfl | rfl
  · exact hhalt (beq_iff_eq.1 hkind)
  · exact hlabel (beq_iff_eq.1 hkind)

/-- The image's errors of those two kinds are the resolver's. -/
theorem errorsOf_assembleLexemes (l : List Lexeme) {k : ErrorKind}
    (hk : k = .missingHalt ∨ k = .unresolvedLabel) :
    errorsOf k (assembleLexemes l) = (resolverErrors l).filter fun e => e.kind == k := by
  have hend : ((errorWhen (pass1All l).last.isIns .instructionArgumentMismatch).map
      fun k => Error.mk k (pass1All l).line).filter (fun e => e.kind == k) = [] := by
    rcases hk with rfl | rfl <;> cases (pass1All l).last.isIns <;> rfl
  rw [errorsOf, assembleLexemes_errors_eq, List.filter_append, List.filter_append,
    pass1All_errors_filter l hk, hend, List.nil_append, List.nil_append]

/-- The image's UnresolvedLabel errors (R244). -/
theorem errorsOf_unresolvedLabel (l : List Lexeme) : errorsOf .unresolvedLabel (assembleLexemes l) =
    (resolved l).pendingAddresses.map
      fun a => ⟨.unresolvedLabel, ((pass1All l).lineMap.lookup a).getD 0⟩ := by
  rw [errorsOf_assembleLexemes l (.inr rfl), resolverErrors, List.filter_append, List.filter_map,
    List.filter_map]
  cases (pass1All l).haltIndex == none <;> simp [errorWhen, Function.comp_def]

/-- The image's MissingHalt errors (R243). -/
theorem errorsOf_missingHalt (l : List Lexeme) : errorsOf .missingHalt (assembleLexemes l) =
    (errorWhen ((pass1All l).haltIndex == none) .missingHalt).map fun k => ⟨k, (pass1All l).line⟩ := by
  rw [errorsOf_assembleLexemes l (.inl rfl), resolverErrors, List.filter_append, List.filter_map,
    List.filter_map]
  cases (pass1All l).haltIndex == none <;> simp [errorWhen, Function.comp_def]

end Sys2Proof.Asm
end

section
/-! The halt instruction: which item takes the halt index, and the word at its address (45_assembler.md R210,
R243). -/

namespace Sys2Proof.Asm

open Safety

/-- x is an RRR argument that an opening token waits for, and its word is the halt encoding (R210). -/
def HaltsAt (s : AsmState) (x : Lexeme) : Prop :=
  ∃ text d a b, x = .token (.arg .rrr text) ∧ s.last = .ins .rrr ∧
    parseRRR text = some (d, a, b) ∧ rrrWord s.held d a b = haltWord

/-- The first halt instruction takes the halt index (R210). -/
theorem AsmState.pass1_haltIndex_of_haltsAt {s : AsmState} {x : Lexeme} (hx : HaltsAt s x)
    (hnone : s.haltIndex = none) : (s.pass1 x).haltIndex = some s.cursor := by
  obtain ⟨text, d, a, b, rfl, hlast, hparse, hword⟩ := hx
  rw [AsmState.pass1_haltIndex]
  simp only [hparse]
  exact if_pos ⟨hlast, hword, hnone⟩

/-- A later halt instruction does not take it (R210). -/
theorem AsmState.pass1_haltIndex_of_some {s : AsmState} {c : Nat} (x : Lexeme)
    (hsome : s.haltIndex = some c) : (s.pass1 x).haltIndex = some c := by
  rw [AsmState.pass1_haltIndex, hsome]
  simp only [reduceCtorEq, and_false, if_false]
  split
  · split <;> rfl
  · rfl

/-- Every other item keeps the halt index. -/
theorem AsmState.pass1_haltIndex_of_not_haltsAt {s : AsmState} {x : Lexeme} (hx : ¬HaltsAt s x) :
    (s.pass1 x).haltIndex = s.haltIndex := by
  rw [AsmState.pass1_haltIndex]
  split
  · split
    · rename_i hparse
      exact if_neg fun ⟨hlast, hword, _⟩ => hx ⟨_, _, _, _, rfl, hlast, hparse, hword⟩
    · rfl
  · rfl

/-- A halt instruction of a sequence is one of its items (R243). -/
theorem haltIn_iff (l before : List Lexeme) :
    HaltIn l before ↔ ∃ x post, l = before ++ x :: post ∧ HaltsAt (pass1All before) x := by
  constructor
  · rintro ⟨p, text, d, a, b, post, hopen, rfl, hparse, hword⟩
    obtain ⟨hlast, rfl⟩ := (pass1All_open before .rrr p).1 hopen
    exact ⟨_, post, rfl, text, d, a, b, rfl, hlast, hparse, (rrrWord_eq _ d a b).trans hword⟩
  · rintro ⟨_, post, rfl, text, d, a, b, rfl, hlast, hparse, hword⟩
    exact ⟨_, text, d, a, b, post, (pass1All_open before .rrr _).2 ⟨hlast, rfl⟩, rfl, hparse,
      (rrrWord_eq _ d a b).symm.trans hword⟩

/-- The halt instructions of a sequence with one more item. -/
theorem haltIn_append_singleton (l before : List Lexeme) (x : Lexeme) :
    HaltIn (l ++ [x]) before ↔ HaltIn l before ∨ (before = l ∧ HaltsAt (pass1All l) x) := by
  simp only [haltIn_iff]
  constructor
  · rintro ⟨y, post, hl, hy⟩
    rcases List.eq_nil_or_concat post with rfl | ⟨post, z, rfl⟩
    · obtain ⟨rfl, hxy⟩ := List.append_inj' hl rfl
      exact .inr ⟨rfl, (List.cons.inj hxy).1 ▸ hy⟩
    · rw [List.concat_eq_append, ← List.cons_append, ← List.append_assoc] at hl
      exact .inl ⟨y, post, List.append_inj_left' hl rfl, hy⟩
  · rintro (⟨y, post, rfl, hy⟩ | ⟨rfl, hx⟩)
    · exact ⟨y, post ++ [x], by simp, hy⟩
    · exact ⟨x, [], rfl, hx⟩

theorem length_lt_of_haltIn {l before : List Lexeme} (h : HaltIn l before) : before.length < l.length := by
  obtain ⟨x, post, rfl, -⟩ := (haltIn_iff l before).1 h
  simp

/-- `before` is what stands before the first halt instruction of the sequence l. -/
def FirstHalt (l before : List Lexeme) : Prop :=
  HaltIn l before ∧ ∀ other, HaltIn l other → before.length ≤ other.length

/-- A sequence has one first halt instruction. -/
theorem FirstHalt.unique {l before other : List Lexeme} (h : FirstHalt l before)
    (h' : FirstHalt l other) : before = other := by
  obtain ⟨x, post, hl, -⟩ := (haltIn_iff l before).1 h.1
  obtain ⟨x', post', hl', -⟩ := (haltIn_iff l other).1 h'.1
  have hlength := le_antisymm (h.2 other h'.1) (h'.2 before h.1)
  exact (List.append_inj (hl.symm.trans hl') hlength).1

/-- A further item leaves the first halt instruction the first. -/
theorem FirstHalt.append {l before : List Lexeme} (h : FirstHalt l before) (x : Lexeme) :
    FirstHalt (l ++ [x]) before := by
  refine ⟨(haltIn_append_singleton l before x).2 (.inl h.1), fun other hother => ?_⟩
  rcases (haltIn_append_singleton l other x).1 hother with hother | ⟨rfl, -⟩
  · exact h.2 other hother
  · exact (length_lt_of_haltIn h.1).le

/-- The halt index after a sequence tells its first halt instruction, or that there is none (R210). -/
def HaltIndexSpec (l : List Lexeme) : Option Nat → Prop
  | some c => ∃ before, FirstHalt l before ∧ c = (pass1All before).buffer.length
  | none => ∀ before, ¬HaltIn l before

/-- One more item keeps what the halt index tells. -/
theorem HaltIndexSpec.append {l : List Lexeme} (h : HaltIndexSpec l (pass1All l).haltIndex)
    (x : Lexeme) : HaltIndexSpec (l ++ [x]) (pass1All (l ++ [x])).haltIndex := by
  rw [pass1All_append]
  cases hindex : (pass1All l).haltIndex with
  | some c =>
    rw [AsmState.pass1_haltIndex_of_some x hindex]
    rw [hindex] at h
    obtain ⟨before, hfirst, hc⟩ := h
    exact ⟨before, hfirst.append x, hc⟩
  | none =>
    rw [hindex] at h
    by_cases hx : HaltsAt (pass1All l) x
    · rw [AsmState.pass1_haltIndex_of_haltsAt hx hindex]
      refine ⟨l, ⟨(haltIn_append_singleton l l x).2 (.inr ⟨rfl, hx⟩), fun other hother => ?_⟩,
        (pass1All_inv l).cursor⟩
      rcases (haltIn_append_singleton l other x).1 hother with hother | ⟨rfl, -⟩
      · exact absurd hother (h other)
      · exact le_rfl
    · rw [AsmState.pass1_haltIndex_of_not_haltsAt hx, hindex]
      intro before hbefore
      rcases (haltIn_append_singleton l before x).1 hbefore with hbefore | ⟨-, hx'⟩
      · exact h before hbefore
      · exact hx hx'

theorem pass1All_haltIndex (l : List Lexeme) : HaltIndexSpec l (pass1All l).haltIndex := by
  induction l using List.reverseRecOn with
  | nil => exact fun before h => absurd (length_lt_of_haltIn h) (Nat.not_lt_zero _)
  | append_singleton l x ih => exact ih.append x

/-- The halt index is none exactly when no halt instruction stands in the sequence (R243). -/
theorem pass1All_haltIndex_eq_none (l : List Lexeme) :
    (pass1All l).haltIndex = none ↔ ¬∃ before, HaltIn l before := by
  have hspec := pass1All_haltIndex l
  cases hindex : (pass1All l).haltIndex with
  | none =>
    rw [hindex] at hspec
    exact iff_of_true rfl (not_exists.2 hspec)
  | some c =>
    rw [hindex] at hspec
    obtain ⟨before, hfirst, -⟩ := hspec
    exact iff_of_false nofun (not_not_intro ⟨before, hfirst.1⟩)

/-- The halt index is the address of the first halt instruction (R210). -/
theorem pass1All_haltIndex_eq_some (l : List Lexeme) (c : Nat) : (pass1All l).haltIndex = some c ↔
    ∃ before, FirstHalt l before ∧ c = (pass1All before).buffer.length := by
  have hspec := pass1All_haltIndex l
  constructor
  · intro hindex
    rwa [hindex] at hspec
  · rintro ⟨before, hfirst, rfl⟩
    cases hindex : (pass1All l).haltIndex with
    | none =>
      exact absurd ⟨before, hfirst.1⟩ ((pass1All_haltIndex_eq_none l).1 hindex)
    | some c =>
      rw [hindex] at hspec
      obtain ⟨other, hother, rfl⟩ := hspec
      rw [hfirst.unique hother]

/-- Backpatching leaves the halt word, whose place no request names (R241). -/
theorem assembleLexemes_halt (l : List Lexeme) {c : Nat} (hc : (pass1All l).haltIndex = some c) :
    (assembleLexemes l).words[c]? = some haltWord := by
  have hinv := pass1All_inv l
  have hword := hinv.halt c hc
  obtain ⟨hlt, -⟩ := List.getElem?_eq_some_iff.1 hword
  rw [assembleLexemes_words, resolved]
  exact (AsmState.resolveAll_keep c _ (pass1All l).endOfText hlt (hinv.haltUnpatched c hc)).trans hword

/-- Settles O54, from what the halt index tells after pass 1. -/
theorem missingHaltExactlyWhenNoHaltWord : Obligations.MissingHaltExactlyWhenNoHaltWord := by
  intro l
  refine ⟨fun hhalt => ?_, fun hhalt => ?_, fun c => ?_, fun c hc => assembleLexemes_halt l hc⟩
  · have hindex := mt (pass1All_haltIndex_eq_none l).1 (not_not_intro hhalt)
    rw [errorsOf_missingHalt, beq_false_of_ne hindex]
    rfl
  · rw [errorsOf_missingHalt, (pass1All_haltIndex_eq_none l).2 hhalt]
    rfl
  · simp only [pass1All_haltIndex_eq_some, FirstHalt, and_assoc]

end Sys2Proof.Asm
end

section
/-! The line map: every emitted word is mapped once, to the line of its token (45_assembler.md R216, R217). -/

namespace Sys2Proof.Asm

/-- A key that stands once is looked up to its value; `lookup_of_mem` for keys of any type. -/
theorem lookup_eq_some_of_nodup {κ α : Type} [BEq κ] [LawfulBEq κ] {k : κ} {v : α} {l : List (κ × α)}
    (hnodup : (l.map Prod.fst).Nodup) (h : (k, v) ∈ l) : l.lookup k = some v := by
  obtain ⟨before, after, rfl⟩ := List.append_of_mem h
  rw [List.map_append, List.map_cons, List.nodup_middle, List.nodup_cons] at hnodup
  refine List.lookup_eq_some_iff.2 ⟨before, after, rfl, fun e he => bne_iff_ne.2 ?_⟩
  rintro rfl
  have hkey : e.1 ∈ before.map Prod.fst := List.mem_map_of_mem he
  exact hnodup.1 (List.mem_append_left _ hkey)

/-- Every word an item emits is mapped to the current line (R217). -/
theorem AsmState.mem_pass1_lineMap {s : AsmState} (hcursor : s.cursor = s.buffer.length) {x : Lexeme}
    {p : Nat} (hlow : s.buffer.length ≤ p) (hhigh : p < (s.pass1 x).buffer.length) :
    (p, s.line) ∈ (s.pass1 x).lineMap := by
  obtain ⟨ws, hbuffer, -, hlines⟩ := s.pass1_emits x
  rw [hbuffer, List.length_append] at hhigh
  rw [hlines, List.mem_append, List.mem_map]
  refine .inr ⟨p - s.buffer.length, List.mem_range.2 (by omega), ?_⟩
  rw [hcursor, Nat.add_sub_cancel' hlow]

/-- Later items keep the entries of the line map. -/
theorem pass1All_lineMap_prefix (l post : List Lexeme) :
    (pass1All l).lineMap <+: (pass1All (l ++ post)).lineMap := by
  induction post using List.reverseRecOn with
  | nil => rw [List.append_nil]
  | append_singleton post x ih =>
    obtain ⟨ws, -, -, hlines⟩ := (pass1All (l ++ post)).pass1_emits x
    rw [← List.append_assoc, pass1All_append, hlines]
    exact ih.trans (List.prefix_append _ _)

/-- The addresses of the line map after pass 1 are those of the words, each once (R217). -/
theorem pass1All_lineMap_nodup (l : List Lexeme) : ((pass1All l).lineMap.map Prod.fst).Nodup := by
  rw [(pass1All_inv l).lineMap]
  exact List.nodup_range

/-- Settles O55: what pass 1 maps is mapped once and stays. -/
theorem lineMapCoversTheImage : Obligations.LineMapCoversTheImage := by
  refine ⟨fun l => ⟨?_, assembleLexemes_length l⟩, fun pre post x p hlow hhigh => ?_⟩
  · rw [assembleLexemes_lineMap, assembleLexemes_length, (pass1All_inv l).lineMap]
  · have hmem : (p, (pass1All pre).line) ∈ (pass1All (pre ++ [x])).lineMap := by
      rw [pass1All_append] at hhigh ⊢
      exact AsmState.mem_pass1_lineMap (pass1All_inv pre).cursor hlow hhigh
    have hkeep := (pass1All_lineMap_prefix (pre ++ [x]) post).subset hmem
    rw [List.append_assoc, List.singleton_append] at hkeep
    rw [assembleLexemes_lineMap, ← pass1All_line]
    exact lookup_eq_some_of_nodup (pass1All_lineMap_nodup _) hkeep

end Sys2Proof.Asm
end

section
/-! The symbol resolver: the addresses of the defined labels and the errors of the others (45_assembler.md R241
to R246). -/

namespace Sys2Proof.Asm

/-- Settles O56: no address is recorded for two labels, so the label's own address stays there. -/
theorem backpatchWritesLabelAddresses : Obligations.BackpatchWritesLabelAddresses := by
  intro l name addr line p ps s hlabel hpatch hp haddr
  have hinv : Pass1Inv s := pass1All_inv l
  have hentry := mem_of_lookup hpatch
  have hword := AsmState.resolveAll_patch hp s.labels s.endOfText (hinv.patchPlace _ hentry p hp) hpatch
    (fun e he hpe => hinv.disjoint e he _ hentry p hpe hp) (mem_of_lookup hlabel) hinv.labelKeys
    hinv.patchKeys
  rw [assembleLexemes_words]
  exact hword.trans (by rw [labelWord, if_pos haddr])

/-- The pending addresses are the lowest addresses of the labels that are not defined (R244). -/
theorem resolved_pendingAddresses_perm (l : List Lexeme) : (resolved l).pendingAddresses.Perm
    (((pass1All l).patches.filter fun e => ((pass1All l).labels.lookup e.1).isNone).map
      fun e => lowest e.2) := by
  rw [AsmState.pendingAddresses, resolved_patches]
  exact (foldr_insertRising _).1

/-- An address is the lowest of its label's exactly when it is one of them and no other is below it. -/
theorem lowest_eq_iff {ps : List Nat} (hps : ps ≠ []) (a : Nat) :
    lowest ps = a ↔ a ∈ ps ∧ ∀ p ∈ ps, a ≤ p := by
  constructor
  · rintro rfl
    exact ⟨lowest_mem hps, fun p hp => lowest_le hp⟩
  · rintro ⟨hmem, hle⟩
    exact le_antisymm (lowest_le hmem) (hle _ (lowest_mem hps))

theorem mem_resolved_pendingAddresses (l : List Lexeme) (a : Nat) :
    a ∈ (resolved l).pendingAddresses ↔ ∃ e ∈ (pass1All l).patches,
      (pass1All l).labels.lookup e.1 = none ∧ a ∈ e.2 ∧ ∀ p ∈ e.2, a ≤ p := by
  rw [(resolved_pendingAddresses_perm l).mem_iff]
  simp only [List.mem_map, List.mem_filter, Option.isNone_iff_eq_none, and_assoc]
  refine exists_congr fun e => and_congr_right fun he => and_congr_right fun _ => ?_
  exact lowest_eq_iff ((pass1All_inv l).patchSome e he) a

/-- No two labels have the same lowest address, so no address is pending twice. -/
theorem resolved_pendingAddresses_nodup (l : List Lexeme) : (resolved l).pendingAddresses.Nodup := by
  have hinv := pass1All_inv l
  rw [(resolved_pendingAddresses_perm l).nodup_iff]
  refine (hinv.patchKeys.of_map.filter _).map_on fun e he e' he' heq => ?_
  have hmem := (List.mem_filter.1 he).1
  have hmem' := (List.mem_filter.1 he').1
  have hlow := lowest_mem (hinv.patchSome e hmem)
  have hlow' := lowest_mem (hinv.patchSome e' hmem')
  exact List.inj_on_of_nodup_map hinv.patchKeys hmem hmem'
    (hinv.disjoint e hmem e' hmem' _ hlow (heq ▸ hlow'))

/-- The pending addresses rise (R244). -/
theorem resolved_pendingAddresses_rising (l : List Lexeme) :
    (resolved l).pendingAddresses.Pairwise (· < ·) :=
  (foldr_insertRising _).2.imp₂ (fun _ _ hle hne => lt_of_le_of_ne hle hne)
    (resolved_pendingAddresses_nodup l)

/-- A recorded address is an emitted word's, so the line map has it (R217, R221). -/
theorem lineMap_lookup_isSome {l : List Lexeme} {a : Nat} (ha : a < (pass1All l).buffer.length) :
    ((pass1All l).lineMap.lookup a).isSome = true := by
  have hkey : a ∈ (pass1All l).lineMap.map Prod.fst := by
    rw [(pass1All_inv l).lineMap]
    exact List.mem_range.2 ha
  obtain ⟨⟨_, line⟩, hmem, rfl⟩ := List.mem_map.1 hkey
  rw [lookup_eq_some_of_nodup (pass1All_lineMap_nodup l) hmem]
  rfl

/-- Settles O57: the errors are those of the pending addresses, which rise. -/
theorem unresolvedOnlyForUndefinedReferences : Obligations.UnresolvedOnlyForUndefinedReferences := by
  intro l
  refine ⟨(pass1All_inv l).patchKeys, ?_, (resolved l).pendingAddresses,
    resolved_pendingAddresses_rising l, mem_resolved_pendingAddresses l, ?_⟩
  · rw [errorsOf_unresolvedLabel, List.length_map, (resolved_pendingAddresses_perm l).length_eq,
      List.length_map, List.countP_eq_length_filter]
  · rw [errorsOf_unresolvedLabel, List.map_map, assembleLexemes_lineMap]
    refine List.map_congr_left fun a ha => ?_
    obtain ⟨e, he, -, hae, -⟩ := (mem_resolved_pendingAddresses l a).1 ha
    obtain ⟨line, hline⟩ :=
      Option.isSome_iff_exists.1 (lineMap_lookup_isSome ((pass1All_inv l).patchPlace e he a hae))
    simp [hline]

end Sys2Proof.Asm
end

section
/-! The history recorder: what a step leaves unmarked is unchanged, what a node holds, and what undo writes
back (46_history.md R260 to R265). -/

namespace Sys2Proof.Machine

/-! ### What a step tracks -/

/-- Every step, executing or not, is an effect on its state up to the `accessed` set it starts from: the
empty one or, when nothing executes, the state's own (40_controller.md R101, R102). -/
theorem step_effect_from {s t : State} (h : step s = .next t) :
    ∃ c : AddrSet, Effect { s with accessed := c } t := by
  rcases step_effect h with ⟨-, rfl⟩ | ⟨-, e⟩
  · exact ⟨t.accessed, Effect.refl t⟩
  · exact ⟨[], e⟩

/-! ### What a node holds -/

theorem mem_allRegs (i : Reg) : i ∈ allRegs := by revert i; decide

theorem allRegs_nodup : allRegs.Nodup := by decide

theorem State.mem_alteredRegs {s : State} {i : Reg} :
    i ∈ s.alteredRegs ↔ i ≠ 0 ∧ s.regAltered[i] = true := by
  simp [State.alteredRegs, mem_allRegs]

theorem State.alteredRegs_nodup (s : State) : s.alteredRegs.Nodup := allRegs_nodup.filter _

@[simp] theorem snapshot_regs_keys (pre post : State) :
    (snapshot pre post).regs.map Prod.fst = post.alteredRegs := by
  simp [snapshot, Function.comp_def]

@[simp] theorem snapshot_mem_keys (pre post : State) :
    (snapshot pre post).mem.map Prod.fst = post.accessed := by
  simp [snapshot, Function.comp_def]

theorem mem_snapshot_regs {pre post : State} {i : Reg} {v : Word} :
    (i, v) ∈ (snapshot pre post).regs ↔ i ∈ post.alteredRegs ∧ v = pre.reg i := by
  simp [snapshot, eq_comm]

theorem mem_snapshot_mem {pre post : State} {k : Nat} {v : Word} :
    (k, v) ∈ (snapshot pre post).mem ↔ k ∈ post.accessed ∧ v = pre.mem.read k := by
  simp [snapshot, eq_comm]

/-! ### What writing a node back does -/

/-- A register other than R0 reads as its slot (10_state.md R22). -/
theorem State.reg_of_ne_zero (s : State) {i : Reg} (h : i ≠ 0) : s.reg i = s.regs[i] := if_neg h

theorem State.applySnapshot_regs (s : State) (n : Snapshot) :
    (s.applySnapshot n).regs = (s.restoreRegs n.regs).regs :=
  (State.restoreMem_frame n.mem _).1

theorem State.applySnapshot_slot_listed (s : State) {n : Snapshot} (hn : (n.regs.map Prod.fst).Nodup)
    {e : Reg × Word} (he : e ∈ n.regs) (h0 : e.1 ≠ 0) : (s.applySnapshot n).regs[e.1] = e.2 := by
  rw [State.applySnapshot_regs]
  exact State.restoreRegs_mem n.regs s hn e he h0

theorem State.applySnapshot_slot_other (s : State) {n : Snapshot} {i : Reg}
    (hi : i ∉ n.regs.map Prod.fst ∨ i = 0) : (s.applySnapshot n).regs[i] = s.regs[i] := by
  rw [State.applySnapshot_regs]
  exact State.restoreRegs_other n.regs i s hi

theorem State.applySnapshot_read_listed {s : State} (hs : s.mem.wf = true) {n : Snapshot}
    (hn : (n.mem.map Prod.fst).Nodup) (hlt : ∀ e ∈ n.mem, e.1 < 65536) {e : Nat × Word}
    (he : e ∈ n.mem) : (s.applySnapshot n).mem.read e.1 = e.2 := by
  obtain ⟨hmem, -⟩ := State.restoreRegs_frame n.regs s
  exact State.restoreMem_mem n.mem _ (hmem.symm ▸ hs) hn hlt e he

theorem State.applySnapshot_read_other (s : State) {n : Snapshot} {k : Nat}
    (hk : k ∉ n.mem.map Prod.fst) : (s.applySnapshot n).mem.read k = s.mem.read k := by
  obtain ⟨hmem, -⟩ := State.restoreRegs_frame n.regs s
  exact (State.restoreMem_other n.mem k _ hk).trans (by rw [hmem])

/-- Writing a node back leaves the symbol table and the display data (10_state.md R38). -/
theorem State.applySnapshot_symbols_display (s : State) (n : Snapshot) :
    (s.applySnapshot n).symbols = s.symbols ∧ (s.applySnapshot n).display = s.display := by
  obtain ⟨-, -, hsym, hdisp, -⟩ := State.restoreRegs_frame n.regs s
  obtain ⟨-, -, hsym', hdisp', -⟩ := State.restoreMem_frame n.mem (s.restoreRegs n.regs)
  exact ⟨hsym'.trans hsym, hdisp'.trans hdisp⟩

/-! ### undo -/

/-- undo with a node on the chain (R263). -/
theorem State.undo_of_cons {s : State} {n : Snapshot} {rest : List Snapshot}
    (h : s.history = n :: rest) :
    s.undo = ({ (s.applySnapshot n).forgetTracking with history := rest }, .ok) := by
  simp only [State.undo, h]

/-- undo at the root (R264). -/
theorem State.undo_of_nil {s : State} (h : s.history = []) : s.undo = (s, .atRoot) := by
  simp only [State.undo, h]

/-! ### undo after record -/

/-- Writing the recorded node back restores every register slot, since an unmarked one has not changed
(R262). -/
theorem applySnapshot_record_regs {s t : State} {c : AddrSet}
    (e : Effect { s with accessed := c } t) :
    ((State.record s t).applySnapshot (snapshot s t)).regs = s.regs := by
  have hslot : ∀ i : Reg, ((State.record s t).applySnapshot (snapshot s t)).regs[i] = s.regs[i] := by
    intro i
    by_cases hi : i ∈ t.alteredRegs
    · have h0 : i ≠ 0 := (State.mem_alteredRegs.1 hi).1
      rw [← s.reg_of_ne_zero h0]
      exact State.applySnapshot_slot_listed _ (by simpa using t.alteredRegs_nodup)
        (mem_snapshot_regs.2 ⟨hi, rfl⟩) h0
    · rw [State.applySnapshot_slot_other _ (.inl (by simpa using hi))]
      by_cases h0 : i = 0
      · subst h0; exact e.slotZero
      · by_contra hne
        exact hi (State.mem_alteredRegs.2 ⟨h0, e.slot i hne⟩)
  exact Vector.ext fun i hi => hslot ⟨i, hi⟩

/-- Writing the recorded node back restores the whole memory, since a word outside `accessed` has not
changed (R262). -/
theorem applySnapshot_record_mem {s t : State} {c : AddrSet} (e : Effect { s with accessed := c } t)
    (hs : s.mem.wf = true) (ht : AddrSet.wf t.accessed = true) :
    ((State.record s t).applySnapshot (snapshot s t)).mem = s.mem := by
  have htmem : (State.record s t).mem.wf = true := e.memWf hs
  have hnode := Safety.snapshotWf_snapshot s ht
  refine Memory.ext_of_wf (Safety.applySnapshot_mem_wf htmem hnode) hs fun a => ?_
  by_cases ha : a.toNat ∈ t.accessed
  · exact State.applySnapshot_read_listed htmem (by simpa using (AddrSet.nodup_of_wf ht).1) hnode
      (mem_snapshot_mem.2 ⟨ha, rfl⟩)
  · rw [State.applySnapshot_read_other _ (by simpa using ha)]
    by_contra hne
    exact ha (e.word a hne)

end Sys2Proof.Machine

namespace Sys2Proof.Safety

open Machine

/-! ### The statements about history -/

/-- Settles O44: the node written back holds the prior values of all that the step may have changed. -/
theorem stepRecordUndoRestoresTheState : Obligations.StepRecordUndoRestoresTheState := by
  intro s t hs ht u
  obtain ⟨c, e⟩ := step_effect_from ht
  have hregs : u.1.regs = s.regs := applySnapshot_record_regs e
  have hmem : u.1.mem = s.mem := applySnapshot_record_mem e hs.memory (hs.step ht).accessed
  obtain ⟨hsymbols, hdisplay⟩ := (State.record s t).applySnapshot_symbols_display (snapshot s t)
  exact ⟨rfl, fun i => State.reg_of_slot (by rw [hregs]), hregs,
    fun a => congrArg (Memory.read · a.toNat) hmem, hmem, rfl, rfl, e.host.history,
    hsymbols.trans e.host.symbols, hdisplay.trans e.host.display⟩

/-- Settles O33: a register that reads otherwise has another slot, and effects track slots and words. -/
theorem stepTracksEveryChange : Obligations.StepTracksEveryChange := by
  intro s t ht
  obtain ⟨c, e⟩ := step_effect_from ht
  exact ⟨fun i hne => e.slot i (mt State.reg_of_slot hne), e.word, e.altered, e.alteredZero⟩

/-- Settles O45: the node is `snapshot`, member by member. -/
theorem recordHoldsPriorValuesOfMarked : Obligations.RecordHoldsPriorValuesOfMarked :=
  fun pre post => ⟨snapshot pre post, rfl, rfl, rfl,
    fun _ _ => mem_snapshot_regs.trans (by rw [State.mem_alteredRegs, and_assoc]),
    fun _ _ => mem_snapshot_mem⟩

/-- Settles O46: what `applySnapshot` writes back, listed and not, and the root. -/
theorem undoWritesTheTopNodeBack : Obligations.UndoWritesTheTopNodeBack := by
  refine ⟨fun s n rest hwf hhist hregs hmem hlt => ?_, fun s hroot => State.undo_of_nil hroot⟩
  rw [State.undo_of_cons hhist]
  refine ⟨rfl, rfl, rfl, rfl, fun e he h0 => ?_, fun i hi => ?_, fun e he => ?_, fun k hk => ?_⟩
  · exact (State.reg_of_ne_zero _ h0).trans (s.applySnapshot_slot_listed hregs he h0)
  · exact State.reg_of_slot (s.applySnapshot_slot_other (.inl hi))
  · exact State.applySnapshot_read_listed hwf hmem hlt he
  · exact s.applySnapshot_read_other hk

end Sys2Proof.Safety
end

section
/-! Faults: which instructions raise Error and why, what the fault leaves, and that every step answers a next
state (60_exceptions.md R270 to R277). -/

namespace Sys2Proof.Machine

open Safety

/-! ### The division faults -/

/-- div with a reason to fault reads its operands and raises Error (60_exceptions.md R272). -/
theorem exec_div_of_fault {d a b : Reg} {s : State} {r : Fault}
    (hf : instrFault (.div d a b) s = some r) :
    exec (.div d a b) s = raiseError r (s.touchSources a b) := by
  have hf' : divFault Config.params (s.reg a) (s.reg b) = some r := hf
  simp only [exec, execDiv, hf']

/-- divn with a reason to fault also reads R15 before it raises Error (60_exceptions.md R272). -/
theorem exec_divn_of_fault {d a b : Reg} {s : State} {r : Fault}
    (hf : instrFault (.divn d a b) s = some r) :
    exec (.divn d a b) s = raiseError r ((s.touchSources a b).touchReg 15) := by
  have hf' : zeroDivisorFault Config.params (s.reg b) = some r := hf
  simp only [exec, execDivn, hf']

/-- Raising Error after reads only leaves what a fault leaves (40_controller.md R107). -/
theorem raiseError_of_registerOnly {reads : List Reg} {s u : State} (r : Fault)
    (hu : RegisterOnly reads [] s u) : ∃ t, raiseError r u = .next t ∧ FaultedFrom reads s t :=
  raiseError_spec r hu.regs hu.memory hu.host hu.pc

/-- What a fault of div leaves (60_exceptions.md R272). -/
theorem exec_div_faultedFrom {d a b : Reg} {s : State} {r : Fault}
    (hf : instrFault (.div d a b) s = some r) :
    ∃ t, exec (.div d a b) s = .next t ∧ FaultedFrom [a, b] s t := by
  rw [exec_div_of_fault hf]
  exact raiseError_of_registerOnly r (registerOnly_touchSources s a b)

/-- What a fault of divn leaves (60_exceptions.md R272). -/
theorem exec_divn_faultedFrom {d a b : Reg} {s : State} {r : Fault}
    (hf : instrFault (.divn d a b) s = some r) :
    ∃ t, exec (.divn d a b) s = .next t ∧ FaultedFrom [a, b, 15] s t := by
  rw [exec_divn_of_fault hf]
  exact raiseError_of_registerOnly r (registerOnly_touchSourcesR15 s a b)

/-! ### Every instruction and every step answers -/

/-- Every instruction answers a next state, a fault being one of them (60_exceptions.md R277, log 2). -/
theorem exec_answers (i : Instr) (s : State) : ∃ t, exec i s = .next t := by
  cases i with
  | div d a b =>
    cases hf : instrFault (.div d a b) s with
    | some r => exact ⟨_, exec_div_of_fault hf⟩
    | none =>
      obtain ⟨hb, hmin⟩ := not_or.1 (mt (instrFault_div_ne_none d a b s).2 (not_not.2 hf))
      exact ⟨_, exec_div_of_no_fault hb hmin⟩
  | divn d a b =>
    by_cases hb : s.reg b = 0
    · exact ⟨_, exec_divn_of_fault ((instrFault_divn d a b s).trans (if_pos hb))⟩
    · exact ⟨_, exec_divn_of_no_fault hb⟩
  | trap d a b =>
    rw [exec_trap]
    split_ifs <;> exact ⟨_, rfl⟩
  | _ => exact ⟨_, rfl⟩

/-! ### When a step faults -/

/-- An instruction enters Error exactly when it has a reason to fault (60_exceptions.md R270). -/
theorem exec_rs_error_iff {i : Instr} {s t : State} (h : exec i s = .next t) (hs : s.rs ≠ .error) :
    t.rs = .error ↔ instrFault i s ≠ none := by
  rcases exec_rs h with ⟨hsame, hf⟩ | ⟨herr, hf⟩ | ⟨-, -, -, -, ⟨htrap, -⟩ | ⟨htrap, -⟩, hf⟩
  · exact iff_of_false (hsame ▸ hs) (not_not.2 hf)
  · exact iff_of_true herr hf
  · exact iff_of_false (htrap ▸ nofun) (not_not.2 hf)
  · exact iff_of_false (htrap ▸ nofun) (not_not.2 hf)

/-- The reason reported for an instruction is that instruction's own; the fetch does not change it. -/
theorem stepFaultReason_of_ok {s : State} {i : Instr} (hx : s.rs.executes = true)
    (hd : decode (s.word s.pc) (s.word (s.pc + 1)) = .ok i) : stepFaultReason s = instrFault i s := by
  unfold stepFaultReason
  rw [if_pos hx]
  simp only [(decode_fetch s).trans hd]
  exact instrFault_congr i (fetch_spec s).reg

/-- The reason reported for a reserved encoding (60_exceptions.md R271). -/
theorem stepFaultReason_of_reserved {s : State} {r : Reserved} (hx : s.rs.executes = true)
    (hd : decode (s.word s.pc) (s.word (s.pc + 1)) = .error r) :
    stepFaultReason s = some (reservedFault r) := by
  unfold stepFaultReason
  rw [if_pos hx]
  simp only [(decode_fetch s).trans hd]

/-- An executing state is not in Error (10_state.md R34). -/
theorem RunState.ne_error_of_executes {r : RunState} (h : r.executes = true) : r ≠ .error := by
  rintro rfl
  exact nomatch h

/-! ### What a faulting step leaves -/

/-- A step that ends in Error changes no register, altered mark, memory, pc or host datum after its fetch,
on a reserved encoding and on a faulting instruction (60_exceptions.md R271, R275). -/
theorem step_error_frame {s t : State} (hx : s.rs.executes = true) (h : step s = .next t)
    (ht : t.rs = .error) :
    let u := s.resetAccessed.fetch.2.2
    (∀ j, t.reg j = u.reg j) ∧ t.regAltered = u.regAltered ∧ t.mem = u.mem ∧ t.pc = u.pc ∧
      SameHostData u t := by
  rcases step_cases hx h with ⟨r, -, rfl⟩ | ⟨i, -, he⟩
  · exact ⟨fun _ => rfl, rfl, rfl, rfl, ⟨rfl, rfl, rfl, rfl⟩⟩
  · have hu : s.resetAccessed.fetch.2.2.rs ≠ .error :=
      (fetch_spec s).rs ▸ RunState.ne_error_of_executes hx
    exact exec_of_fault he ((exec_rs_error_iff he hu).1 ht)

end Sys2Proof.Machine

namespace Sys2Proof.Safety

open Machine

/-- Two changes in a row that each leave the host's data leave it. -/
theorem SameHostData.trans {s t u : State} (h : SameHostData s t) (h' : SameHostData t u) :
    SameHostData s u where
  symbols := h'.symbols.trans h.symbols
  display := h'.display.trans h.display
  history := h'.history.trans h.history
  freeCount := h'.freeCount.trans h.freeCount

/-! ### The statements about faults -/

/-- Settles O9: the zero divisor is checked first, and what the fault leaves does not depend on the reason. -/
theorem divisionFaultsWriteNothing : Obligations.DivisionFaultsWriteNothing := by
  refine fun d a b s => ⟨fun hb => ?_, fun ha hb => ?_⟩
  · have hdiv := (instrFault_div d a b s).trans (if_pos hb)
    have hdivn := (instrFault_divn d a b s).trans (if_pos hb)
    obtain ⟨t, ht, hframe⟩ := exec_div_faultedFrom hdiv
    obtain ⟨u, hu, hframe'⟩ := exec_divn_faultedFrom hdivn
    exact ⟨hdiv, hdivn, t, u, ht, hframe, hu, hframe'⟩
  · have hzero : s.reg b ≠ 0 := by rw [hb]; decide
    have hdiv : instrFault (.div d a b) s = some .divideOverflow := by
      rw [instrFault_div, if_neg hzero, if_pos ⟨ha, hb⟩]
    exact ⟨hdiv, exec_div_faultedFrom hdiv⟩

/-- Settles O26: a reserved encoding always faults, and an instruction exactly with its reason, which is one of
R270's last three rows. -/
theorem stepFaultsExactlyInTheListedCases : Obligations.StepFaultsExactlyInTheListedCases := by
  intro s t hrs h
  have hx := RunState.executes_of_running_or_step hrs
  have hfetch := fetch_spec s
  rcases step_cases hx h with ⟨r, hd, rfl⟩ | ⟨i, hd, he⟩
  · have hcase := faultCase_of_reserved hd
    rw [stepFaultReason_of_reserved hx hd]
    exact ⟨iff_of_true rfl hcase, iff_of_true nofun hcase⟩
  · have hu : s.resetAccessed.fetch.2.2.rs ≠ .error := hfetch.rs ▸ RunState.ne_error_of_executes hx
    rw [stepFaultReason_of_ok hx hd, exec_rs_error_iff he hu, instrFault_congr i hfetch.reg,
      faultCase_iff_instrFault hd]
    exact ⟨Iff.rfl, Iff.rfl⟩

/-- Settles O27: the fault leaves what the fetch left, and the fetch moves pc only. -/
theorem faultingStepMutatesNothingButPc : Obligations.FaultingStepMutatesNothingButPc := by
  intro s t hrs h ht
  have hfetch := fetch_spec s
  obtain ⟨hreg, haltered, hmem, hpc, hhost⟩ :=
    step_error_frame (RunState.executes_of_running_or_step hrs) h ht
  exact ⟨fun i => (hreg i).trans (hfetch.reg i), haltered.trans hfetch.regAltered,
    fun a => congrArg (Memory.read · a.toNat) (hmem.trans hfetch.mem), hpc.trans hfetch.pc,
    hfetch.host.trans hhost⟩

/-- Settles O28: nothing executes, or a reserved encoding raises Error, or the instruction answers. -/
theorem stepAlwaysAnswersANextState : Obligations.StepAlwaysAnswersANextState := by
  intro s
  cases hx : s.rs.executes with
  | false => exact ⟨s, step_of_not_executes hx⟩
  | true =>
    cases hd : decode (s.word s.pc) (s.word (s.pc + 1)) with
    | error r => exact ⟨_, step_reserved hx hd⟩
    | ok i => rw [step_ok hx hd]; exact exec_answers i _

end Sys2Proof.Safety
end

section
/-! The reset transaction: which images it refuses, and the state a loaded image gives
(70_reset_and_hazards.md R290 to R292, 10_state.md R42). -/

namespace Sys2Proof.Machine

/-! ### Which images are admitted -/

/-- MissingHalt is the only kind of error an admitted image lists (R292 (a)). -/
theorem imageErrorsAdmit_iff (image : Asm.Image) :
    imageErrorsAdmit image = true ↔ ∀ e ∈ image.errors, e.kind = .missingHalt := by
  simp [imageErrorsAdmit]

/-- An image fits up to 65536 words (R292 (b)). -/
theorem imageFits_iff (image : Asm.Image) :
    imageFits image = true ↔ image.words.length ≤ 65536 :=
  decide_eq_true_iff

/-- An admitted image replaces the whole state, but for the counter of free values (R290, log 6). -/
theorem State.resetWith_of_admitted {image : Asm.Image}
    (herrors : ∀ e ∈ image.errors, e.kind = .missingHalt) (hfit : image.words.length ≤ 65536)
    (s : State) (display : Display) :
    s.resetWith image display = .next (State.ofImage image display s.freeCount) := by
  simp [State.resetWith, (imageErrorsAdmit_iff image).2 herrors, (imageFits_iff image).2 hfit]

/-- The error list is checked first, so its refusal does not depend on the image's length (R292 (a)). -/
theorem State.resetWith_of_other_error {image : Asm.Image}
    (herror : ∃ e ∈ image.errors, e.kind ≠ .missingHalt) (s : State) (display : Display) :
    s.resetWith image display = .refused .imageHasErrors := by
  have hadmit : imageErrorsAdmit image = false := by
    rw [← Bool.not_eq_true, imageErrorsAdmit_iff]
    simpa using herror
  rw [State.resetWith, if_pos hadmit]

/-- An image whose errors are admitted is refused for its length alone (R292 (b)). -/
theorem State.resetWith_of_too_long {image : Asm.Image}
    (herrors : ∀ e ∈ image.errors, e.kind = .missingHalt) (hlong : 65536 < image.words.length)
    (s : State) (display : Display) :
    s.resetWith image display = .refused .imageTooLong := by
  have hfit : imageFits image = false := by
    rw [← Bool.not_eq_true, imageFits_iff]
    exact Nat.not_le.2 hlong
  simp [State.resetWith, (imageErrorsAdmit_iff image).2 herrors, hfit]

/-! ### The state a loaded image gives -/

/-- Every register is 0 after a load (10_state.md R42). -/
@[simp] theorem State.reg_ofImage (image : Asm.Image) (display : Display) (freeCount : Nat) (i : Reg) :
    (State.ofImage image display freeCount).reg i = 0 := by
  simp [State.reg, State.ofImage, State.reset]

/-- No register is marked altered after a load (R42). -/
theorem State.ofImage_regAltered (image : Asm.Image) (display : Display) (freeCount : Nat)
    (i : Reg) : (State.ofImage image display freeCount).regAltered[i] = false := by
  simp [State.ofImage, State.reset]

/-- No register is marked accessed after a load (R42). -/
theorem State.ofImage_regAccessed (image : Asm.Image) (display : Display) (freeCount : Nat)
    (i : Reg) : (State.ofImage image display freeCount).regAccessed[i] = false := by
  simp [State.ofImage, State.reset]

/-- The addresses of the image's words are the used ones after a load (R42, R291). -/
@[simp] theorem State.mem_ofImage_used {image : Asm.Image} {display : Display} {freeCount n : Nat} :
    n ∈ (State.ofImage image display freeCount).used ↔ n < image.words.length :=
  List.mem_range

/-- Word i of an image that fits stands at address i after a load, and 0 elsewhere (R42, R291). -/
theorem State.word_ofImage {image : Asm.Image} (hfit : image.words.length ≤ 65536)
    (display : Display) (freeCount : Nat) (a : Word) :
    (State.ofImage image display freeCount).word a = (image.words[a.toNat]?).getD 0 :=
  (Memory.read_ofWords (by omega) a.toNat).trans (if_pos (Nat.zero_le _))

end Sys2Proof.Machine

namespace Sys2Proof.Asm

/-- The empty text assembles to the empty image, which lists a MissingHalt (45_assembler.md R243). -/
theorem assemble_nil : assemble [] =
    { words := [], symbols := [], lineMap := [], errors := [⟨.missingHalt, 1⟩], registers := [] } :=
  rfl

end Sys2Proof.Asm

namespace Sys2Proof.Safety

open Machine

/-! ### The statements about reset -/

/-- Settles O36: the admitted image loads, and the state it gives is read field by field. -/
theorem resetLoadsTheImage : Obligations.ResetLoadsTheImage := by
  intro s image display herrors hfit
  exact ⟨_, State.resetWith_of_admitted herrors hfit s display,
    fun i => ⟨State.reg_ofImage .., State.ofImage_regAltered .., State.ofImage_regAccessed ..⟩,
    rfl, rfl, rfl, rfl, rfl, rfl, fun n => State.mem_ofImage_used,
    State.word_ofImage hfit display s.freeCount⟩

/-- Settles O37: one refusal for each check of the transaction. -/
theorem resetRefusesOtherImages : Obligations.ResetRefusesOtherImages := by
  intro s image display
  exact ⟨fun herror => State.resetWith_of_other_error herror s display,
    fun herrors hlong => State.resetWith_of_too_long herrors hlong s display⟩

/-- Settles O38: the empty text's image is admitted, its one error being MissingHalt, and loads nothing. -/
theorem resetStateIsTheEmptyImageReset : Obligations.ResetStateIsTheEmptyImageReset := by
  intro s hfree
  have hload : transact s (.reset (Asm.assemble []) Display.initial) =
      .next (State.ofImage (Asm.assemble []) Display.initial s.freeCount) :=
    State.resetWith_of_admitted (by simp [Asm.assemble_nil]) (by simp [Asm.assemble_nil]) s _
  rw [hload, hfree, Asm.assemble_nil]
  rfl

end Sys2Proof.Safety
end
